-- ==== Sys2Proof/Word.lean ====
section
/-! DEFINITION. The word types of the opennd decode block: bytes, packed pixels, registers and dictionary positions. -/

namespace Sys2Proof

/-- One byte of host memory, of the dictionary, of the stream or of the frame (00_scope.md R12). -/
abbrev Byte := BitVec 8

/-- One packed pixel, and the width of WIDTH and HEIGHT (00_scope.md R10, 30_encoding.md R83). -/
abbrev Half := BitVec 16

/-- One 32-bit register (10_state.md R20) and one `le32` field (00_scope.md R12). -/
abbrev Word := BitVec 32

/-- A dictionary position: the cursors W and R wrap modulo 4096 (10_state.md R33). -/
abbrev DictIx := BitVec 12

end Sys2Proof
end

