-- ==== Sys2Proof/Syntax.lean ====
section
/-! DEFINITION. The instructions of the opennd decode block: one constructor per row of spec/opcode_table.json. -/

namespace Sys2Proof

/-- The operands of COPY (30_encoding.md R75). `full` holds the raw pixel-unit fields D and N and the 2·N data bytes.
`truncated` holds what follows the tag when the fields or the data extend past the end of the stream (42_frame_delta.md R121). -/
inductive CopyForm where
  | full (d n : Word) (data : List Byte)
  | truncated (tail : List Byte)
deriving DecidableEq, Repr

/-- The operands of FILL (30_encoding.md R76). `full` holds the pattern bytes in stream order and the raw fields D and N.
`truncated` holds what follows the tag when the 11 bytes extend past the end of the stream (42_frame_delta.md R121). -/
inductive FillForm where
  | full (p0 p1 : Byte) (d n : Word)
  | truncated (tail : List Byte)
deriving DecidableEq, Repr

/-- The rows of the opcode table (00_scope.md R2), in the table's order, with the operands of its `source_fields`. -/
inductive Instr where
  /-- DESCR: descramble the payload byte `x`; its position n is implicit (40_descrambler.md R90). -/
  | descr (x : Byte)
  /-- LZ.FLAGS: load the flag byte `f` (41_lzss.md R99). -/
  | lzFlags (f : Byte)
  /-- LZ.LIT: emit the literal `c` (41_lzss.md R100). -/
  | lzLit (c : Byte)
  /-- LZ.REF: copy `lenCode + 3` bytes from the absolute dictionary position `off` (41_lzss.md R101). -/
  | lzRef (off : DictIx) (lenCode : BitVec 4)
  /-- LZ.REF_PARTIAL: a back-reference whose only input byte is `b0` (41_lzss.md R102). -/
  | lzRefPartial (b0 : Byte)
  /-- COPY, tag 0x20 (42_frame_delta.md R117). -/
  | copy (form : CopyForm)
  /-- FILL, tag 0x40 (42_frame_delta.md R118). -/
  | fill (form : FillForm)
  /-- OP80, tag 0x80, operands unknown (42_frame_delta.md R119). -/
  | op80
  /-- UNKNOWN, any other tag (42_frame_delta.md R120). -/
  | unknown (tag : Byte)
  /-- RAW_FRAME: chunk type 0 (42_frame_delta.md R112). -/
  | rawFrame
  /-- DELTA_INIT: chunk type `ty`, not 0 (42_frame_delta.md R113). -/
  | deltaInit (ty : Byte)
  /-- CVT.KEY: the chroma-key pixel (43_color.md R132). -/
  | cvtKey
  /-- CVT.PIX: an ordinary pixel, by its fields (43_color.md R133, 30_encoding.md R83). -/
  | cvtPix (unused : BitVec 1) (red green blue : BitVec 5)
  /-- CVT.PAD: a pixel with no full source word (43_color.md R134). -/
  | cvtPad
  /-- START: a CTRL write with bit 0 = 1; `newSeq` is its bit 1 and `irqEn` its bit 2 (44_command.md R141). -/
  | start (newSeq irqEn : Bool)
  /-- NEW_SEQ: a CTRL write with bits 1:0 = 0b10; `irqEn` is its bit 2 (44_command.md R149). -/
  | newSeq (irqEn : Bool)
  /-- CLEAR_STATUS: a STATUS write; `done` is its bit 1 and `ignored` its bit 2 (44_command.md R150). -/
  | clearStatus (done ignored : Bool)
deriving DecidableEq, Repr

end Sys2Proof
end

