-- ==== Sys2Proof/Machine/Operands.lean ====
section
/-! DEFINITION. Operand forms: how the bytes of the streams become operands, and operands become addresses, counts and
pattern bytes. -/

namespace Sys2Proof.Machine

/-- `le16` of two bytes, the first at the lower index (00_scope.md R12). -/
def le16 (b0 b1 : Byte) : Half := b1 ++ b0

/-- `le32` of four bytes, the first at the lowest index (00_scope.md R12). -/
def le32 (b0 b1 b2 b3 : Byte) : Word := b3 ++ b2 ++ b1 ++ b0

/-- Byte k (0 the least significant) of a 32-bit value, as a little-endian store lays it out (20_memory.md R53, R54). -/
def byteOf (v : Word) (k : Nat) : Byte := v.extractLsb' (8 * k) 8

/-- The four bytes of a 32-bit value, lowest index first (20_memory.md R53). -/
def leBytes (v : Word) : List Byte := [byteOf v 0, byteOf v 1, byteOf v 2, byteOf v 3]

/-- `le32` of the first four bytes of a list; a missing byte counts as 0 (the decoder tests the length first). -/
def le32At (bs : List Byte) : Word :=
  le32 (bs.getD 0 0) (bs.getD 1 0) (bs.getD 2 0) (bs.getD 3 0)

/-- The 12-bit absolute dictionary position of a REF (30_encoding.md R72). -/
def refOffset (b0 b1 : Byte) : DictIx := b1.extractLsb' 4 4 ++ b0

/-- The field len − 3 of a REF: the low nibble of its second byte (30_encoding.md R71). -/
def refLenCode (b1 : Byte) : BitVec 4 := b1.extractLsb' 0 4

/-- The run length of a REF, 3 .. 18 (30_encoding.md R72). -/
def refLen (lenCode : BitVec 4) : Nat := lenCode.toNat + 3

/-- A pixel-unit field as bytes: `2 * v`, exact, no wrap at 32 bits (30_encoding.md R79). -/
def scaled (v : Word) : Nat := 2 * v.toNat

/-- The fields of a packed pixel, put together again (30_encoding.md R83). -/
def pixelOf (unused : BitVec 1) (red green blue : BitVec 5) : Half := unused ++ red ++ green ++ blue

/-- Bits 4:0 of a packed pixel (30_encoding.md R83). -/
def blueField (raw : Half) : BitVec 5 := raw.extractLsb' 0 5
/-- Bits 9:5 of a packed pixel (30_encoding.md R83). -/
def greenField (raw : Half) : BitVec 5 := raw.extractLsb' 5 5
/-- Bits 14:10 of a packed pixel (30_encoding.md R83). -/
def redField (raw : Half) : BitVec 5 := raw.extractLsb' 10 5
/-- Bit 15 of a packed pixel (30_encoding.md R83). -/
def unusedField (raw : Half) : BitVec 1 := raw.extractLsb' 15 1

/-- The chroma-key sentinel 0x03E0 (00_scope.md R9, 43_color.md R132). -/
def keyPixel : Half := 0x03E0

/-- The bytes a FILL of `n` pixels writes, the even byte `e` first (42_frame_delta.md R118). -/
def fillBytes (e o : Byte) : Nat → List Byte
  | 0 => []
  | n + 1 => e :: o :: fillBytes e o n

/-- Descrambling: the 8-bit wrapping subtraction of n mod 256 (40_descrambler.md R90). -/
def descramble (x : Byte) (n : Nat) : Byte := x - BitVec.ofNat 8 (n % 256)

/-- The transform the descrambler undoes, for stating its inverse (40_descrambler.md R93). -/
def scramble (y : Byte) (n : Nat) : Byte := y + BitVec.ofNat 8 (n % 256)

end Sys2Proof.Machine
end

