-- ==== Sys2Proof/WellFormed.lean ====
section
/-! DEFINITION. Which instructions the encodings of 30_encoding.md can give. -/

namespace Sys2Proof

open Sys2Proof.Machine

/-- A COPY is full when its data are the 2·N bytes its field N asks for, and truncated when the stream after the tag is too
short for its fields or for those bytes (30_encoding.md R75, 42_frame_delta.md R117, R121). -/
def CopyForm.wf : CopyForm → Bool
  | .full _ n data => decide (data.length = scaled n)
  | .truncated tail => decide (tail.length < 8) || decide (tail.length < 8 + scaled (le32At (tail.drop 4)))

/-- A FILL is truncated when fewer than 10 bytes follow its tag (30_encoding.md R76, 42_frame_delta.md R121). -/
def FillForm.wf : FillForm → Bool
  | .full _ _ _ _ => true
  | .truncated tail => decide (tail.length < 10)

/-- UNKNOWN has every tag but the three defined ones (30_encoding.md R78, R80). -/
def unknownTag (tag : Byte) : Bool := tag != 0x20 && tag != 0x40 && tag != 0x80

/-- The well-formed instructions: those some bytes of the spec's encodings stand for. -/
def Instr.wf : Instr → Bool
  | .descr _ => true
  | .lzFlags _ => true
  | .lzLit _ => true
  | .lzRef _ _ => true
  | .lzRefPartial _ => true
  | .copy form => form.wf
  | .fill form => form.wf
  | .op80 => true
  | .unknown tag => unknownTag tag
  | .rawFrame => true
  | .deltaInit ty => ty != 0
  | .cvtKey => true
  | .cvtPix unused red green blue => pixelOf unused red green blue != keyPixel
  | .cvtPad => true
  | .start _ _ => true
  | .newSeq _ => true
  | .clearStatus _ _ => true

end Sys2Proof
end

