-- ==== Sys2Proof/Decode.lean ====
section
/-! DEFINITION. The decoder and the encoder. The block has no single instruction stream (00_scope.md R2): what bytes mean
depends on where they are read, the `Source`. -/

namespace Sys2Proof

open Sys2Proof.Machine

/-- Where the engine or the register port takes an instruction from. -/
inductive Source where
  /-- One scrambled payload byte (40_descrambler.md R90). -/
  | payload
  /-- LZSS input at a point where FBIT = 8 (41_lzss.md R98). -/
  | flagByte
  /-- LZSS input under a flag bit: 1 is a literal, 0 a back-reference (30_encoding.md R70). -/
  | token (literal : Bool)
  /-- The frame-delta stream from a tag to its end (30_encoding.md R74). -/
  | delta
  /-- The latched chunk type (42_frame_delta.md R110). -/
  | chunkType
  /-- The valid frame bytes from an even offset on (43_color.md R131). -/
  | pixel
  /-- The four bytes of a CTRL write (30_encoding.md R87). -/
  | ctrlWrite
  /-- The four bytes of a STATUS write (30_encoding.md R87). -/
  | statusWrite
deriving DecidableEq, Repr

/-- Why bytes are no instruction. -/
inductive DecodeError where
  /-- No byte is there to decode. -/
  | noByte
  /-- A register write of fewer than four bytes. -/
  | shortWrite
  /-- A CTRL write with bits 1:0 = 0 issues no command (10_state.md R21). -/
  | noCommand
deriving DecidableEq, Repr

/-- COPY from the bytes after its tag: the fields, then the 2·N data bytes, each tested against what the stream still holds
(30_encoding.md R75, 42_frame_delta.md R117). -/
def decodeCopy (tail : List Byte) : Instr × List Byte :=
  if tail.length < 8 then (.copy (.truncated tail), [])
  else
    let n := le32At (tail.drop 4)
    if tail.length < 8 + scaled n then (.copy (.truncated tail), [])
    else (.copy (.full (le32At tail) n ((tail.drop 8).take (scaled n))), (tail.drop 8).drop (scaled n))

/-- FILL from the bytes after its tag (30_encoding.md R76, 42_frame_delta.md R118). -/
def decodeFill (tail : List Byte) : Instr × List Byte :=
  if tail.length < 10 then (.fill (.truncated tail), [])
  else
    (.fill (.full (tail.getD 0 0) (tail.getD 1 0) (le32At (tail.drop 2)) (le32At (tail.drop 6))), tail.drop 10)

/-- One frame-delta operation: the tag decides (30_encoding.md R80). -/
def decodeDelta (tag : Byte) (tail : List Byte) : Instr × List Byte :=
  if tag = 0x20 then decodeCopy tail
  else if tag = 0x40 then decodeFill tail
  else if tag = 0x80 then (.op80, tail)
  else (.unknown tag, tail)

/-- One packed pixel: the sentinel is compared on all 16 bits (43_color.md R131, R132). -/
def decodePixel (raw : Half) : Instr :=
  if raw = keyPixel then .cvtKey
  else .cvtPix (unusedField raw) (redField raw) (greenField raw) (blueField raw)

/-- A CTRL write: bit 0 is START, bit 1 NEW_SEQ, bit 2 IRQ_EN, the rest ignored (10_state.md R21, 30_encoding.md R87). -/
def decodeCtrl (v : Word) : Except DecodeError Instr :=
  if v.getLsbD 0 then .ok (.start (v.getLsbD 1) (v.getLsbD 2))
  else if v.getLsbD 1 then .ok (.newSeq (v.getLsbD 2))
  else .error .noCommand

/-- A STATUS write: bit 1 is DONE, bit 2 IGNORED, the rest ignored (44_command.md R150). -/
def decodeStatus (v : Word) : Instr := .clearStatus (v.getLsbD 1) (v.getLsbD 2)

/-- The decoder: the first instruction of a source's bytes, and the bytes after it. -/
def decode : Source → List Byte → Except DecodeError (Instr × List Byte)
  | .payload, x :: rest => .ok (.descr x, rest)
  | .payload, [] => .error .noByte
  | .flagByte, f :: rest => .ok (.lzFlags f, rest)
  | .flagByte, [] => .error .noByte
  | .token true, c :: rest => .ok (.lzLit c, rest)
  | .token true, [] => .error .noByte
  | .token false, b0 :: b1 :: rest => .ok (.lzRef (refOffset b0 b1) (refLenCode b1), rest)
  | .token false, [b0] => .ok (.lzRefPartial b0, [])
  | .token false, [] => .error .noByte
  | .delta, tag :: tail => .ok (decodeDelta tag tail)
  | .delta, [] => .error .noByte
  | .chunkType, ty :: rest => .ok (if ty = 0 then .rawFrame else .deltaInit ty, rest)
  | .chunkType, [] => .error .noByte
  | .pixel, b0 :: b1 :: rest => .ok (decodePixel (le16 b0 b1), rest)
  | .pixel, [b] => .ok (.cvtPad, [b])
  | .pixel, [] => .ok (.cvtPad, [])
  | .ctrlWrite, b0 :: b1 :: b2 :: b3 :: rest =>
    match decodeCtrl (le32 b0 b1 b2 b3) with
    | .ok i => .ok (i, rest)
    | .error e => .error e
  | .ctrlWrite, _ => .error .shortWrite
  | .statusWrite, b0 :: b1 :: b2 :: b3 :: rest => .ok (decodeStatus (le32 b0 b1 b2 b3), rest)
  | .statusWrite, _ => .error .shortWrite

/-- The source an instruction is decoded from. -/
def sourceOf : Instr → Source
  | .descr _ => .payload
  | .lzFlags _ => .flagByte
  | .lzLit _ => .token true
  | .lzRef _ _ => .token false
  | .lzRefPartial _ => .token false
  | .copy _ => .delta
  | .fill _ => .delta
  | .op80 => .delta
  | .unknown _ => .delta
  | .rawFrame => .chunkType
  | .deltaInit _ => .chunkType
  | .cvtKey => .pixel
  | .cvtPix _ _ _ _ => .pixel
  | .cvtPad => .pixel
  | .start _ _ => .ctrlWrite
  | .newSeq _ => .ctrlWrite
  | .clearStatus _ _ => .statusWrite

/-- The two bytes of a REF token: `off & 0xFF` and `((off >> 8) << 4) | (len − 3)` (30_encoding.md R71, R85). -/
def encodeRef (off : DictIx) (lenCode : BitVec 4) : List Byte :=
  [off.extractLsb' 0 8, off.extractLsb' 8 4 ++ lenCode]

/-- The two bytes of a packed pixel, low byte first (20_memory.md R53). -/
def encodePixel (raw : Half) : List Byte := [raw.extractLsb' 0 8, raw.extractLsb' 8 8]

/-- The value of a CTRL or STATUS write with the given bits 2:0 and zeros above (30_encoding.md R87). -/
def commandWord (b2 b1 b0 : Bool) : Word :=
  (0#29 ++ BitVec.ofBool b2 ++ BitVec.ofBool b1 ++ BitVec.ofBool b0 : BitVec 32)

/-- The encoder: the bytes of a well-formed instruction in its source, lowest index first. CVT.PAD has no input bytes. -/
def encode : Instr → List Byte
  | .descr x => [x]
  | .lzFlags f => [f]
  | .lzLit c => [c]
  | .lzRef off lenCode => encodeRef off lenCode
  | .lzRefPartial b0 => [b0]
  | .copy (.full d n data) => 0x20 :: (leBytes d ++ leBytes n ++ data)
  | .copy (.truncated tail) => 0x20 :: tail
  | .fill (.full p0 p1 d n) => 0x40 :: p0 :: p1 :: (leBytes d ++ leBytes n)
  | .fill (.truncated tail) => 0x40 :: tail
  | .op80 => [0x80]
  | .unknown tag => [tag]
  | .rawFrame => [0]
  | .deltaInit ty => [ty]
  | .cvtKey => encodePixel keyPixel
  | .cvtPix unused red green blue => encodePixel (pixelOf unused red green blue)
  | .cvtPad => []
  | .start newSeq irqEn => leBytes (commandWord irqEn newSeq true)
  | .newSeq irqEn => leBytes (commandWord irqEn true false)
  | .clearStatus done ignored => leBytes (commandWord ignored done false)

/-- The source a word of spec/opcode_table.json is read in. The table gives words of several sources and does not say which:
16 bits are a packed pixel; a byte that sets only CTRL's fields (1 .. 7), or a word of more than 16 bits, is a CTRL write; any
other byte is a frame-delta tag. DESIGN CHOICE, safe: this is the table adapter's, no machine step uses it (log 8). -/
def tableSource (nbits w : Nat) : Source :=
  if nbits = 16 then .pixel
  else if nbits ≤ 8 ∧ (w = 0 ∨ 8 ≤ w) then .delta
  else .ctrlWrite

/-- How many bytes the adapter lays out for a source: the longest fixed part of a frame-delta operation, one pixel, one
register word, or one byte. -/
def sourceLength : Source → Nat
  | .delta => 11
  | .pixel => 2
  | .ctrlWrite => 4
  | .statusWrite => 4
  | .token false => 2
  | _ => 1

/-- `count` bytes of `w`, least significant first. -/
def bytesOfNat : Nat → Nat → List Byte
  | 0, _ => []
  | count + 1, w => BitVec.ofNat 8 (w % 256) :: bytesOfNat count (w / 256)

/-- A table word as bytes: its `nbits` bits, then zeros up to the source's length. -/
def tableBytes (nbits w : Nat) : List Byte :=
  bytesOfNat (sourceLength (tableSource nbits w)) (w % 2 ^ (max nbits 8))

/-- The instruction the decoder reads from a word of spec/opcode_table.json. -/
def decodeTableWord (nbits w : Nat) : Option Instr :=
  match decode (tableSource nbits w) (tableBytes nbits w) with
  | .ok (i, _) => some i
  | .error _ => none

end Sys2Proof
end

