-- ==== Sys2Proof/Config.lean ====
section
/-! DEFINITION. The parameters the spec leaves to the implementation (00_scope.md R8, 20_memory.md R51) and the free values
it leaves open (93_implementation_defined.md I1, I7, I8, I12, 10_state.md R33). -/

namespace Sys2Proof

/-- OOB_POLICY: what a frame-delta write outside the frame does (00_scope.md R8, 42_frame_delta.md R116, R122). -/
inductive OobPolicy where
  | stop
  | clip
deriving DecidableEq, Repr

/-- OP80_POLICY: what opcode 0x80 does (00_scope.md R8, 42_frame_delta.md R119, 60_exceptions.md R179). -/
inductive Op80Policy where
  | stop
  | refuse
deriving DecidableEq, Repr

/-- FILL_ORDER: which pattern byte of opcode 0x40 goes to even byte offsets (00_scope.md R8, 42_frame_delta.md R118). -/
inductive FillOrder where
  | stream
  | swapped
deriving DecidableEq, Repr

/-- The parameters of 00_scope.md R8, and REG_BASE of 20_memory.md R51. They are fixed for a machine: State holds them and no
step changes them (log 1). `regBase = none` says that the platform maps the register block outside the host memory map. -/
structure Config where
  hostMemSize : Nat
  fbCap       : Nat
  /-- `none` is "unbounded (no overflow)". -/
  dsCap       : Option Nat
  oobPolicy   : OobPolicy
  op80Policy  : Op80Policy
  fillOrder   : FillOrder
  regBase     : Option Nat
deriving DecidableEq, Repr

/-- The default column of 00_scope.md R8. DESIGN CHOICE, unsafe: REG_BASE has no default in the spec; here the register block
is outside the host memory map (log 2). -/
def Config.standard : Config where
  hostMemSize := 0x100000000
  fbCap       := 65535 * 65535 * 2
  dsCap       := none
  oobPolicy   := .stop
  op80Policy  := .stop
  fillOrder   := .stream
  regBase     := none

/-- The range column of 00_scope.md R8: HOST_MEM_SIZE is 1 .. 2^32; the other capacities have no bound. -/
def Config.ok (c : Config) : Bool :=
  decide (1 ≤ c.hostMemSize) && decide (c.hostMemSize ≤ 0x100000000)

/-- FREE VALUE. The k-th free register word: what STATUS bits 16:3 and the registers at 0x24..0x3C read while BUSY = 1
("any value", 10_state.md R22, 44_command.md R152, log 9). -/
opaque Config.busyRegValue : Nat → Word

/-- FREE VALUE. Whether the k-th host read of a payload or RGBA byte while BUSY = 1 returns the new byte rather than the old
one (20_memory.md R62, log 10). -/
opaque Config.busyReadIsNew : Nat → Bool

/-- FREE VALUE. Whether the reset that draws free value k in the middle of a command leaves the new byte rather than the old
one at a host address (70_reset_and_hazards.md R184, log 11). -/
opaque Config.resetLeavesNew : Nat → Nat → Bool

/-- FREE VALUE. What the initialisation that draws free value k gives the read cursor R (10_state.md R33, log 25). -/
opaque Config.initialR : Nat → DictIx

/-- FREE VALUE. What the initialisation that draws free value k gives FLAGS (10_state.md R33, log 25). -/
opaque Config.initialFlags : Nat → Byte

/-- FREE VALUE. The bytes of the k-th frame that has no meaning under OP80_POLICY = REFUSE (60_exceptions.md R179, log 15). -/
opaque Config.refusedFrameByte : Nat → Nat → Byte

/-- FREE VALUE. The code of the stop cause that the k-th refused interpretation ends with, 0 for none (60_exceptions.md R179,
log 15). -/
opaque Config.refusedCause : Nat → Nat

/-- FREE VALUE. Where in the stream the k-th refused interpretation stops, and so which byte is its STOP_TAG (60_exceptions.md R179,
log 15). -/
opaque Config.refusedPos : Nat → Nat

/-- FREE VALUE. How many operations the k-th refused interpretation completes (60_exceptions.md R179, log 15). -/
opaque Config.refusedOps : Nat → Nat

/-- FREE VALUE. Whether the k-th refused interpretation clips (60_exceptions.md R179, log 15). -/
opaque Config.refusedClipped : Nat → Bool

end Sys2Proof
end

