-- ==== Sys2Proof/Machine/State.lean ====
section
/-! DEFINITION. Everything the spec gives the machine, as plain data, and its value after reset. -/

namespace Sys2Proof.Machine

/-- A byte memory: host memory, the dictionary or the frame. Addresses strictly rising, no listed byte 0, and an unlisted
address reads 0 (`Memory.read`, log 3). -/
abbrev Memory := List Host.Cell

/-- How frame-delta interpretation ended (60_exceptions.md R161). -/
inductive StopCause where
  | none
  | unknownOp
  | op80
  | truncatedOp
  | frameOob
deriving DecidableEq, Repr

/-- Why a START was rejected (60_exceptions.md R164). -/
inductive RejectCause where
  | none
  | srcRange
  | dstRange
  | overlap
  | frameSize
deriving DecidableEq, Repr

/-- The fields of STATUS (10_state.md R22). Reserved bits 31:17 hold nothing. -/
structure Status where
  busy        : Bool
  done        : Bool
  ignored     : Bool
  rejected    : Bool
  dup         : Bool
  blankRef    : Bool
  lenMismatch : Bool
  dsOvf       : Bool
  stopCause   : StopCause
  rejectCause : RejectCause
  clipped     : Bool
deriving DecidableEq, Repr

/-- The stage the engine is in (44_command.md R143). The spec names the stages, not the states; a host cannot see them
(10_state.md R39). -/
inductive Phase where
  /-- No command is running: BUSY = 0. -/
  | idle
  /-- REF_SELECT (44_command.md R145). -/
  | refSelect
  /-- The duplicate test, and DUPLICATE (44_command.md R143, R146). -/
  | dupTest
  /-- DESCR and the LZSS stage (41_lzss.md R98). -/
  | lzss
  /-- LENGTH_CHECK (44_command.md R147). -/
  | lengthCheck
  /-- The dispatch on the chunk type (42_frame_delta.md R110). -/
  | frame
  /-- The first line of INTERPRET (42_frame_delta.md R114). -/
  | interpretInit
  /-- The loop of INTERPRET (42_frame_delta.md R114). -/
  | interpret
  /-- The loop of CONVERT (43_color.md R131). -/
  | convert
  /-- COMPLETE (44_command.md R148). -/
  | complete
deriving DecidableEq, Repr

/-- What the host can do at the block's interfaces (10_state.md R17). A register access says how many bytes wide it is and at
which offset of the register block; a memory access moves one byte. -/
inductive HostAccess where
  | regRead (width offset : Nat)
  | regWrite (width offset : Nat) (value : Word)
  | memRead (address : Nat)
  | memWrite (address : Nat) (value : Byte)
deriving DecidableEq, Repr

/-- One coming move: the engine, the host or the platform's reset (10_state.md R18, 70_reset_and_hazards.md R183). -/
inductive Turn where
  | engine
  | host (access : HostAccess)
  | reset
deriving DecidableEq, Repr

/-- The machine. The model's own fields are `phase`, `pix`, `din`, `oldMem`, `agenda`, `rdata`, `mdata`, `freeCount` and
`freeFrame`; every other field is the spec's (INVENTORY.md). -/
structure State where
  /-- The parameters (00_scope.md R8); no step changes them (log 1). -/
  cfg          : Config
  /-- Host memory (20_memory.md R50). -/
  mem          : Memory
  /-- CTRL.IRQ_EN (10_state.md R21). -/
  irqEn        : Bool
  /-- STATUS (10_state.md R22). -/
  status       : Status
  /-- WIDTH (10_state.md R23). -/
  width        : Half
  /-- HEIGHT (10_state.md R23). -/
  height       : Half
  /-- SRC_ADDR (10_state.md R24). -/
  srcAddr      : Word
  /-- STORAGE_SIZE (10_state.md R24). -/
  storageSize  : Word
  /-- ORIGINAL_SIZE (10_state.md R25). -/
  originalSize : Word
  /-- CHUNK_TYPE (10_state.md R25). -/
  chunkType    : Byte
  /-- DST_ADDR (10_state.md R26). -/
  dstAddr      : Word
  /-- LZ_OUT_COUNT (10_state.md R27). -/
  lzOutCount   : Word
  /-- The register DS_LEN (10_state.md R27). -/
  dsLenReg     : Word
  /-- STOP_POS (10_state.md R28). -/
  stopPos      : Word
  /-- STOP_TAG (10_state.md R28). -/
  stopTag      : Byte
  /-- OPS_DONE (10_state.md R29). -/
  opsDone      : Word
  /-- FB_LEN_LO (10_state.md R30). -/
  fbLenLo      : Word
  /-- FB_LEN_HI bits 1:0 (10_state.md R30). -/
  fbLenHi      : BitVec 2
  /-- L_WIDTH (10_state.md R34). -/
  lWidth       : Half
  /-- L_HEIGHT (10_state.md R34). -/
  lHeight      : Half
  /-- L_SRC (10_state.md R34). -/
  lSrc         : Word
  /-- L_STORAGE (10_state.md R34). -/
  lStorage     : Word
  /-- L_ORIGINAL (10_state.md R34). -/
  lOriginal    : Word
  /-- L_TYPE (10_state.md R34). -/
  lType        : Byte
  /-- L_DST (10_state.md R34). -/
  lDst         : Word
  /-- DICT, indices 0..4095 (10_state.md R33). -/
  dict         : Memory
  /-- The write cursor W (10_state.md R33). -/
  w            : DictIx
  /-- The read cursor R (10_state.md R33). -/
  r            : DictIx
  /-- FLAGS (10_state.md R33). -/
  flags        : Byte
  /-- FBIT, 0..8 (10_state.md R33). -/
  fbit         : Nat
  /-- P, 0..L_STORAGE (10_state.md R35). -/
  p            : Nat
  /-- Descrambled bytes D[P..] that no token has consumed yet (log 6). -/
  din          : List Byte
  /-- DS[0..DS_LEN-1]; DS_LEN is its length (10_state.md R36, log 18). -/
  ds           : List Byte
  /-- PRODUCED (10_state.md R36). -/
  produced     : Nat
  /-- IP (10_state.md R37). -/
  ip           : Nat
  /-- OPS (10_state.md R37). -/
  ops          : Nat
  /-- CAUSE (10_state.md R37). -/
  cause        : StopCause
  /-- FB (10_state.md R38). -/
  fb           : Memory
  /-- FB_LEN (10_state.md R38). -/
  fbLen        : Nat
  /-- PREV_VALID (10_state.md R38). -/
  prevValid    : Bool
  /-- PREV_FB_SIZE (10_state.md R38). -/
  prevFbSize   : Nat
  /-- The engine's stage (10_state.md R39). -/
  phase        : Phase
  /-- The loop index i of CONVERT (43_color.md R131). -/
  pix          : Nat
  /-- Host memory as it stood when the running command was accepted; nothing while idle (log 10). -/
  oldMem       : Memory
  /-- The coming moves; when it is empty the engine moves (log 7). -/
  agenda       : List Turn
  /-- What the host's latest register read returned (log 19). -/
  rdata        : Word
  /-- What the host's latest memory read returned (log 19). -/
  mdata        : Byte
  /-- How many free values have been drawn (log 9, log 10, log 11, log 15, log 25). -/
  freeCount    : Nat
  /-- Under OP80_POLICY = REFUSE, the mark of 60_exceptions.md R179: `some k` says that the frame in FB has no meaning, and is
  the k-th free frame (log 15). `none` says that it is FB's bytes. -/
  freeFrame    : Option Nat
deriving DecidableEq, Repr

/-- Why a run has no meaning from here on. -/
inductive Fault where
  /-- An access to a host address at or above HOST_MEM_SIZE (20_memory.md R50). Raised by a host access, and by a write of DESCR
  or CVT in a state no command reaches, since CHECK_RANGES rejects such a command. Safe: the address does not exist. -/
  | noSuchHostAddress
  /-- A register access at an offset of 0x100 or more (10_state.md R20). Raised by the register port. Safe: there is no such register. -/
  | noSuchRegister
  /-- A host write to the payload or RGBA range of the running command: "a model treats such a write as a fault of the host"
  (70_reset_and_hazards.md R188, log 12). Raised by a host memory write. Safe. -/
  | hostWriteDuringBusy
deriving DecidableEq, Repr

/-- What the model gives no meaning to. -/
inductive Refusal where
  /-- An instruction with no meaning yet: only `exec` answers it, and no arm does. Safe. -/
  | notModelled (mnemonic : String)
  /-- A register access that is not 32 bits wide or not aligned to 4 bytes (20_memory.md R55, log 13). Raised by the register
  port. Safe. -/
  | badRegisterAccess
  /-- A START that would be accepted and whose host ranges cover the register block (20_memory.md R51, log 14). Raised by START.
  Safe. -/
  | coversRegisterBlock
  /-- Bytes that are no instruction. Raised by the engine if a fetch could not be decoded; no fetch is (41_lzss.md R104,
  30_encoding.md R80). Safe. -/
  | undecodable
deriving DecidableEq, Repr

/-- What a step of this machine answers. -/
abbrev Result := Host.Outcome State Fault Refusal

/-- STATUS after reset (10_state.md R41). -/
def Status.reset : Status where
  busy        := false
  done        := false
  ignored     := false
  rejected    := false
  dup         := false
  blankRef    := false
  lenMismatch := false
  dsOvf       := false
  stopCause   := .none
  rejectCause := .none
  clipped     := false

/-- The machine right after reset, for given parameters and host memory (10_state.md R41, R42, 70_reset_and_hazards.md R180).
DICT, DS, FB, W, R, FLAGS and FBIT are unspecified there: DESIGN CHOICE, unsafe, the values of log 4 and log 18. -/
def State.resetWith (cfg : Config) (mem : Memory) : State where
  cfg          := cfg
  mem          := mem
  irqEn        := false
  status       := Status.reset
  width        := 0
  height       := 0
  srcAddr      := 0
  storageSize  := 0
  originalSize := 0
  chunkType    := 0
  dstAddr      := 0
  lzOutCount   := 0
  dsLenReg     := 0
  stopPos      := 0
  stopTag      := 0
  opsDone      := 0
  fbLenLo      := 0
  fbLenHi      := 0
  lWidth       := 0
  lHeight      := 0
  lSrc         := 0
  lStorage     := 0
  lOriginal    := 0
  lType        := 0
  lDst         := 0
  dict         := []
  w            := 0xFEE
  r            := 0
  flags        := 0
  fbit         := 8
  p            := 0
  din          := []
  ds           := []
  produced     := 0
  ip           := 0
  ops          := 0
  cause        := .none
  fb           := []
  fbLen        := 0
  prevValid    := false
  prevFbSize   := 0
  phase        := .idle
  pix          := 0
  oldMem       := []
  agenda       := []
  rdata        := 0
  mdata        := 0
  freeCount    := 0
  freeFrame    := none

/-- The machine right after reset: the default parameters, and host memory with nothing listed. -/
def State.reset : State := State.resetWith Config.standard []

end Sys2Proof.Machine
end

