-- ==== Sys2Proof/Machine/Flags.lean ====
section
/-! DEFINITION. The block's flags: the STATUS word and every computation that sets one of its bits, the saturating counts, the
interrupt output. The datapath has no condition codes (10_state.md R32). -/

namespace Sys2Proof.Machine

/-- The code of a stop cause (60_exceptions.md R161). -/
def stopCode : StopCause → BitVec 4
  | .none => 0
  | .unknownOp => 1
  | .op80 => 2
  | .truncatedOp => 3
  | .frameOob => 4

/-- The stop cause of a code (60_exceptions.md R161); a number that is no code stands for no stop. -/
def stopOfCode : Nat → StopCause
  | 1 => .unknownOp
  | 2 => .op80
  | 3 => .truncatedOp
  | 4 => .frameOob
  | _ => .none

/-- The code of a rejection (60_exceptions.md R164). -/
def rejectCode : RejectCause → BitVec 4
  | .none => 0
  | .srcRange => 1
  | .dstRange => 2
  | .overlap => 3
  | .frameSize => 4

/-- The word a read of STATUS returns while BUSY = 0 (10_state.md R22). -/
def statusWord (f : Status) : Word :=
  0#15 ++ BitVec.ofBool f.clipped ++ rejectCode f.rejectCause ++ stopCode f.stopCause
    ++ BitVec.ofBool f.dsOvf ++ BitVec.ofBool f.lenMismatch ++ BitVec.ofBool f.blankRef ++ BitVec.ofBool f.dup
    ++ BitVec.ofBool f.rejected ++ BitVec.ofBool f.ignored ++ BitVec.ofBool f.done ++ BitVec.ofBool f.busy

/-- STATUS bits 16:3, which "hold the result of the latest START" and are unspecified while BUSY = 1 (10_state.md R22). -/
def statusResultMask : Word := 0x0001FFF8

/-- The word a read of CTRL returns: START and NEW_SEQ read 0 (10_state.md R21). -/
def ctrlWord (irqEn : Bool) : Word := 0#29 ++ BitVec.ofBool irqEn ++ 0#2

/-- Write-1-to-clear of DONE and IGNORED (10_state.md R22, 44_command.md R150). -/
def clearFlags (done ignored : Bool) (f : Status) : Status :=
  { f with done := f.done && !done, ignored := f.ignored && !ignored }

/-- The flags an accepted START sets at once (44_command.md R141). -/
def acceptFlags (f : Status) : Status :=
  { f with busy := true, done := false, rejected := false, rejectCause := .none }

/-- The flags a rejected START sets; BUSY stays as it is and IGNORED is sticky (60_exceptions.md R164, R167). -/
def rejectFlags (cause : RejectCause) (f : Status) : Status :=
  { f with
    rejected := true, rejectCause := cause, dup := false, blankRef := false, lenMismatch := false, dsOvf := false,
    clipped := false, stopCause := .none, done := true }

/-- The flags DUPLICATE sets (44_command.md R146). -/
def duplicateFlags (f : Status) : Status :=
  { f with dup := true, lenMismatch := false, dsOvf := false, clipped := false }

/-- The flags COMPLETE sets (44_command.md R148). -/
def completeFlags (cause : StopCause) (f : Status) : Status :=
  { f with stopCause := cause, busy := false, done := true }

/-- The interrupt output, a level: `irq = STATUS.DONE & CTRL.IRQ_EN` (60_exceptions.md R171). -/
def State.irq (s : State) : Bool := s.status.done && s.irqEn

/-- A count in a 32-bit register, saturated at 0xFFFF_FFFF (10_state.md R27, 44_command.md R148). -/
def saturate (n : Nat) : Word := BitVec.ofNat 32 (min n 0xFFFFFFFF)

/-- FB_LEN bits 31:0 (10_state.md R30). -/
def lowWord (n : Nat) : Word := BitVec.ofNat 32 n

/-- FB_LEN bits 33:32 (10_state.md R30). -/
def highBits (n : Nat) : BitVec 2 := BitVec.ofNat 2 (n / 0x100000000)

end Sys2Proof.Machine
end

