-- ==== Sys2Proof/Machine/Ops.lean ====
section
/-! DEFINITION. The named operations over memories and registers that the instructions share, with the two forms of stopping
the spec has in place of an exception: `stopAt` (60_exceptions.md R162) and `rejectStart` (R164). There is no return from
either: "No return instruction exists or is needed" (R163). -/

namespace Sys2Proof.Machine

/-! ### Byte memories -/

/-- The byte at an address; an unlisted address reads 0. For host memory that 0 is a DESIGN CHOICE, unsafe (log 3); for the
dictionary and the blank canvas it is the spec's zero fill (41_lzss.md R96, 44_command.md R145). -/
def Memory.read : Memory → Nat → Byte
  | [], _ => 0
  | (b, u) :: m, a => if a = b then u else Memory.read m a

/-- Write one byte, keeping the canonical form: addresses rise, and a byte that becomes 0 leaves the list. -/
def Memory.write : Memory → Nat → Byte → Memory
  | [], a, v => if v = 0 then [] else [(a, v)]
  | (b, u) :: m, a, v =>
    if a < b then (if v = 0 then (b, u) :: m else (a, v) :: (b, u) :: m)
    else if a = b then (if v = 0 then m else (a, v) :: m)
    else (b, u) :: Memory.write m a v

/-- Write a list of bytes at rising addresses. -/
def Memory.writeList : Memory → Nat → List Byte → Memory
  | m, _, [] => m
  | m, a, v :: vs => Memory.writeList (Memory.write m a v) (a + 1) vs

/-- Write 0 to every address `lo .. hi-1`: the loops `for i in lo..hi: m[i] <- 0` of 41_lzss.md R96, 42_frame_delta.md R112,
R113 and 44_command.md R145. -/
def Memory.zeroRange (m : Memory) (lo hi : Nat) : Memory :=
  m.filter fun c => !(decide (lo ≤ c.1) && decide (c.1 < hi))

/-- The canonical form: addresses strictly rising, no listed byte 0. -/
def Memory.wf : Memory → Bool
  | [] => true
  | (_, u) :: [] => u != 0
  | (a, u) :: (b, v) :: m => u != 0 && decide (a < b) && Memory.wf ((b, v) :: m)

/-- Every listed address is below a bound. -/
def Memory.below (m : Memory) (bound : Nat) : Bool := m.all fun c => decide (c.1 < bound)

/-! ### Derived sizes -/

/-- NPIX = L_WIDTH * L_HEIGHT, without wrap-around (10_state.md R34). -/
def State.npix (s : State) : Nat := s.lWidth.toNat * s.lHeight.toNat

/-- FB_SIZE = L_WIDTH * L_HEIGHT * 2, without wrap-around (10_state.md R34). -/
def State.fbSize (s : State) : Nat := s.lWidth.toNat * s.lHeight.toNat * 2

/-- DS_LEN: the number of bytes DS holds (10_state.md R36). -/
def State.dsLen (s : State) : Nat := s.ds.length

/-- S = L_STORAGE as a number (30_encoding.md R70). -/
def State.inputLen (s : State) : Nat := s.lStorage.toNat

/-! ### The host memory port -/

/-- The host address exists (20_memory.md R50). -/
def State.hostHas (s : State) (a : Nat) : Bool := decide (a < s.cfg.hostMemSize)

/-- `HostRead(a)` (00_scope.md R12). -/
def State.hostRead (s : State) (a : Nat) : Byte := s.mem.read a

/-- `HostWrite` of a list of bytes at rising addresses (00_scope.md R12); an address that does not exist is a fault. -/
def hostWrite (a : Nat) (vs : List Byte) (s : State) : Result :=
  if a + vs.length ≤ s.cfg.hostMemSize then .next { s with mem := s.mem.writeList a vs }
  else .fault .noSuchHostAddress

/-- The address is in the payload range of the latched command (20_memory.md R50). -/
def State.inPayload (s : State) (a : Nat) : Bool :=
  decide (s.lSrc.toNat ≤ a) && decide (a < s.lSrc.toNat + s.lStorage.toNat)

/-- The address is in the RGBA range of the latched command (20_memory.md R50). -/
def State.inRgba (s : State) (a : Nat) : Bool :=
  decide (s.lDst.toNat ≤ a) && decide (a < s.lDst.toNat + 4 * s.npix)

/-- The address is in a range the latched command reads or writes (20_memory.md R50). -/
def State.inCommandRange (s : State) (a : Nat) : Bool := s.inPayload a || s.inRgba a

/-! ### The LZSS stage -/

/-- DS has room for one more byte (41_lzss.md R97). -/
def State.dsRoom (s : State) : Bool :=
  match s.cfg.dsCap with
  | none => true
  | some cap => decide (s.ds.length < cap)

/-- `emit(c)` (41_lzss.md R97): to the stream if there is room, else DS_OVF; always to the dictionary at W. -/
def emit (c : Byte) (s : State) : State :=
  { s with
    ds := if s.dsRoom then s.ds ++ [c] else s.ds
    status := { s.status with dsOvf := if s.dsRoom then s.status.dsOvf else true }
    produced := s.produced + 1
    dict := s.dict.write s.w.toNat c
    w := s.w + 1 }

/-- One step of a back-reference copy: read DICT[R] before this step's write, emit, advance R (41_lzss.md R101). -/
def copyOne (s : State) : State :=
  let t := emit (s.dict.read s.r.toNat) s
  { t with r := s.r + 1 }

/-- `len` steps of a back-reference copy (41_lzss.md R101). -/
def copyRun : Nat → State → State
  | 0, s => s
  | len + 1, s => copyRun len (copyOne s)

/-- A token of `k` input bytes has been taken: P advances past them (41_lzss.md R98). -/
def consume (k : Nat) (s : State) : State :=
  { s with p := s.p + k, din := s.din.drop k }

/-- A token is done: FBIT advances (41_lzss.md R98). -/
def nextToken (s : State) : State := { s with fbit := s.fbit + 1 }

/-- The LZSS initialisation of every chunk (41_lzss.md R96). All LZSS state is re-initialised and none of it carries over
(10_state.md R33): R and FLAGS, for which no rule states a value, take free values (DESIGN CHOICE, log 25). -/
def lzssInit (s : State) : State :=
  { s with
    dict := [], w := 0xFEE, r := Config.initialR s.freeCount, flags := Config.initialFlags s.freeCount, fbit := 8
    freeCount := s.freeCount + 1
    p := 0, din := [], ds := [], produced := 0
    status := { s.status with dsOvf := false } }

/-! ### The frame -/

/-- `FBWrite(a, v)` (42_frame_delta.md R116). -/
def fbWrite (a : Nat) (v : Byte) (s : State) : State :=
  if a < s.fbSize then { s with fb := s.fb.write a v }
  else { s with status := { s.status with clipped := true } }

/-- `FBWrite` of a list of bytes at rising offsets (42_frame_delta.md R117, R118). -/
def fbWriteList : Nat → List Byte → State → State
  | _, [], s => s
  | a, v :: vs, s => fbWriteList (a + 1) vs (fbWrite a v s)

/-- An operation is done: IP moves past its bytes and OPS counts it (42_frame_delta.md R117, R118). -/
def finishOp (len : Nat) (s : State) : State :=
  { s with ip := s.ip + len, ops := s.ops + 1 }

/-- The destination range passes the frame under OOB_POLICY = STOP (42_frame_delta.md R122). -/
def State.outOfFrame (s : State) (d c : Nat) : Bool :=
  decide (s.cfg.oobPolicy = .stop) && decide (s.fbSize < d + c)

/-- `stop(cause)` (60_exceptions.md R162): CAUSE is set, IP stays at the tag, nothing is written; the interpreter's loop test
then ends the interpretation (42_frame_delta.md R114). -/
def stopAt (cause : StopCause) (s : State) : State := { s with cause := cause }

/-- A byte of the frame: FB's, or, where the mark of 60_exceptions.md R179 is set, a free byte (log 15). -/
def State.frameByte (s : State) (a : Nat) : Byte :=
  match s.freeFrame with
  | none => s.fb.read a
  | some k => Config.refusedFrameByte k a

/-- Tag 0x80 under OP80_POLICY = REFUSE (60_exceptions.md R179): the interpretation is over, and what it leaves, the frame and
the results CAUSE, IP, OPS and CLIPPED, is free. DESIGN CHOICE, safe (log 15): IP is the end of the stream where nothing stopped,
and else the place of a byte of the stream, so that STOP_TAG, the byte at that free IP, is one that the stream has. -/
def refuseCommand (s : State) : State :=
  let k := s.freeCount
  let cause := stopOfCode (Config.refusedCause k)
  { s with
    cause := cause
    ip := if cause = .none then s.dsLen else min (Config.refusedPos k) (s.dsLen - 1)
    ops := Config.refusedOps k
    status := { s.status with clipped := Config.refusedClipped k }
    freeFrame := some k, freeCount := k + 1 }

/-- The command takes the previous frame as its reference. Where that frame has no meaning, the frame that depends on it is
another free frame (60_exceptions.md R179, log 15). -/
def keepReference (s : State) : State :=
  { s with
    freeFrame := s.freeFrame.map fun _ => s.freeCount
    freeCount := if s.freeFrame.isSome then s.freeCount + 1 else s.freeCount }

/-- Enter CONVERT: its loop starts at pixel 0 (43_color.md R131). -/
def enterConvert (s : State) : State := { s with phase := .convert, pix := 0 }

/-- Write the RGBA bytes of pixel i and go on to the next pixel (43_color.md R131, R136). -/
def writePixel (red green blue alpha : Byte) (s : State) : Result :=
  match hostWrite (s.lDst.toNat + 4 * s.pix) [red, green, blue, alpha] s with
  | .next t => .next { t with pix := s.pix + 1 }
  | .fault f => .fault f
  | .refused r => .refused r

/-! ### Commands -/

/-- The command registers, latched (10_state.md R34). -/
def latch (s : State) : State :=
  { s with
    lWidth := s.width, lHeight := s.height, lSrc := s.srcAddr, lStorage := s.storageSize
    lOriginal := s.originalSize, lType := s.chunkType, lDst := s.dstAddr }

/-- CHECK_RANGES on the latched values: the first cause that applies, in code order (60_exceptions.md R164). -/
def State.checkRanges (s : State) : RejectCause :=
  let src := s.lSrc.toNat
  let len := s.lStorage.toNat
  let dst := s.lDst.toNat
  let out := 4 * s.npix
  if s.cfg.hostMemSize < src + len then .srcRange
  else if s.cfg.hostMemSize < dst + out then .dstRange
  else if 0 < len ∧ 0 < s.npix ∧ src < dst + out ∧ dst < src + len then .overlap
  else if s.cfg.fbCap < s.fbSize then .frameSize
  else .none

/-- A half-open range and the register block share an address (20_memory.md R51). -/
def State.meetsRegisterBlock (s : State) (lo hi : Nat) : Bool :=
  match s.cfg.regBase with
  | none => false
  | some base => decide (lo < hi) && decide (lo < base + 0x100) && decide (base < hi)

/-- A host range of the latched command covers the register block, in whole or in part (20_memory.md R51, log 14). -/
def State.coversRegisters (s : State) : Bool :=
  s.meetsRegisterBlock s.lSrc.toNat (s.lSrc.toNat + s.lStorage.toNat)
    || s.meetsRegisterBlock s.lDst.toNat (s.lDst.toNat + 4 * s.npix)

/-- `reject(cause)` (60_exceptions.md R164): the status and the result registers only. -/
def rejectStart (cause : RejectCause) (s : State) : State :=
  { s with
    status := rejectFlags cause s.status
    lzOutCount := 0, dsLenReg := 0, stopPos := 0, stopTag := 0, opsDone := 0 }

/-- A START is accepted (44_command.md R141): BUSY is set and the engine begins COMMAND (R143). `oldMem` keeps the host memory
of this moment, the old values of 20_memory.md R62 (log 10). -/
def acceptStart (s : State) : State :=
  { s with status := acceptFlags s.status, phase := .refSelect, oldMem := s.mem }

/-- A command written while BUSY = 1 is ignored (44_command.md R142). -/
def ignoreCommand (s : State) : State :=
  { s with status := { s.status with ignored := true } }

end Sys2Proof.Machine
end

