-- ==== Sys2Proof/Machine/Color.lean ====
section
/-! DEFINITION. The colour converter (43_color.md). -/

namespace Sys2Proof.Machine

/-- `(raw & 0x001F) << 3` (43_color.md R133). -/
def blueOf (raw : Half) : Byte := ((raw &&& 0x001F) <<< 3).setWidth 8

/-- `(raw & 0x03E0) >> 2` (43_color.md R133). -/
def greenOf (raw : Half) : Byte := ((raw &&& 0x03E0) >>> 2).setWidth 8

/-- `(raw & 0x7C00) >> 7` (43_color.md R133). -/
def redOf (raw : Half) : Byte := ((raw &&& 0x7C00) >>> 7).setWidth 8

/-- CVT.KEY (43_color.md R132). -/
def execCvtKey (s : State) : Result := writePixel 0 0 0 0 s

/-- CVT.PIX (43_color.md R133). -/
def execCvtPix (unused : BitVec 1) (red green blue : BitVec 5) (s : State) : Result :=
  let raw := pixelOf unused red green blue
  writePixel (redOf raw) (greenOf raw) (blueOf raw) 0xFF s

/-- CVT.PAD (43_color.md R134). -/
def execCvtPad (s : State) : Result := writePixel 0 0 0 0 s

end Sys2Proof.Machine
end

