-- ==== Sys2Proof/Machine/Command.lean ====
section
/-! DEFINITION. The host commands (44_command.md): CTRL and STATUS writes that are rows of the opcode table. -/

namespace Sys2Proof.Machine

/-- A command reaches a block that is not busy: CHECK_RANGES runs on the values the registers would be latched with, and the
command is rejected or accepted (44_command.md R141, 60_exceptions.md R164, R166). The copies are kept on acceptance only: a
rejection changes nothing but the status registers (00_scope.md R13, 10_state.md R34, log 16). -/
def issueStart (s : State) : Result :=
  let t := latch s
  match t.checkRanges with
  | .none => if t.coversRegisters then .refused .coversRegisterBlock else .next (acceptStart t)
  | cause => .next (rejectStart cause s)

/-- START (44_command.md R141): IRQ_EN is always written (10_state.md R21); while BUSY = 1 the command is ignored (R142); a
NEW_SEQ in the same write takes effect first (10_state.md R21, 60_exceptions.md R166). -/
def execStart (newSeq irqEn : Bool) (s : State) : Result :=
  let t := { s with irqEn := irqEn }
  if s.status.busy then .next (ignoreCommand t)
  else issueStart (if newSeq then { t with prevValid := false } else t)

/-- NEW_SEQ (44_command.md R149). -/
def execNewSeq (irqEn : Bool) (s : State) : Result :=
  let t := { s with irqEn := irqEn }
  if s.status.busy then .next (ignoreCommand t)
  else .next { t with prevValid := false }

/-- CLEAR_STATUS (44_command.md R150). -/
def execClearStatus (done ignored : Bool) (s : State) : Result :=
  .next { s with status := clearFlags done ignored s.status }

end Sys2Proof.Machine
end

