-- ==== Sys2Proof/Machine/Descramble.lean ====
section
/-! DEFINITION. The descrambler (40_descrambler.md). -/

namespace Sys2Proof.Machine

/-- The position n of the next payload byte to descramble: P, and the bytes already waiting for their token (40_descrambler.md
R91, log 6). -/
def State.payloadPos (s : State) : Nat := s.p + s.din.length

/-- DESCR (40_descrambler.md R90, R92): the descrambled byte goes to the LZSS stage and back to host memory. -/
def execDescr (x : Byte) (s : State) : Result :=
  let y := descramble x s.payloadPos
  match hostWrite (s.lSrc.toNat + s.payloadPos) [y] s with
  | .next t => .next { t with din := s.din ++ [y] }
  | .fault f => .fault f
  | .refused r => .refused r

end Sys2Proof.Machine
end

