-- ==== Sys2Proof/Machine/FrameDelta.lean ====
section
/-! DEFINITION. The chunk-type dispatch and the frame-delta operations (42_frame_delta.md). -/

namespace Sys2Proof.Machine

/-- RAW_FRAME (42_frame_delta.md R112): the stream becomes the frame, cut or zero-filled to the frame size. No byte
of the previous frame is left in it, so it has its meaning whatever that frame was (60_exceptions.md R179). CONVERT is next. -/
def execRawFrame (s : State) : Result :=
  let m := min s.dsLen s.fbSize
  .next (enterConvert
    { s with
      fb := (s.fb.writeList 0 (s.ds.take m)).zeroRange m s.fbSize
      fbLen := m, ip := 0, ops := 0, cause := .none, freeFrame := none })

/-- DELTA_INIT (42_frame_delta.md R113): every chunk type but 2 starts from the blank canvas (R111), and so has its
meaning whatever the previous frame was (60_exceptions.md R179). INTERPRET is next. -/
def execDeltaInit (ty : Byte) (s : State) : Result :=
  .next
    { s with
      fb := if ty = 2 then s.fb else s.fb.zeroRange 0 s.fbSize
      freeFrame := if ty = 2 then s.freeFrame else none
      fbLen := s.fbSize, phase := .interpretInit }

/-- COPY (42_frame_delta.md R117). The decoder has found whether the operation is truncated (R121). -/
def execCopy (form : CopyForm) (s : State) : Result :=
  match form with
  | .truncated _ => .next (stopAt .truncatedOp s)
  | .full d n data =>
    if s.outOfFrame (scaled d) (scaled n) then .next (stopAt .frameOob s)
    else .next (finishOp (9 + scaled n) (fbWriteList (scaled d) data s))

/-- The pattern byte at even offsets, then the one at odd offsets (42_frame_delta.md R118). -/
def fillPattern (order : FillOrder) (p0 p1 : Byte) : Byte × Byte :=
  match order with
  | .stream => (p0, p1)
  | .swapped => (p1, p0)

/-- FILL (42_frame_delta.md R118). -/
def execFill (form : FillForm) (s : State) : Result :=
  match form with
  | .truncated _ => .next (stopAt .truncatedOp s)
  | .full p0 p1 d n =>
    if s.outOfFrame (scaled d) (scaled n) then .next (stopAt .frameOob s)
    else
      let eo := fillPattern s.cfg.fillOrder p0 p1
      .next (finishOp 11 (fbWriteList (scaled d) (fillBytes eo.1 eo.2 n.toNat) s))

/-- OP80 (42_frame_delta.md R119): stop cause 2 under OP80_POLICY = STOP; under REFUSE the command goes on, with its frame and
its results marked as having no meaning (60_exceptions.md R179, log 15). -/
def execOp80 (s : State) : Result :=
  match s.cfg.op80Policy with
  | .stop => .next (stopAt .op80 s)
  | .refuse => .next (refuseCommand s)

/-- UNKNOWN (42_frame_delta.md R120). -/
def execUnknown (_tag : Byte) (s : State) : Result :=
  .next (stopAt .unknownOp s)

end Sys2Proof.Machine
end

