-- ==== Sys2Proof/Machine/Lzss.lean ====
section
/-! DEFINITION. The LZSS tokens (41_lzss.md). Each meaning includes the loop's own `FBIT <- FBIT + 1` (R98). -/

namespace Sys2Proof.Machine

/-- LZ.FLAGS (41_lzss.md R99). -/
def execLzFlags (f : Byte) (s : State) : Result :=
  .next { consume 1 s with flags := f, fbit := 0 }

/-- LZ.LIT (41_lzss.md R100). -/
def execLzLit (c : Byte) (s : State) : Result :=
  .next (nextToken (emit c (consume 1 s)))

/-- LZ.REF (41_lzss.md R101). -/
def execLzRef (off : DictIx) (lenCode : BitVec 4) (s : State) : Result :=
  .next (nextToken (copyRun (refLen lenCode) { consume 2 s with r := off }))

/-- LZ.REF_PARTIAL (41_lzss.md R102): the byte is consumed, nothing is emitted, and P = S ends the stage. -/
def execLzRefPartial (_b0 : Byte) (s : State) : Result :=
  .next (consume 1 s)

end Sys2Proof.Machine
end

