-- ==== Sys2Proof/Machine/Dispatch.lean ====
section
/-! DEFINITION. One arm per row of the opcode table. -/

namespace Sys2Proof.Machine

def exec (i : Instr) (s : State) : Host.Outcome State Fault Refusal :=
  match i with
  | .descr x => Sys2Proof.Machine.execDescr x s
  | .lzFlags f => Sys2Proof.Machine.execLzFlags f s
  | .lzLit c => Sys2Proof.Machine.execLzLit c s
  | .lzRef off lenCode => Sys2Proof.Machine.execLzRef off lenCode s
  | .lzRefPartial b0 => Sys2Proof.Machine.execLzRefPartial b0 s
  | .copy form => Sys2Proof.Machine.execCopy form s
  | .fill form => Sys2Proof.Machine.execFill form s
  | .op80 => Sys2Proof.Machine.execOp80 s
  | .unknown tag => Sys2Proof.Machine.execUnknown tag s
  | .rawFrame => Sys2Proof.Machine.execRawFrame s
  | .deltaInit ty => Sys2Proof.Machine.execDeltaInit ty s
  | .cvtKey => Sys2Proof.Machine.execCvtKey s
  | .cvtPix unused red green blue => Sys2Proof.Machine.execCvtPix unused red green blue s
  | .cvtPad => Sys2Proof.Machine.execCvtPad s
  | .start newSeq irqEn => Sys2Proof.Machine.execStart newSeq irqEn s
  | .newSeq irqEn => Sys2Proof.Machine.execNewSeq irqEn s
  | .clearStatus done ignored => Sys2Proof.Machine.execClearStatus done ignored s

end Sys2Proof.Machine
end

