-- ==== Sys2Proof/Machine/Stages.lean ====
section
/-! DEFINITION. The stages of a command that are no row of the opcode table (44_command.md R143..R148, 42_frame_delta.md R114,
R123), each one step of the engine. -/

namespace Sys2Proof.Machine

/-- No valid previous frame of this size (44_command.md R145). -/
def State.needsBlank (s : State) : Bool := !s.prevValid || decide (s.prevFbSize ≠ s.fbSize)

/-- REF_SELECT (44_command.md R145): the blank canvas, or the previous frame as FB holds it. The blank canvas has its meaning
whatever the previous frame was, after NEW_SEQ among others (60_exceptions.md R179). -/
def refSelect (s : State) : State :=
  if s.needsBlank then
    { s with
      fb := s.fb.zeroRange 0 s.fbSize, fbLen := s.fbSize, freeFrame := none
      status := { s.status with blankRef := true }, phase := .dupTest }
  else { keepReference s with status := { s.status with blankRef := false }, phase := .dupTest }

/-- L_STORAGE = 0 and L_ORIGINAL = 0 (44_command.md R143). -/
def State.isDuplicate (s : State) : Bool := decide (s.lStorage = 0) && decide (s.lOriginal = 0)

/-- DUPLICATE (44_command.md R146): the frame is the reference; CONVERT is next. -/
def duplicate (s : State) : State :=
  enterConvert
    { s with
      status := duplicateFlags s.status
      ds := [], produced := 0, ip := 0, ops := 0, cause := .none }

/-- The duplicate test, and the start of the LZSS stage of any other chunk (44_command.md R143, 41_lzss.md R96). -/
def dupTest (s : State) : State :=
  if s.isDuplicate then duplicate s
  else
    { lzssInit { s with status := { s.status with dup := false, clipped := false } } with phase := .lzss }

/-- The LZSS stage has consumed its input (41_lzss.md R103). -/
def endLzss (s : State) : State := { s with phase := .lengthCheck }

/-- LENGTH_CHECK (44_command.md R147). -/
def lengthCheck (s : State) : State :=
  { s with
    status := { s.status with lenMismatch := decide (s.produced ≠ s.lOriginal.toNat) }, phase := .frame }

/-- The first line of INTERPRET (42_frame_delta.md R114). -/
def beginInterpret (s : State) : State :=
  { s with ip := 0, ops := 0, cause := .none, phase := .interpret }

/-- The results of the interpretation, saturated (42_frame_delta.md R123, 44_command.md R148, log 17). DESIGN CHOICE, unsafe: a stop
outside the stream, which no interpretation leaves, records STOP_TAG 0 (log 26); a refused one's STOP_TAG is DS at its free IP
(log 15). -/
def recordResults (s : State) : State :=
  { s with
    stopPos := saturate s.ip
    stopTag := if s.cause = .none then 0 else s.ds.getD s.ip 0
    opsDone := saturate s.ops
    status := { s.status with stopCause := s.cause } }

/-- INTERPRET has ended (42_frame_delta.md R123); CONVERT is next. -/
def endInterpret (s : State) : State := enterConvert (recordResults s)

/-- CONVERT has written every pixel (43_color.md R131). -/
def endConvert (s : State) : State := { s with phase := .complete }

/-- COMPLETE (44_command.md R148). -/
def complete (s : State) : State :=
  let t := recordResults s
  { t with
    prevValid := true, prevFbSize := s.fbSize
    lzOutCount := saturate s.produced, dsLenReg := saturate s.dsLen
    fbLenLo := lowWord s.fbLen, fbLenHi := highBits s.fbLen
    status := completeFlags s.cause s.status
    phase := .idle, oldMem := [] }

/-- The engine's move when no instruction is due: on to the next stage of 44_command.md R143, or nothing while idle
(60_exceptions.md R178). In the phase `frame` an instruction is always due. -/
def nextStage (s : State) : State :=
  match s.phase with
  | .idle => s
  | .refSelect => refSelect s
  | .dupTest => dupTest s
  | .lzss => endLzss s
  | .lengthCheck => lengthCheck s
  | .frame => s
  | .interpretInit => beginInterpret s
  | .interpret => endInterpret s
  | .convert => endConvert s
  | .complete => complete s

end Sys2Proof.Machine
end

