-- ==== Sys2Proof/Machine/Engine.lean ====
section
/-! DEFINITION. One step of the engine: what it fetches, and the run of a command to its end. -/

namespace Sys2Proof.Machine

/-- How many input bytes the next flag byte or token takes (41_lzss.md R98, R101, R102). -/
def State.tokenLength (s : State) : Nat :=
  if s.fbit = 8 then 1
  else if s.flags.getLsbD s.fbit then 1
  else if s.p + 1 = s.inputLen then 1
  else 2

/-- Where the next flag byte or token stands (41_lzss.md R98). -/
def State.tokenSource (s : State) : Source :=
  if s.fbit = 8 then .flagByte else .token (s.flags.getLsbD s.fbit)

/-- The LZSS stage: at P = S it ends (41_lzss.md R98, R103); a byte its token needs and does not have yet is descrambled first
(40_descrambler.md, log 6); else the token runs. -/
def fetchLzss (s : State) : Option (Source × List Byte) :=
  if s.inputLen ≤ s.p then none
  else if s.din.length < s.tokenLength then
    some (.payload, [s.hostRead (s.lSrc.toNat + s.payloadPos)])
  else some (s.tokenSource, s.din.take s.tokenLength)

/-- The loop test of INTERPRET (42_frame_delta.md R114): the operation at IP, up to the end of the stream. -/
def fetchDelta (s : State) : Option (Source × List Byte) :=
  if s.ip < s.dsLen ∧ s.cause = .none then some (.delta, s.ds.drop s.ip) else none

/-- The frame bytes of pixel i, if both are valid (43_color.md R131). -/
def State.pixelBytes (s : State) : List Byte :=
  if 2 * s.pix + 1 < s.fbLen then [s.frameByte (2 * s.pix), s.frameByte (2 * s.pix + 1)] else []

/-- The loop of CONVERT (43_color.md R131). -/
def fetchPixel (s : State) : Option (Source × List Byte) :=
  if s.pix < s.npix then some (.pixel, s.pixelBytes) else none

/-- The instruction the engine is due to run, as the bytes of its source; `none` when the next move is a stage's
(44_command.md R143). -/
def fetch (s : State) : Option (Source × List Byte) :=
  match s.phase with
  | .lzss => fetchLzss s
  | .frame => some (.chunkType, [s.lType])
  | .interpret => fetchDelta s
  | .convert => fetchPixel s
  | .idle => none
  | .refSelect => none
  | .dupTest => none
  | .lengthCheck => none
  | .interpretInit => none
  | .complete => none

/-- Run the instruction that bytes of a source stand for. -/
def runBytes (source : Source) (bytes : List Byte) (s : State) : Result :=
  match decode source bytes with
  | .ok (i, _) => exec i s
  | .error _ => .refused .undecodable

/-- One step of the engine. -/
def engineStep (s : State) : Result :=
  match fetch s with
  | some (source, bytes) => runBytes source bytes s
  | none => .next (nextStage s)

/-- At most `k` steps of the engine alone, up to the end of the command. In a state that no run reaches an engine step may
fault (log 21); the run then ends in front of it. -/
def engineRun : Nat → State → State
  | 0, s => s
  | k + 1, s =>
    if s.phase = .idle then s
    else
      match engineStep s with
      | .next t => engineRun k t
      | .fault _ => s
      | .refused _ => s

/-- A bound on the engine steps a command still takes, linear in L_STORAGE, DS_LEN and NPIX (70_reset_and_hazards.md R197). -/
def State.commandBound (s : State) : Nat :=
  20 * s.inputLen + s.dsLen + s.npix + 16

/-- The running command, run to its end by the engine alone: where the new values of 20_memory.md R62 and
70_reset_and_hazards.md R184 come from (log 10). -/
def finishCommand (s : State) : State := engineRun s.commandBound s

end Sys2Proof.Machine
end

