-- ==== Sys2Proof/Machine/Port.lean ====
section
/-! DEFINITION. The host's and the platform's moves: the register port, the host's own memory accesses, and reset. -/

namespace Sys2Proof.Machine

/-- The registers by offset (10_state.md R20): what a read returns while BUSY = 0. Reserved bits and offsets read 0 (R31). -/
def State.regWord (s : State) (offset : Nat) : Word :=
  match offset with
  | 0x00 => ctrlWord s.irqEn
  | 0x04 => statusWord s.status
  | 0x08 => s.width.setWidth 32
  | 0x0C => s.height.setWidth 32
  | 0x10 => s.srcAddr
  | 0x14 => s.storageSize
  | 0x18 => s.originalSize
  | 0x1C => s.chunkType.setWidth 32
  | 0x20 => s.dstAddr
  | 0x24 => s.lzOutCount
  | 0x28 => s.dsLenReg
  | 0x2C => s.stopPos
  | 0x30 => s.stopTag.setWidth 32
  | 0x34 => s.opsDone
  | 0x38 => s.fbLenLo
  | 0x3C => s.fbLenHi.setWidth 32
  | _ => 0

/-- The bits of a register that are unspecified while BUSY = 1: STATUS bits 16:3 and the registers at 0x24..0x3C
(10_state.md R22, 44_command.md R152). -/
def busyMask (offset : Nat) : Word :=
  if offset = 0x04 then statusResultMask
  else if 0x24 ≤ offset ∧ offset ≤ 0x3C then 0xFFFFFFFF
  else 0

/-- A register read (20_memory.md R57): no side effect on the block. While BUSY = 1 the bits of `busyMask` are a free value
(44_command.md R152, log 9). -/
def readReg (offset : Nat) (s : State) : State :=
  let v := s.regWord offset
  if s.status.busy && decide (busyMask offset ≠ 0) then
    { s with
      rdata := (v &&& ~~~(busyMask offset)) ||| (Config.busyRegValue s.freeCount &&& busyMask offset)
      freeCount := s.freeCount + 1 }
  else { s with rdata := v }

/-- A write to a register that issues no command: RW registers store their bits, RO and reserved locations ignore it
(10_state.md R20, R23..R31, 20_memory.md R57). -/
def storeReg (offset : Nat) (v : Word) (s : State) : State :=
  match offset with
  | 0x08 => { s with width := v.setWidth 16 }
  | 0x0C => { s with height := v.setWidth 16 }
  | 0x10 => { s with srcAddr := v }
  | 0x14 => { s with storageSize := v }
  | 0x18 => { s with originalSize := v }
  | 0x1C => { s with chunkType := v.setWidth 8 }
  | 0x20 => { s with dstAddr := v }
  | _ => s

/-- A CTRL write: the command it encodes, or else only IRQ_EN (10_state.md R21, 30_encoding.md R87). -/
def writeCtrl (v : Word) (s : State) : Result :=
  match decode .ctrlWrite (leBytes v) with
  | .ok (i, _) => exec i s
  | .error _ => .next { s with irqEn := v.getLsbD 2 }

/-- A register write (20_memory.md R57). -/
def writeReg (offset : Nat) (v : Word) (s : State) : Result :=
  if offset = 0x00 then writeCtrl v s
  else if offset = 0x04 then runBytes .statusWrite (leBytes v) s
  else .next (storeReg offset v s)

/-- What stops a register access before it happens: an offset outside the block (10_state.md R20), or a width or alignment other
than a 32-bit word's (20_memory.md R55, log 13). -/
def accessError (width offset : Nat) : Option Result :=
  if 0x100 ≤ offset then some (.fault .noSuchRegister)
  else if width = 4 ∧ offset % 4 = 0 then none
  else some (.refused .badRegisterAccess)

/-- A host address that the platform maps to the register block (20_memory.md R51). A byte access there is no 32-bit register
access (R55, log 13). -/
def State.inRegisterBlock (s : State) (a : Nat) : Bool := s.meetsRegisterBlock a (a + 1)

/-- What stops a host memory access before it happens (20_memory.md R50, R55). -/
def State.memError (s : State) (a : Nat) : Option Result :=
  if s.hostHas a then
    if s.inRegisterBlock a then some (.refused .badRegisterAccess) else none
  else some (.fault .noSuchHostAddress)

/-- The old or the new byte, as a choice says. -/
def chooseByte (isNew : Bool) (old new : Memory) (a : Nat) : Byte :=
  if isNew then new.read a else old.read a

/-- A host read of one byte. While BUSY = 1 a byte of the command's ranges reads as its old or its new value, by a free choice
(20_memory.md R62, log 10). -/
def readMem (a : Nat) (s : State) : Result :=
  if s.status.busy && s.inCommandRange a then
    .next
      { s with
        mdata := chooseByte (Config.busyReadIsNew s.freeCount) s.oldMem (finishCommand s).mem a
        freeCount := s.freeCount + 1 }
  else .next { s with mdata := s.mem.read a }

/-- A host write of one byte. While BUSY = 1 a write to the command's ranges is a fault of the host (70_reset_and_hazards.md
R188, log 12). -/
def writeMem (a : Nat) (v : Byte) (s : State) : Result :=
  if s.status.busy && s.inCommandRange a then .fault .hostWriteDuringBusy
  else .next { s with mem := s.mem.write a v }

/-- The host's move. -/
def hostStep (access : HostAccess) (s : State) : Result :=
  match access with
  | .regRead width offset => (accessError width offset).getD (.next (readReg offset s))
  | .regWrite width offset v => (accessError width offset).getD (writeReg offset v s)
  | .memRead a => (s.memError a).getD (readMem a s)
  | .memWrite a v => (s.memError a).getD (writeMem a v s)

/-- Host memory after a reset in the middle of a command: each byte of the command's ranges is its old or its new value, by a
free choice of its own; every other byte is as it was (70_reset_and_hazards.md R184, log 11). -/
def mixMemory (s : State) (new : Memory) : Memory :=
  (s.mem ++ s.oldMem ++ new).foldl
    (fun m c =>
      if s.inCommandRange c.1 then
        m.write c.1 (chooseByte (Config.resetLeavesNew s.freeCount c.1) s.oldMem new c.1)
      else m)
    s.mem

/-- Everything at its reset value but the parameters, host memory and the host's own side (70_reset_and_hazards.md R180). -/
def resetBlock (mem : Memory) (s : State) : State :=
  { State.resetWith s.cfg mem with
    agenda := s.agenda, rdata := s.rdata, mdata := s.mdata, freeCount := s.freeCount }

/-- The platform asserts reset (70_reset_and_hazards.md R180, R184). -/
def resetStep (s : State) : Result :=
  if s.status.busy then
    .next { resetBlock (mixMemory s (finishCommand s).mem) s with freeCount := s.freeCount + 1 }
  else .next (resetBlock s.mem s)

end Sys2Proof.Machine
end

