-- ==== Sys2Proof/Machine/Place.lean ====
section
/-! DEFINITION. Placing an instruction where the next step takes it from. -/

namespace Sys2Proof.Machine

/-- A state in which a command is running, in a given stage, with the engine to move. -/
def runningIn (phase : Phase) (s : State) : State :=
  { s with phase := phase, status := { s.status with busy := true }, agenda := [] }

/-- The instruction with these bytes in this source, placed where the very next step runs it: in the stream, the frame or the
payload of a running command, or as the host's next register write (log 8). -/
def placeInstr (source : Source) (bytes : List Byte) (s : State) : State :=
  match source with
  | .payload =>
    { runningIn .lzss s with
      mem := s.mem.writeList s.lSrc.toNat bytes, lStorage := 1, p := 0, din := [], fbit := 8 }
  | .flagByte => { runningIn .lzss s with lStorage := 1, p := 0, din := bytes, fbit := 8 }
  | .token literal =>
    { runningIn .lzss s with
      lStorage := BitVec.ofNat 32 bytes.length, p := 0, din := bytes, fbit := 0
      flags := if literal then 1 else 0 }
  | .delta => { runningIn .interpret s with ds := bytes, ip := 0, cause := .none }
  | .chunkType => { runningIn .frame s with lType := bytes.getD 0 0 }
  | .pixel =>
    { runningIn .convert s with
      fb := s.fb.writeList 0 bytes, freeFrame := none, fbLen := bytes.length, pix := 0, lWidth := 1, lHeight := 1 }
  | .ctrlWrite => { s with agenda := [.host (.regWrite 4 0x00 (le32At bytes))] }
  | .statusWrite => { s with agenda := [.host (.regWrite 4 0x04 (le32At bytes))] }

end Sys2Proof.Machine
end

