-- ==== Sys2Proof/Machine/Step.lean ====
section
/-! DEFINITION. One step of the machine: the next move of the agenda. -/

namespace Sys2Proof.Machine

/-- One move: the agenda's next, or the engine's when the agenda is empty (10_state.md R18, log 7). -/
def step (s : State) : Host.Outcome State Fault Refusal :=
  match s.agenda with
  | [] => engineStep s
  | .engine :: rest => engineStep { s with agenda := rest }
  | .host access :: rest => hostStep access { s with agenda := rest }
  | .reset :: rest => resetStep { s with agenda := rest }

/-- The instruction of a table word, placed where the next step takes it from (log 8). -/
def State.withFetchWord (s : State) (nbits w : Nat) : State :=
  placeInstr (tableSource nbits w) (tableBytes nbits w) s

end Sys2Proof.Machine
end

