-- ==== Sys2Proof/Safety.lean ====
section
/-! DEFINITION. What the claims mean by a good state and a safe run. -/

namespace Sys2Proof.Machine

/-- The frame FB holds, as the previous frame or as the command's own: FB_LEN is at most its size, and the bytes from FB_LEN up
to its size are 0 (10_state.md R38, 42_frame_delta.md R112, R113). -/
def State.frameFits (s : State) (size : Nat) : Prop :=
  s.fbLen ≤ size ∧ ∀ a, s.fbLen ≤ a → a < size → s.fb.read a = 0

/-- FB still holds the previous frame: no command is running, or one has not yet selected its reference. -/
def Phase.beforeRef : Phase → Bool
  | .idle => true
  | .refSelect => true
  | _ => false

/-- INTERPRET is about to begin or at work (42_frame_delta.md R114). -/
def Phase.interpreting : Phase → Bool
  | .interpretInit => true
  | .interpret => true
  | _ => false

/-- The LZSS stage of the running command is behind, or was skipped for a duplicate (44_command.md R143). -/
def Phase.afterInput : Phase → Bool
  | .lengthCheck => true
  | .frame => true
  | .interpretInit => true
  | .interpret => true
  | .convert => true
  | .complete => true
  | _ => false

/-- The memories are in canonical form and inside their address spaces (20_memory.md R50, R52). -/
structure MemoriesOk (s : State) : Prop where
  memWf    : s.mem.wf = true
  memIn    : s.mem.below s.cfg.hostMemSize = true
  oldMemWf : s.oldMem.wf = true
  oldMemIn : s.oldMem.below s.cfg.hostMemSize = true
  dictWf   : s.dict.wf = true
  dictIn   : s.dict.below 4096 = true
  fbWf     : s.fb.wf = true
  fbIn     : s.fb.below s.cfg.fbCap = true

/-- The counters and positions are in the ranges the spec gives them (10_state.md R33, R35, R36, R37). -/
structure CountersOk (s : State) : Prop where
  fbitLe   : s.fbit ≤ 8
  dsFits   : ∀ cap, s.cfg.dsCap = some cap → s.ds.length ≤ cap
  dsLe     : s.ds.length ≤ s.produced
  inputLe  : s.phase = .lzss → s.p + s.din.length ≤ s.inputLen
  dinLe    : s.phase = .lzss → s.din.length ≤ s.tokenLength
  ipLe     : s.phase = .interpret → s.ip ≤ s.dsLen
  pixLe    : s.phase = .convert → s.pix ≤ s.npix

/-- BUSY says that a command is running, and a running command passed CHECK_RANGES (10_state.md R22, R39, 60_exceptions.md
R164). -/
structure CommandOk (s : State) : Prop where
  busyIff  : s.status.busy = true ↔ s.phase ≠ .idle
  rangesOk : s.phase ≠ .idle → s.checkRanges = .none

/-- The frame is as 10_state.md R38 says it is, before and after the command has selected its reference; while the
operations run, all of it is valid (42_frame_delta.md R113); and only OP80_POLICY = REFUSE leaves a frame without meaning
(60_exceptions.md R179). -/
structure FrameOk (s : State) : Prop where
  prevFits : s.phase.beforeRef = true → s.prevValid = true → s.frameFits s.prevFbSize
  fits     : s.phase.beforeRef = false → s.frameFits s.fbSize
  full     : s.phase.interpreting = true → s.fbLen = s.fbSize
  meaning  : s.cfg.op80Policy = .stop → s.freeFrame = none

/-- The invariant of the machine: every step keeps it. -/
structure Inv (s : State) : Prop where
  cfgOk      : s.cfg.ok = true
  memoriesOk : MemoriesOk s
  countersOk : CountersOk s
  commandOk  : CommandOk s
  frameOk    : FrameOk s

/-- The LZSS output is at most nine times the input: of the consumed input while the stage is at work, of L_STORAGE after it
(41_lzss.md R105); and DS_OVF says that the output was more than DS_CAP (R97). -/
structure OutputBounded (s : State) : Prop where
  dsLe     : s.ds.length ≤ s.produced
  inputLe  : s.phase = .lzss → s.p ≤ s.inputLen
  soFar    : s.phase = .lzss → s.produced ≤ 9 * s.p
  atEnd    : s.phase.afterInput = true → s.produced ≤ 9 * s.inputLen
  overflow : s.status.dsOvf = true → ∃ cap, s.cfg.dsCap = some cap ∧ cap < s.produced

/-! ### Runs of a command -/

/-- The engine alone, from this state, ends the command without a fault or a refusal, within its bound (70_reset_and_hazards.md
R197). -/
def CommandEnds (s t : State) : Prop :=
  Host.Core.run Sys2Proof.core s.commandBound s = .next t ∧ t.status.busy = false

/-- `s` has just accepted a START, the engine alone moves, and `t` is where the command has ended (44_command.md R143, R148). -/
def CommandRun (s t : State) : Prop :=
  s.phase = .refSelect ∧ s.agenda = [] ∧
    ∃ k, Host.Core.run Sys2Proof.core k s = .next t ∧ t.phase = .idle

/-! ### What the stages compute, said without the machine -/

/-- The four RGBA bytes of pixel i of a frame, by numbers: 0, 0, 0, 0 for the key and for a pixel that is not whole, else the
5-bit channels times 8 and 255 (43_color.md R131..R134). -/
def rgbaOf (frame : Nat → Byte) (fbLen i : Nat) : List Byte :=
  let raw := (frame (2 * i)).toNat + 256 * (frame (2 * i + 1)).toNat
  if fbLen ≤ 2 * i + 1 then [0, 0, 0, 0]
  else if raw = 992 then [0, 0, 0, 0]
  else
    [BitVec.ofNat 8 (8 * (raw / 1024 % 32)), BitVec.ofNat 8 (8 * (raw / 32 % 32)), BitVec.ofNat 8 (8 * (raw % 32)), 255]

/-- The descrambled payload D[0..S-1] of the latched command, from host memory before any of it is written back
(40_descrambler.md R90). -/
def State.payload (s : State) : List Byte :=
  (List.range s.inputLen).map fun n => descramble (s.hostRead (s.lSrc.toNat + n)) n

/-- The byte a fresh dictionary holds at position `a` after the output `hist` (newest byte first): the latest output byte that
fell on `a`, else 0. Output byte k falls on position (0xFEE + k) mod 4096 (41_lzss.md R96, R97). -/
def dictAfter : List Byte → Nat → Byte
  | [], _ => 0
  | c :: older, a => if (0xFEE + older.length) % 4096 = a then c else dictAfter older a

/-- The output after a run of `len` bytes read from position `a` on, byte by byte (41_lzss.md R101). -/
def expandRun : Nat → List Byte → Nat → List Byte
  | 0, hist, _ => hist
  | len + 1, hist, a => expandRun len (dictAfter hist a :: hist) ((a + 1) % 4096)

/-- The LZSS output of an input, newest byte first, given the flag bits still unused and the output so far: the grammar of
30_encoding.md R70..R73, with no dictionary memory and no cursors. -/
def expand : List Byte → List Bool → List Byte → List Byte
  | [], _, hist => hist
  | f :: rest, [], hist => expand rest ((List.range 8).map f.getLsbD) hist
  | c :: rest, true :: bits, hist => expand rest bits (c :: hist)
  | [_], false :: _, hist => hist
  | b0 :: b1 :: rest, false :: bits, hist =>
    expand rest bits (expandRun (b1.toNat % 16 + 3) hist (b0.toNat + 256 * (b1.toNat / 16)))

/-- The whole LZSS output of an input, oldest byte first. -/
def lzssOutput (input : List Byte) : List Byte := (expand input [] []).reverse

/-- The bytes DS holds of an output (41_lzss.md R97). -/
def State.kept (s : State) (out : List Byte) : List Byte :=
  match s.cfg.dsCap with
  | none => out
  | some cap => out.take cap

end Sys2Proof.Machine

namespace Sys2Proof

/-- The instructions whose end does not depend on the end of their stream: all but the cut-off forms of LZ.REF, COPY and FILL,
and CVT.PAD (30_encoding.md R73, R76, 41_lzss.md R102, 42_frame_delta.md R121, 43_color.md R134). -/
def Instr.delimited : Instr → Bool
  | .descr _ => true
  | .lzFlags _ => true
  | .lzLit _ => true
  | .lzRef _ _ => true
  | .lzRefPartial _ => false
  | .copy (.full _ _ _) => true
  | .copy (.truncated _) => false
  | .fill (.full _ _ _ _) => true
  | .fill (.truncated _) => false
  | .op80 => true
  | .unknown _ => true
  | .rawFrame => true
  | .deltaInit _ => true
  | .cvtKey => true
  | .cvtPix _ _ _ _ => true
  | .cvtPad => false
  | .start _ _ => true
  | .newSeq _ => true
  | .clearStatus _ _ => true

end Sys2Proof
end

