-- ==== Sys2Proof/Certificates/Slice0/Obligations.lean ====
section
/-! DEFINITION. The statements for the provers. `OBLIGATIONS.json` lists them with the rules of spec/ they come from. Every
number on the right of an equation is written from the rule, not from the meaning it is about. -/

open Sys2Proof Sys2Proof.Machine

/-! ### Encoding and decoding -/

/-- Every well-formed instruction decodes from its encoding, and a delimited one leaves the bytes after it alone. -/
def Obligations.DecodeEncodeAgree : Prop :=
  ∀ i : Instr, i.wf = true →
    decode (sourceOf i) (encode i) = .ok (i, []) ∧
    (i.delimited = true → ∀ rest, decode (sourceOf i) (encode i ++ rest) = .ok (i, rest))

/-- What is decoded is well-formed, belongs to its source and, but for a register write's reserved bits, is all the bytes it
was decoded from. -/
def Obligations.DecodedBytesReencode : Prop :=
  ∀ (source : Source) (bytes rest : List Byte) (i : Instr),
    decode source bytes = .ok (i, rest) →
      i.wf = true ∧ sourceOf i = source ∧
      (source ≠ .ctrlWrite → source ≠ .statusWrite → encode i ++ rest = bytes)

/-- The commands of a CTRL and of a STATUS write, by the value written (30_encoding.md R87, 10_state.md R21). -/
def Obligations.RegisterWritesEncodeCommands : Prop :=
  ∀ v : Word,
    decode .ctrlWrite (leBytes v) =
      (if v.toNat % 2 = 1 then .ok (.start (v.toNat / 2 % 2 == 1) (v.toNat / 4 % 2 == 1), [])
       else if v.toNat / 2 % 2 = 1 then .ok (.newSeq (v.toNat / 4 % 2 == 1), [])
       else .error .noCommand) ∧
    decode .statusWrite (leBytes v) = .ok (.clearStatus (v.toNat / 2 % 2 == 1) (v.toNat / 4 % 2 == 1), [])

/-- What the engine fetches is always an instruction: no stream of the block is illegal to its decoder (41_lzss.md R104,
30_encoding.md R80). -/
def Obligations.EveryFetchDecodes : Prop :=
  ∀ (s : State) (source : Source) (bytes : List Byte), fetch s = some (source, bytes) →
    ∃ i rest, decode source bytes = .ok (i, rest) ∧ i.wf = true

/-- How the operands of a frame-delta operation stand in the stream, byte by byte, and when it is cut off (30_encoding.md R75,
R76, R78, R80, 42_frame_delta.md R121). -/
def Obligations.DeltaOperationsAreRead : Prop :=
  ∀ (ds : List Byte) (ip : Nat), ip < ds.length →
    let b := fun k => ds.getD (ip + k) 0
    let copyCount := 2 * (le32 (b 5) (b 6) (b 7) (b 8)).toNat
    ∃ i rest, decode .delta (ds.drop ip) = .ok (i, rest) ∧
      (b 0 = 0x20 → ds.length < ip + 9 ∨ ds.length < ip + 9 + copyCount → i = .copy (.truncated (ds.drop (ip + 1)))) ∧
      (b 0 = 0x20 → ip + 9 + copyCount ≤ ds.length →
        ∃ data, i = .copy (.full (le32 (b 1) (b 2) (b 3) (b 4)) (le32 (b 5) (b 6) (b 7) (b 8)) data) ∧
          data.length = copyCount ∧ (∀ j, j < copyCount → data.getD j 0 = b (9 + j)) ∧
          rest = ds.drop (ip + 9 + copyCount)) ∧
      (b 0 = 0x40 → ds.length < ip + 11 → i = .fill (.truncated (ds.drop (ip + 1)))) ∧
      (b 0 = 0x40 → ip + 11 ≤ ds.length →
        i = .fill (.full (b 1) (b 2) (le32 (b 3) (b 4) (b 5) (b 6)) (le32 (b 7) (b 8) (b 9) (b 10))) ∧
          rest = ds.drop (ip + 11)) ∧
      (b 0 = 0x80 → i = .op80) ∧
      (b 0 ≠ 0x20 → b 0 ≠ 0x40 → b 0 ≠ 0x80 → i = .unknown (b 0))

/-- A few words of the spec, written out from its encodings, decode to what they stand for (30_encoding.md R71, R75, R76,
R80, R83, R87, with the examples of 42_frame_delta.md R117, R118). -/
def Obligations.SpecWordsDecode : Prop :=
  decode .payload [0x05] = .ok (.descr 0x05, []) ∧
  decode .flagByte [0xAF] = .ok (.lzFlags 0xAF, []) ∧
  decode (.token true) [0x41] = .ok (.lzLit 0x41, []) ∧
  decode (.token false) [0xF1, 0xF0] = .ok (.lzRef 0xFF1 0, []) ∧
  decode (.token false) [0xF1] = .ok (.lzRefPartial 0xF1, []) ∧
  decode .delta [0x20, 1, 0, 0, 0, 1, 0, 0, 0, 0x1F, 0x00] = .ok (.copy (.full 1 1 [0x1F, 0x00]), []) ∧
  decode .delta [0x40, 0xE0, 0x03, 0, 0, 0, 0, 2, 0, 0, 0] = .ok (.fill (.full 0xE0 0x03 0 2), []) ∧
  decode .delta [0x80, 0x05] = .ok (.op80, [0x05]) ∧
  decode .delta [0x07] = .ok (.unknown 0x07, []) ∧
  decode .chunkType [0] = .ok (.rawFrame, []) ∧
  decode .chunkType [2] = .ok (.deltaInit 2, []) ∧
  decode .pixel [0xE0, 0x03] = .ok (.cvtKey, []) ∧
  decode .pixel [0x1F, 0x00] = .ok (.cvtPix 0 0 0 31, []) ∧
  decode .ctrlWrite [0x05, 0, 0, 0] = .ok (.start false true, []) ∧
  decode .ctrlWrite [0x06, 0, 0, 0] = .ok (.newSeq true, []) ∧
  decode .statusWrite [0x02, 0, 0, 0] = .ok (.clearStatus true false, [])

/-! ### The step -/

/-- A step runs the instruction that its bytes stand for: the engine's fetched bytes, with the agenda empty or naming the
engine, and the four bytes of a CTRL or STATUS write of the host. An idle engine does nothing, and all state survives
(60_exceptions.md R178). The agenda is the model's (log 7). -/
def Obligations.StepRunsDecodedInstruction : Prop :=
  ∀ (s : State) (i : Instr) (rest : List Byte) (moves : List Turn),
    (∀ source bytes, fetch s = some (source, bytes) → decode source bytes = .ok (i, rest) →
      (s.agenda = [] → step s = exec i s) ∧
      (s.agenda = .engine :: moves → step s = exec i { s with agenda := moves })) ∧
    (∀ v, s.agenda = .host (.regWrite 4 0x00 v) :: moves → decode .ctrlWrite (leBytes v) = .ok (i, rest) →
      step s = exec i { s with agenda := moves }) ∧
    (∀ v, s.agenda = .host (.regWrite 4 0x04 v) :: moves → decode .statusWrite (leBytes v) = .ok (i, rest) →
      step s = exec i { s with agenda := moves }) ∧
    (s.phase = .idle →
      (s.agenda = [] → step s = .next s) ∧ (s.agenda = .engine :: moves → step s = .next { s with agenda := moves }))

/-- The loop of the LZSS stage: which instruction is next, and when the stage ends (41_lzss.md R98, R101, R102, R103). That
a step descrambles one byte, and only when its token needs it, is the model's choice (log 6). -/
def Obligations.LzssLoopRunsNextToken : Prop :=
  ∀ s : State, s.agenda = [] → s.phase = .lzss →
    let bit := s.flags.getLsbD s.fbit
    (s.inputLen ≤ s.p → step s = .next { s with phase := .lengthCheck }) ∧
    (s.p < s.inputLen → s.fbit = 8 → ∀ f more, s.din = f :: more → step s = exec (.lzFlags f) s) ∧
    (s.p < s.inputLen → s.fbit ≠ 8 → bit = true → ∀ c more, s.din = c :: more → step s = exec (.lzLit c) s) ∧
    (s.p + 1 = s.inputLen → s.fbit ≠ 8 → bit = false → ∀ b0 more, s.din = b0 :: more →
      step s = exec (.lzRefPartial b0) s) ∧
    (s.p + 1 < s.inputLen → s.fbit ≠ 8 → bit = false → ∀ b0 b1 more, s.din = b0 :: b1 :: more →
      ∃ off lenCode, off.toNat = b0.toNat + 256 * (b1.toNat / 16) ∧ lenCode.toNat = b1.toNat % 16 ∧
        step s = exec (.lzRef off lenCode) s) ∧
    (s.p < s.inputLen →
      (s.din = [] ∨ (s.fbit ≠ 8 ∧ bit = false ∧ s.p + 1 < s.inputLen ∧ ∃ b0, s.din = [b0])) →
      step s = exec (.descr (s.mem.read (s.lSrc.toNat + (s.p + s.din.length)))) s)

/-- The dispatch on the chunk type, and INTERPRET: its first line, its loop body, which runs the operation at IP, and
its end (42_frame_delta.md R110, R114, R123). That each is one step, that the results are already recorded here, and that the
STOP_TAG of a stop outside the stream would be 0, is the model's choice (logs 5, 17 and 26). -/
def Obligations.FrameStageSequence : Prop :=
  ∀ s : State, s.agenda = [] →
    (s.phase = .frame → s.lType = 0 → step s = exec .rawFrame s) ∧
    (s.phase = .frame → s.lType ≠ 0 → step s = exec (.deltaInit s.lType) s) ∧
    (s.phase = .interpretInit →
      step s = .next { s with ip := 0, ops := 0, cause := .none, phase := .interpret }) ∧
    (s.phase = .interpret → s.ip < s.ds.length → s.cause = .none →
      ∀ i rest, decode .delta (s.ds.drop s.ip) = .ok (i, rest) → step s = exec i s) ∧
    (s.phase = .interpret → s.dsLen ≤ s.ip ∨ s.cause ≠ .none →
      ∃ t, step s = .next t ∧
        t.stopPos.toNat = min s.ip 0xFFFFFFFF ∧ t.opsDone.toNat = min s.ops 0xFFFFFFFF ∧
        t.stopTag = (if s.cause = .none then 0 else s.ds.getD s.ip 0) ∧
        t = { s with
          stopPos := t.stopPos, opsDone := t.opsDone, stopTag := t.stopTag
          status := { s.status with stopCause := s.cause }, phase := .convert, pix := 0 })

/-! ### DESCR and the LZSS tokens -/

/-- DESCR: the descrambled byte is taken in and written back, and nothing else changes (40_descrambler.md R90, R91,
R92). `din`, where it waits for its token, is the model's (log 6). -/
def Obligations.DescrResult : Prop :=
  ∀ (s : State) (x : Byte),
    let n := s.p + s.din.length
    let y := BitVec.ofNat 8 ((x.toNat + 256 - n % 256) % 256)
    s.mem.wf = true → s.lSrc.toNat + n < s.cfg.hostMemSize →
      ∃ t, exec (.descr x) s = .next t ∧
        t.mem.read (s.lSrc.toNat + n) = y ∧ (∀ a, a ≠ s.lSrc.toNat + n → t.mem.read a = s.mem.read a) ∧
        t = { s with mem := t.mem, din := s.din ++ [y] }

/-- Descrambling undoes scrambling, and the other way round, at every position (40_descrambler.md R93). -/
def Obligations.DescrambleInverse : Prop :=
  ∀ (b : Byte) (n : Nat),
    scramble b n = BitVec.ofNat 8 (b.toNat + n % 256) ∧
    descramble (scramble b n) n = b ∧ scramble (descramble b n) n = b

/-- The model's own stop of the instructions that write host memory: an address at or above HOST_MEM_SIZE (log 21). No step of
a command reaches it, since CHECK_RANGES has passed (60_exceptions.md R164). -/
def Obligations.WritesOutsideHostMemoryFault : Prop :=
  ∀ s : State,
    (∀ x, s.cfg.hostMemSize ≤ s.lSrc.toNat + (s.p + s.din.length) → exec (.descr x) s = .fault .noSuchHostAddress) ∧
    (∀ i, (i = .cvtKey ∨ i = .cvtPad ∨ ∃ u r g b, i = .cvtPix u r g b) →
      s.cfg.hostMemSize < s.lDst.toNat + 4 * s.pix + 4 → exec i s = .fault .noSuchHostAddress)

/-- LZ.FLAGS loads the flag byte (41_lzss.md R99). -/
def Obligations.LzFlagsResult : Prop :=
  ∀ (s : State) (f : Byte),
    exec (.lzFlags f) s = .next { s with flags := f, fbit := 0, p := s.p + 1, din := s.din.drop 1 }

/-- LZ.LIT emits its byte: to the dictionary at W always, to the stream if DS has room (41_lzss.md R97, R100). -/
def Obligations.LzLitResult : Prop :=
  ∀ (s : State) (c : Byte), s.dict.wf = true →
    ∃ t, exec (.lzLit c) s = .next t ∧
      t.dict.read s.w.toNat = c ∧ (∀ a, a ≠ s.w.toNat → t.dict.read a = s.dict.read a) ∧
      t.w.toNat = (s.w.toNat + 1) % 4096 ∧
      ((∀ cap, s.cfg.dsCap = some cap → s.ds.length < cap) → t.ds = s.ds ++ [c] ∧ t.status = s.status) ∧
      (∀ cap, s.cfg.dsCap = some cap → cap ≤ s.ds.length →
        t.ds = s.ds ∧ t.status = { s.status with dsOvf := true }) ∧
      t = { s with
        p := s.p + 1, din := s.din.drop 1, fbit := s.fbit + 1, produced := s.produced + 1
        dict := t.dict, w := t.w, ds := t.ds, status := t.status }

/-- LZ.REF: the run it emits, with its overlap, and where it goes (41_lzss.md R97, R101). `behind` is how far the read cursor
starts behind the write cursor: from step `behind` on the run repeats itself. -/
def Obligations.LzRefResult : Prop :=
  ∀ (s : State) (off : DictIx) (lenCode : BitVec 4), s.dict.wf = true →
    let len := lenCode.toNat + 3
    let behind := (s.w.toNat + 4096 - off.toNat) % 4096
    ∃ t out, exec (.lzRef off lenCode) s = .next t ∧
      out.length = len ∧
      (∀ j, j < len → out.getD j 0 =
        if 1 ≤ behind ∧ behind ≤ j then out.getD (j - behind) 0 else s.dict.read ((off.toNat + j) % 4096)) ∧
      (s.cfg.dsCap = none → t.ds = s.ds ++ out ∧ t.status = s.status) ∧
      (∀ cap, s.cfg.dsCap = some cap →
        t.ds = s.ds ++ out.take (cap - s.ds.length) ∧
        t.status = { s.status with dsOvf := s.status.dsOvf || decide (cap < s.ds.length + len) }) ∧
      (∀ k, k < 4096 → t.dict.read k =
        if (k + 4096 - s.w.toNat) % 4096 < len then out.getD ((k + 4096 - s.w.toNat) % 4096) 0 else s.dict.read k) ∧
      t.w.toNat = (s.w.toNat + len) % 4096 ∧ t.r.toNat = (off.toNat + len) % 4096 ∧
      t = { s with
        p := s.p + 2, din := s.din.drop 2, fbit := s.fbit + 1, produced := s.produced + len
        dict := t.dict, w := t.w, r := t.r, ds := t.ds, status := t.status }

/-- LZ.REF_PARTIAL consumes its byte and emits nothing (41_lzss.md R102). -/
def Obligations.LzRefPartialResult : Prop :=
  ∀ (s : State) (b0 : Byte),
    exec (.lzRefPartial b0) s = .next { s with p := s.p + 1, din := s.din.drop 1 }

/-- The LZSS stage of every chunk that is no duplicate starts from the same state (41_lzss.md R96, 44_command.md R143), and no LZSS
state carries over from the chunk before (10_state.md R33). R and FLAGS take free values (the model's choice, log 25), and the
statement holds for every value of them. -/
def Obligations.LzssStageStartsFresh : Prop :=
  ∀ s : State, s.agenda = [] → s.phase = .dupTest → (s.lStorage ≠ 0 ∨ s.lOriginal ≠ 0) →
    ∃ t, step s = .next t ∧ (∀ a, t.dict.read a = 0) ∧ t.w.toNat = 0xFEE ∧
      (∀ dict w r flags fbit,
        step { s with dict := dict, w := w, r := r, flags := flags, fbit := fbit } = .next t) ∧
      t = { s with
        dict := t.dict, w := t.w, r := t.r, flags := t.flags, fbit := 8, freeCount := s.freeCount + 1
        p := 0, din := [], ds := [], produced := 0, phase := .lzss
        status := { s.status with dsOvf := false, dup := false, clipped := false } }

/-- The whole LZSS stage: from the descrambled payload, DS and PRODUCED are what the token grammar gives, with no dictionary
memory and no cursors in it (30_encoding.md R70..R73, 41_lzss.md R96..R104). -/
def Obligations.LzssStageDecodes : Prop :=
  ∀ s : State, Inv s → s.agenda = [] → s.phase = .dupTest → (s.lStorage ≠ 0 ∨ s.lOriginal ≠ 0) →
    ∃ k t, Host.Core.run Sys2Proof.core k s = .next t ∧ t.phase = .lengthCheck ∧ t.p = s.inputLen ∧
      t.produced = (lzssOutput s.payload).length ∧
      t.ds = s.kept (lzssOutput s.payload) ∧
      (t.status.dsOvf = true ↔ ∃ cap, s.cfg.dsCap = some cap ∧ cap < (lzssOutput s.payload).length)

/-! ### The frame -/

/-- RAW_FRAME: the stream becomes the frame, cut or zero-filled (42_frame_delta.md R112). `freeFrame` is the model's mark of a
frame without meaning; a type-0 chunk ends it (60_exceptions.md R179, log 15). -/
def Obligations.RawFrameResult : Prop :=
  ∀ s : State, s.fb.wf = true →
    let size := 2 * (s.lWidth.toNat * s.lHeight.toNat)
    let m := min s.ds.length size
    ∃ t, exec .rawFrame s = .next t ∧
      (∀ a, a < m → t.fb.read a = s.ds.getD a 0) ∧ (∀ a, m ≤ a → a < size → t.fb.read a = 0) ∧
      (∀ a, size ≤ a → t.fb.read a = s.fb.read a) ∧
      t = { s with
        fb := t.fb, fbLen := m, ip := 0, ops := 0, cause := .none, phase := .convert, pix := 0, freeFrame := none }

/-- DELTA_INIT: type 2 keeps the reference, every other type starts from the blank canvas (42_frame_delta.md R111, R113), and
ends the mark of a frame without meaning (60_exceptions.md R179, log 15). -/
def Obligations.DeltaInitResult : Prop :=
  ∀ (s : State) (ty : Byte), s.fb.wf = true →
    let size := 2 * (s.lWidth.toNat * s.lHeight.toNat)
    ∃ t, exec (.deltaInit ty) s = .next t ∧
      (ty = 2 → t.fb = s.fb) ∧
      (ty ≠ 2 → (∀ a, a < size → t.fb.read a = 0) ∧ ∀ a, size ≤ a → t.fb.read a = s.fb.read a) ∧
      t = { s with
        fb := t.fb, fbLen := size, phase := .interpretInit, freeFrame := if ty = 2 then s.freeFrame else none }

/-- COPY in full: its bytes inside the frame are written, every other byte of FB is as before, and CLIPPED is set exactly when
a byte was dropped (42_frame_delta.md R116, R117). -/
def Obligations.CopyResult : Prop :=
  ∀ (s : State) (dst count : Word) (data : List Byte),
    let d := 2 * dst.toNat
    let c := 2 * count.toNat
    s.fb.wf = true → data.length = c → (s.cfg.oobPolicy = .stop → d + c ≤ s.fbSize) →
      ∃ t, exec (.copy (.full dst count data)) s = .next t ∧
        (∀ j, j < c → d + j < s.fbSize → t.fb.read (d + j) = data.getD j 0) ∧
        (∀ a, (a < d ∨ d + c ≤ a ∨ s.fbSize ≤ a) → t.fb.read a = s.fb.read a) ∧
        t = { s with
          fb := t.fb, ip := s.ip + 9 + c, ops := s.ops + 1
          status := { s.status with clipped := s.status.clipped || decide (0 < c ∧ s.fbSize < d + c) } }

/-- FILL in full: the two pattern bytes alternate, the even one as FILL_ORDER says (42_frame_delta.md R116, R118). -/
def Obligations.FillResult : Prop :=
  ∀ (s : State) (p0 p1 : Byte) (dst count : Word),
    let d := 2 * dst.toNat
    let c := 2 * count.toNat
    s.fb.wf = true → (s.cfg.oobPolicy = .stop → d + c ≤ s.fbSize) →
      ∃ t, exec (.fill (.full p0 p1 dst count)) s = .next t ∧
        (∀ j, j < c → d + j < s.fbSize → t.fb.read (d + j) =
          if (j % 2 = 0 ↔ s.cfg.fillOrder = .stream) then p0 else p1) ∧
        (∀ a, (a < d ∨ d + c ≤ a ∨ s.fbSize ≤ a) → t.fb.read a = s.fb.read a) ∧
        t = { s with
          fb := t.fb, ip := s.ip + 11, ops := s.ops + 1
          status := { s.status with clipped := s.status.clipped || decide (0 < c ∧ s.fbSize < d + c) } }

/-- A cut-off operation, and under OOB_POLICY = STOP one whose destination passes the frame, sets CAUSE and changes nothing
else (42_frame_delta.md R121, R122, 60_exceptions.md R162). -/
def Obligations.CopyFillStops : Prop :=
  ∀ (s : State) (tail data : List Byte) (p0 p1 : Byte) (dst count : Word),
    exec (.copy (.truncated tail)) s = .next { s with cause := .truncatedOp } ∧
    exec (.fill (.truncated tail)) s = .next { s with cause := .truncatedOp } ∧
    (s.cfg.oobPolicy = .stop → s.fbSize < 2 * dst.toNat + 2 * count.toNat →
      exec (.copy (.full dst count data)) s = .next { s with cause := .frameOob } ∧
      exec (.fill (.full p0 p1 dst count)) s = .next { s with cause := .frameOob })

/-- OP80 and UNKNOWN stop the interpretation and write nothing (42_frame_delta.md R119, R120). Under OP80_POLICY = REFUSE OP80
ends the interpretation, with its results and its frame free (60_exceptions.md R179): that they are CAUSE, IP, OPS, CLIPPED and
the mark `freeFrame`, and that the command goes on, is the model's choice (log 15), and the statement holds for every value of
them. -/
def Obligations.TagStops : Prop :=
  ∀ (s : State) (tag : Byte),
    exec (.unknown tag) s = .next { s with cause := .unknownOp } ∧
    (s.cfg.op80Policy = .stop → exec .op80 s = .next { s with cause := .op80 }) ∧
    (s.cfg.op80Policy = .refuse → ∃ t, exec .op80 s = .next t ∧
      t.ip ≤ s.ds.length ∧ (t.cause = .none → t.ip = s.ds.length) ∧
      t = { s with
        cause := t.cause, ip := t.ip, ops := t.ops, status := { s.status with clipped := t.status.clipped }
        freeFrame := some s.freeCount, freeCount := s.freeCount + 1 })

/-- No frame-delta operation reads FB: from two frames it gives the same state but for FB, and every byte of FB is either the
same in both or left as each had it (42_frame_delta.md R124). -/
def Obligations.DeltaOperationsDoNotReadFrame : Prop :=
  ∀ (s t : State) (fb : Memory) (i : Instr),
    (∃ form, i = .copy form) ∨ (∃ form, i = .fill form) ∨ i = .op80 ∨ (∃ tag, i = .unknown tag) →
    s.fb.wf = true → fb.wf = true → exec i s = .next t →
      ∃ fb', exec i { s with fb := fb } = .next { t with fb := fb' } ∧ t.ds = s.ds ∧
        ∀ a, t.fb.read a = fb'.read a ∨ (t.fb.read a = s.fb.read a ∧ fb'.read a = fb.read a)

/-! ### The colour converter -/

/-- CVT.KEY, CVT.PIX and CVT.PAD: the four bytes of the pixel, and nothing else (43_color.md R132, R133, R134, R136). -/
def Obligations.ConverterResult : Prop :=
  ∀ (s : State) (u : BitVec 1) (r g b : BitVec 5),
    let base := s.lDst.toNat + 4 * s.pix
    s.mem.wf = true → base + 4 ≤ s.cfg.hostMemSize →
      (∃ t, exec .cvtKey s = .next t ∧ (∀ k, k < 4 → t.mem.read (base + k) = 0) ∧
        (∀ a, (a < base ∨ base + 4 ≤ a) → t.mem.read a = s.mem.read a) ∧
        t = { s with mem := t.mem, pix := s.pix + 1 }) ∧
      (∃ t, exec .cvtPad s = .next t ∧ (∀ k, k < 4 → t.mem.read (base + k) = 0) ∧
        (∀ a, (a < base ∨ base + 4 ≤ a) → t.mem.read a = s.mem.read a) ∧
        t = { s with mem := t.mem, pix := s.pix + 1 }) ∧
      (∃ t, exec (.cvtPix u r g b) s = .next t ∧
        (t.mem.read base).toNat = 8 * r.toNat ∧ (t.mem.read (base + 1)).toNat = 8 * g.toNat ∧
        (t.mem.read (base + 2)).toNat = 8 * b.toNat ∧ (t.mem.read (base + 3)).toNat = 255 ∧
        (∀ a, (a < base ∨ base + 4 ≤ a) → t.mem.read a = s.mem.read a) ∧
        t = { s with mem := t.mem, pix := s.pix + 1 })

/-- The loop of CONVERT: which pixel instruction is next, what the step writes, and the loop's end (43_color.md R131). The
frame is FB's bytes; where it has no meaning it is free, and the statement holds for every frame (60_exceptions.md R179, log
15). -/
def Obligations.PixelLoopConvertsNextPixel : Prop :=
  ∀ s : State, s.agenda = [] → s.phase = .convert →
    let raw := (s.frameByte (2 * s.pix)).toNat + 256 * (s.frameByte (2 * s.pix + 1)).toNat
    let base := s.lDst.toNat + 4 * s.pix
    (s.freeFrame = none → ∀ a, s.frameByte a = s.fb.read a) ∧
    (s.npix ≤ s.pix → step s = .next { s with phase := .complete }) ∧
    (s.pix < s.npix → s.fbLen ≤ 2 * s.pix + 1 → step s = exec .cvtPad s) ∧
    (s.pix < s.npix → 2 * s.pix + 1 < s.fbLen → raw = 992 → step s = exec .cvtKey s) ∧
    (s.pix < s.npix → 2 * s.pix + 1 < s.fbLen → raw ≠ 992 →
      ∃ u r g b, r.toNat = raw / 1024 % 32 ∧ g.toNat = raw / 32 % 32 ∧ b.toNat = raw % 32 ∧
        step s = exec (.cvtPix u r g b) s) ∧
    (s.pix < s.npix → s.mem.wf = true → base + 4 ≤ s.cfg.hostMemSize →
      ∃ t, step s = .next t ∧ t.pix = s.pix + 1 ∧
        ∀ k, k < 4 → t.mem.read (base + k) = (rgbaOf s.frameByte s.fbLen s.pix).getD k 0)

/-- Every channel written is a multiple of 8 up to 248; alpha is 0 or 255, and 0 only for all zeros (from 43_color.md R132, R133
and R134, as R137 says; the rest of R137, that the key and padding alone write alpha 0, is said by `ConverterResult`). -/
def Obligations.ChannelRange : Prop :=
  ∀ (s t : State) (i : Instr),
    (i = .cvtKey ∨ i = .cvtPad ∨ ∃ u r g b, i = .cvtPix u r g b) → s.mem.wf = true → exec i s = .next t →
      let v := fun k => (t.mem.read (s.lDst.toNat + 4 * s.pix + k)).toNat
      (∀ k, k < 3 → v k % 8 = 0 ∧ v k ≤ 248) ∧ (v 3 = 0 ∨ v 3 = 255) ∧
      (v 3 = 0 → v 0 = 0 ∧ v 1 = 0 ∧ v 2 = 0)

/-! ### Host commands -/

/-- START on an idle block whose ranges fit is accepted (44_command.md R141, 10_state.md R21, R34). `oldMem` is the model's
(log 10). -/
def Obligations.StartAccepted : Prop :=
  ∀ (s : State) (newSeq irqEn : Bool),
    let src := s.srcAddr.toNat
    let srcEnd := src + s.storageSize.toNat
    let dst := s.dstAddr.toNat
    let npix := s.width.toNat * s.height.toNat
    let dstEnd := dst + 4 * npix
    s.status.busy = false → srcEnd ≤ s.cfg.hostMemSize → dstEnd ≤ s.cfg.hostMemSize →
    (srcEnd = src ∨ dstEnd = dst ∨ dstEnd ≤ src ∨ srcEnd ≤ dst) → 2 * npix ≤ s.cfg.fbCap →
    (∀ base, s.cfg.regBase = some base →
      (srcEnd = src ∨ srcEnd ≤ base ∨ base + 0x100 ≤ src) ∧ (dstEnd = dst ∨ dstEnd ≤ base ∨ base + 0x100 ≤ dst)) →
      exec (.start newSeq irqEn) s = .next { s with
        irqEn := irqEn, prevValid := s.prevValid && !newSeq
        lWidth := s.width, lHeight := s.height, lSrc := s.srcAddr, lStorage := s.storageSize
        lOriginal := s.originalSize, lType := s.chunkType, lDst := s.dstAddr
        status := { s.status with busy := true, done := false, rejected := false, rejectCause := .none }
        phase := .refSelect, oldMem := s.mem }

/-- START on an idle block whose ranges do not fit is rejected with the first cause that applies, and changes nothing but
STATUS, the result registers that R164 clears, and what R21 says of IRQ_EN and NEW_SEQ (00_scope.md R13, 60_exceptions.md R164,
R166). That the latched copies stay as they were, against R141's pseudocode, is the model's reading (log 16). -/
def Obligations.StartRejected : Prop :=
  ∀ (s : State) (newSeq irqEn : Bool) (cause : RejectCause),
    let src := s.srcAddr.toNat
    let srcEnd := src + s.storageSize.toNat
    let dst := s.dstAddr.toNat
    let npix := s.width.toNat * s.height.toNat
    let dstEnd := dst + 4 * npix
    let srcRange := s.cfg.hostMemSize < srcEnd
    let dstRange := s.cfg.hostMemSize < dstEnd
    let overlap := 0 < s.storageSize.toNat ∧ 0 < npix ∧ src < dstEnd ∧ dst < srcEnd
    let frameSize := s.cfg.fbCap < 2 * npix
    s.status.busy = false →
    ((cause = .srcRange ∧ srcRange) ∨ (cause = .dstRange ∧ ¬srcRange ∧ dstRange) ∨
      (cause = .overlap ∧ ¬srcRange ∧ ¬dstRange ∧ overlap) ∨
      (cause = .frameSize ∧ ¬srcRange ∧ ¬dstRange ∧ ¬overlap ∧ frameSize)) →
      exec (.start newSeq irqEn) s = .next { s with
        irqEn := irqEn, prevValid := s.prevValid && !newSeq
        status := { s.status with
          rejected := true, rejectCause := cause, dup := false, blankRef := false, lenMismatch := false
          dsOvf := false, clipped := false, stopCause := .none, done := true }
        lzOutCount := 0, dsLenReg := 0, stopPos := 0, stopTag := 0, opsDone := 0 }

/-- START and NEW_SEQ while BUSY = 1 set IGNORED and IRQ_EN, and nothing else (44_command.md R142). -/
def Obligations.BusyCommandsIgnored : Prop :=
  ∀ (s : State) (newSeq irqEn : Bool), s.status.busy = true →
    exec (.start newSeq irqEn) s = .next { s with irqEn := irqEn, status := { s.status with ignored := true } } ∧
    exec (.newSeq irqEn) s = .next { s with irqEn := irqEn, status := { s.status with ignored := true } }

/-- NEW_SEQ on an idle block clears PREV_VALID and stores IRQ_EN, and nothing else (44_command.md R149). -/
def Obligations.NewSeqResult : Prop :=
  ∀ (s : State) (irqEn : Bool), s.status.busy = false →
    exec (.newSeq irqEn) s = .next { s with irqEn := irqEn, prevValid := false }

/-- CLEAR_STATUS: a host write to STATUS clears DONE and IGNORED where it writes 1, every other bit ignores it, and `irq` falls
with DONE (44_command.md R150). -/
def Obligations.ClearStatusResult : Prop :=
  ∀ (s : State) (v : Word) (moves : List Turn),
    let t := { s with
      status := { s.status with
        done := s.status.done && v.toNat / 2 % 2 == 0, ignored := s.status.ignored && v.toNat / 4 % 2 == 0 } }
    exec (.clearStatus (v.toNat / 2 % 2 == 1) (v.toNat / 4 % 2 == 1)) s = .next t ∧
    (s.agenda = .host (.regWrite 4 0x04 v) :: moves → step s = .next { t with agenda := moves }) ∧
    (v.toNat / 2 % 2 = 1 → t.irq = false)

/-- A START that CHECK_RANGES lets through but whose host ranges meet the register block is refused (20_memory.md R51, log 14). -/
def Obligations.CoveredCommandRefused : Prop :=
  ∀ (s : State) (newSeq irqEn : Bool) (base a : Nat),
    let src := s.srcAddr.toNat
    let srcEnd := src + s.storageSize.toNat
    let dst := s.dstAddr.toNat
    let npix := s.width.toNat * s.height.toNat
    let dstEnd := dst + 4 * npix
    s.status.busy = false → srcEnd ≤ s.cfg.hostMemSize → dstEnd ≤ s.cfg.hostMemSize →
    (srcEnd = src ∨ dstEnd = dst ∨ dstEnd ≤ src ∨ srcEnd ≤ dst) → 2 * npix ≤ s.cfg.fbCap →
    s.cfg.regBase = some base → base ≤ a → a < base + 0x100 → ((src ≤ a ∧ a < srcEnd) ∨ (dst ≤ a ∧ a < dstEnd)) →
      exec (.start newSeq irqEn) s = .refused .coversRegisterBlock

/-! ### The stages of a command -/

/-- REF_SELECT (44_command.md R145). The blank canvas ends the mark of a frame without meaning, and a previous frame without
meaning gives another one (60_exceptions.md R179, log 15). -/
def Obligations.RefSelectResult : Prop :=
  ∀ s : State, s.agenda = [] → s.phase = .refSelect → s.fb.wf = true →
    (s.prevValid = false ∨ s.prevFbSize ≠ s.fbSize →
      ∃ t, step s = .next t ∧ (∀ a, a < s.fbSize → t.fb.read a = 0) ∧
        (∀ a, s.fbSize ≤ a → t.fb.read a = s.fb.read a) ∧
        t = { s with
          fb := t.fb, fbLen := s.fbSize, status := { s.status with blankRef := true }, phase := .dupTest
          freeFrame := none }) ∧
    (s.prevValid = true → s.prevFbSize = s.fbSize → s.freeFrame = none →
      step s = .next { s with status := { s.status with blankRef := false }, phase := .dupTest }) ∧
    (s.prevValid = true → s.prevFbSize = s.fbSize → s.freeFrame ≠ none →
      step s = .next { s with
        status := { s.status with blankRef := false }, phase := .dupTest
        freeFrame := some s.freeCount, freeCount := s.freeCount + 1 })

/-- DUPLICATE: taken exactly on L_STORAGE = 0 and L_ORIGINAL = 0; CONVERT is next (44_command.md R143, R146). -/
def Obligations.DuplicateResult : Prop :=
  ∀ s : State, s.agenda = [] → s.phase = .dupTest → s.lStorage = 0 → s.lOriginal = 0 →
    step s = .next { s with
      status := { s.status with dup := true, lenMismatch := false, dsOvf := false, clipped := false }
      ds := [], produced := 0, ip := 0, ops := 0, cause := .none, phase := .convert, pix := 0 }

/-- LENGTH_CHECK (44_command.md R147). -/
def Obligations.LengthCheckResult : Prop :=
  ∀ s : State, s.agenda = [] → s.phase = .lengthCheck →
    ∃ t, step s = .next t ∧ (t.status.lenMismatch = true ↔ s.produced ≠ s.lOriginal.toNat) ∧
      t = { s with status := { s.status with lenMismatch := t.status.lenMismatch }, phase := .frame }

/-- COMPLETE (44_command.md R148); `oldMem` is the model's (log 10), and so is the STOP_TAG 0 of a stop outside the stream, which
no run records (log 26). FB_LEN fits its two registers in every state of the
invariant, where it is at most FB_SIZE, at most 65535 · 65535 · 2 (00_scope.md R10). -/
def Obligations.CompleteResult : Prop :=
  ∀ s : State, s.agenda = [] → s.phase = .complete → s.fbLen < 0x400000000 →
    ∃ t, step s = .next t ∧
      t.lzOutCount.toNat = min s.produced 0xFFFFFFFF ∧ t.dsLenReg.toNat = min s.ds.length 0xFFFFFFFF ∧
      t.stopPos.toNat = min s.ip 0xFFFFFFFF ∧ t.stopTag = (if s.cause = .none then 0 else s.ds.getD s.ip 0) ∧
      t.opsDone.toNat = min s.ops 0xFFFFFFFF ∧ t.fbLenLo.toNat + 0x100000000 * t.fbLenHi.toNat = s.fbLen ∧
      t = { s with
        prevValid := true, prevFbSize := s.fbSize
        lzOutCount := t.lzOutCount, dsLenReg := t.dsLenReg, stopPos := t.stopPos, stopTag := t.stopTag
        opsDone := t.opsDone, fbLenLo := t.fbLenLo, fbLenHi := t.fbLenHi
        status := { s.status with stopCause := s.cause, busy := false, done := true }
        phase := .idle, oldMem := [] }

/-! ### The register port -/

/-- A write to a configuration register stores the bits it has and changes nothing else, and reading it back gives them
(10_state.md R20, R23..R26, 20_memory.md R57). -/
def Obligations.ConfigRegistersReadBack : Prop :=
  ∀ (s : State) (offset mask : Nat) (v : Word) (moves : List Turn),
    (offset, mask) ∈ [(0x08, 0xFFFF), (0x0C, 0xFFFF), (0x10, 0xFFFFFFFF), (0x14, 0xFFFFFFFF), (0x18, 0xFFFFFFFF),
      (0x1C, 0xFF), (0x20, 0xFFFFFFFF)] →
    s.agenda = .host (.regWrite 4 offset v) :: .host (.regRead 4 offset) :: moves →
      ∃ t u, step s = .next t ∧
        t = { s with
          agenda := .host (.regRead 4 offset) :: moves
          width := if offset = 0x08 then BitVec.ofNat 16 v.toNat else s.width
          height := if offset = 0x0C then BitVec.ofNat 16 v.toNat else s.height
          srcAddr := if offset = 0x10 then v else s.srcAddr
          storageSize := if offset = 0x14 then v else s.storageSize
          originalSize := if offset = 0x18 then v else s.originalSize
          chunkType := if offset = 0x1C then BitVec.ofNat 8 v.toNat else s.chunkType
          dstAddr := if offset = 0x20 then v else s.dstAddr } ∧
        step t = .next u ∧ u = { t with agenda := moves, rdata := u.rdata } ∧ u.rdata = v &&& BitVec.ofNat 32 mask

/-- Every CTRL write stores its bit 2 in IRQ_EN, busy or not, command or not; one with bits 1:0 = 0 does nothing else, and CTRL
reads back as IRQ_EN alone (10_state.md R21). -/
def Obligations.CtrlWriteStoresIrqEn : Prop :=
  ∀ (s : State) (v : Word) (moves : List Turn), s.agenda = .host (.regWrite 4 0x00 v) :: moves →
    (v.toNat % 4 = 0 → step s = .next { s with agenda := moves, irqEn := v.getLsbD 2 }) ∧
    (∀ t, step s = .next t → t.irqEn = v.getLsbD 2 ∧ State.regWord t 0x00 = (if v.getLsbD 2 then 4 else 0))

/-- A write to a read-only or reserved register changes nothing, and a reserved register reads 0 (10_state.md R20, R31). -/
def Obligations.ReadOnlyAndReservedRegisters : Prop :=
  ∀ (s : State) (offset : Nat) (v : Word) (moves : List Turn), offset % 4 = 0 → offset < 0x100 →
    (0x24 ≤ offset → s.agenda = .host (.regWrite 4 offset v) :: moves → step s = .next { s with agenda := moves }) ∧
    (0x40 ≤ offset → s.agenda = .host (.regRead 4 offset) :: moves →
      step s = .next { s with agenda := moves, rdata := 0 })

/-- What a register read returns while BUSY = 0, for every aligned offset: CTRL, STATUS field by field, the configuration
registers, the result registers, 0 elsewhere; and that nothing changes but the data read (10_state.md R20..R31, 20_memory.md R57,
44_command.md R152, 60_exceptions.md R161, R164). -/
def Obligations.StatusReadReturnsFields : Prop :=
  ∀ (s : State) (offset : Nat) (moves : List Turn), s.agenda = .host (.regRead 4 offset) :: moves →
    offset % 4 = 0 → offset < 0x100 → s.status.busy = false →
    ∃ t, step s = .next t ∧ t = { s with agenda := moves, rdata := t.rdata } ∧
      (offset = 0x00 → t.rdata.toNat = if s.irqEn then 4 else 0) ∧
      (offset = 0x04 →
        t.rdata.getLsbD 0 = false ∧ t.rdata.getLsbD 1 = s.status.done ∧ t.rdata.getLsbD 2 = s.status.ignored ∧
        t.rdata.getLsbD 3 = s.status.rejected ∧ t.rdata.getLsbD 4 = s.status.dup ∧
        t.rdata.getLsbD 5 = s.status.blankRef ∧ t.rdata.getLsbD 6 = s.status.lenMismatch ∧
        t.rdata.getLsbD 7 = s.status.dsOvf ∧ t.rdata.getLsbD 16 = s.status.clipped ∧
        t.rdata.toNat / 0x100 % 16 =
          (match s.status.stopCause with
            | .none => 0 | .unknownOp => 1 | .op80 => 2 | .truncatedOp => 3 | .frameOob => 4) ∧
        t.rdata.toNat / 0x1000 % 16 =
          (match s.status.rejectCause with
            | .none => 0 | .srcRange => 1 | .dstRange => 2 | .overlap => 3 | .frameSize => 4) ∧
        t.rdata.toNat < 0x20000) ∧
      (offset = 0x08 → t.rdata.toNat = s.width.toNat) ∧ (offset = 0x0C → t.rdata.toNat = s.height.toNat) ∧
      (offset = 0x10 → t.rdata = s.srcAddr) ∧ (offset = 0x14 → t.rdata = s.storageSize) ∧
      (offset = 0x18 → t.rdata = s.originalSize) ∧ (offset = 0x1C → t.rdata.toNat = s.chunkType.toNat) ∧
      (offset = 0x20 → t.rdata = s.dstAddr) ∧
      (offset = 0x24 → t.rdata = s.lzOutCount) ∧ (offset = 0x28 → t.rdata = s.dsLenReg) ∧
      (offset = 0x2C → t.rdata = s.stopPos) ∧ (offset = 0x30 → t.rdata.toNat = s.stopTag.toNat) ∧
      (offset = 0x34 → t.rdata = s.opsDone) ∧ (offset = 0x38 → t.rdata = s.fbLenLo) ∧
      (offset = 0x3C → t.rdata.toNat = s.fbLenHi.toNat) ∧ (0x40 ≤ offset → t.rdata = 0)

/-- While BUSY = 1 a register read still has no effect on the block, CTRL, the configuration registers and STATUS bits 2:0 and
31:17 read as they stand, and nothing is said of the other bits: they hold for every free value (44_command.md R152, log 9). -/
def Obligations.BusyReadsKeepDefinedBits : Prop :=
  ∀ (s : State) (offset : Nat) (moves : List Turn), s.agenda = .host (.regRead 4 offset) :: moves →
    offset % 4 = 0 → offset < 0x100 → s.status.busy = true →
      ∃ t, step s = .next t ∧ t = { s with agenda := moves, rdata := t.rdata, freeCount := t.freeCount } ∧
        (offset = 0x00 → t.rdata.toNat = if s.irqEn then 4 else 0) ∧
        (offset = 0x04 → t.rdata.getLsbD 0 = true ∧ t.rdata.getLsbD 1 = s.status.done ∧
          t.rdata.getLsbD 2 = s.status.ignored ∧ t.rdata.toNat < 0x20000) ∧
        (offset = 0x08 → t.rdata.toNat = s.width.toNat) ∧ (offset = 0x0C → t.rdata.toNat = s.height.toNat) ∧
        (offset = 0x10 → t.rdata = s.srcAddr) ∧ (offset = 0x14 → t.rdata = s.storageSize) ∧
        (offset = 0x18 → t.rdata = s.originalSize) ∧ (offset = 0x1C → t.rdata.toNat = s.chunkType.toNat) ∧
        (offset = 0x20 → t.rdata = s.dstAddr) ∧ (0x40 ≤ offset → t.rdata = 0)

/-- Any register access that is not a 32-bit aligned word is refused, and there is no register past the block (20_memory.md
R55, 10_state.md R20). The fault at an offset past the block is the model's choice (log 13). -/
def Obligations.BadRegisterAccessStops : Prop :=
  ∀ (s : State) (width offset : Nat) (v : Word) (moves : List Turn),
    (s.agenda = .host (.regRead width offset) :: moves ∨ s.agenda = .host (.regWrite width offset v) :: moves) →
      (offset < 0x100 → (width ≠ 4 ∨ offset % 4 ≠ 0) → step s = .refused .badRegisterAccess) ∧
      (0x100 ≤ offset → step s = .fault .noSuchRegister)

/-- `irq` is the level DONE and IRQ_EN; it rises only by a completion, a rejection or IRQ_EN set, and falls only by a STATUS
write that clears DONE, a CTRL write that clears IRQ_EN or starts a command, or a reset (60_exceptions.md R171, R172). -/
def Obligations.InterruptLevel : Prop :=
  ∀ s t : State, step s = .next t →
    s.irq = (s.status.done && s.irqEn) ∧
    (s.irq = false → t.irq = true →
      (s.phase = .complete ∧ s.irqEn = true ∧ t.phase = .idle) ∨
      (∃ moves v, s.agenda = .host (.regWrite 4 0x00 v) :: moves ∧ v.getLsbD 2 = true ∧
        (s.status.done = true ∨
          (v.getLsbD 0 = true ∧ s.status.busy = false ∧ t.status.rejected = true)))) ∧
    (s.irq = true → t.irq = false →
      (∃ moves, s.agenda = .reset :: moves) ∨
      (∃ moves v, s.agenda = .host (.regWrite 4 0x04 v) :: moves ∧ v.getLsbD 1 = true) ∨
      (∃ moves v, s.agenda = .host (.regWrite 4 0x00 v) :: moves ∧
        (v.getLsbD 2 = false ∨ (v.getLsbD 0 = true ∧ s.status.busy = false ∧ t.status.busy = true))))

/-! ### Host memory, reset and the running command -/

/-- A host write of a byte: it faults in the running command's ranges, and elsewhere stores the byte (70_reset_and_hazards.md
R188, 20_memory.md R50). That a byte access to the register block is refused, and one at or above HOST_MEM_SIZE a fault, is the
model's choice (log 13, log 21). -/
def Obligations.HostMemoryWrites : Prop :=
  ∀ (s : State) (a : Nat) (v : Byte) (moves : List Turn), s.agenda = .host (.memWrite a v) :: moves → s.mem.wf = true →
    let inRanges := (s.lSrc.toNat ≤ a ∧ a < s.lSrc.toNat + s.lStorage.toNat) ∨
      (s.lDst.toNat ≤ a ∧ a < s.lDst.toNat + 4 * (s.lWidth.toNat * s.lHeight.toNat))
    let isRegister := ∃ base, s.cfg.regBase = some base ∧ base ≤ a ∧ a < base + 0x100
    (s.cfg.hostMemSize ≤ a → step s = .fault .noSuchHostAddress) ∧
    (a < s.cfg.hostMemSize → isRegister → step s = .refused .badRegisterAccess) ∧
    (a < s.cfg.hostMemSize → ¬isRegister → s.status.busy = true → inRanges → step s = .fault .hostWriteDuringBusy) ∧
    (a < s.cfg.hostMemSize → ¬isRegister → s.status.busy = false ∨ ¬inRanges →
      ∃ t, step s = .next t ∧ t.mem.read a = v ∧ (∀ b, b ≠ a → t.mem.read b = s.mem.read b) ∧
        t = { s with agenda := moves, mem := t.mem })

/-- A host read of a byte: the stored byte, but in the running command's ranges the byte as it stood when the command was
accepted or as it stands when the command has ended, whichever the free choice says (20_memory.md R62, log 10). That a byte
access to the register block is refused, and one at or above HOST_MEM_SIZE a fault, is the model's choice (log 13, log 21). -/
def Obligations.HostMemoryReads : Prop :=
  ∀ (s : State) (a : Nat) (moves : List Turn), s.agenda = .host (.memRead a) :: moves → Inv s →
    let isRegister := ∃ base, s.cfg.regBase = some base ∧ base ≤ a ∧ a < base + 0x100
    (s.cfg.hostMemSize ≤ a → step s = .fault .noSuchHostAddress) ∧
    (a < s.cfg.hostMemSize → isRegister → step s = .refused .badRegisterAccess) ∧
    (a < s.cfg.hostMemSize → ¬isRegister → s.status.busy = false ∨ s.inCommandRange a = false →
      step s = .next { s with agenda := moves, mdata := s.mem.read a }) ∧
    (a < s.cfg.hostMemSize → ¬isRegister → s.status.busy = true → s.inCommandRange a = true →
      ∃ t u, Host.Core.run Sys2Proof.core s.commandBound { s with agenda := [] } = .next t ∧ t.phase = .idle ∧
        step s = .next u ∧ (u.mdata = s.oldMem.read a ∨ u.mdata = t.mem.read a) ∧
        u = { s with agenda := moves, mdata := u.mdata, freeCount := s.freeCount + 1 })

/-- What reset leaves, register by register (10_state.md R41). -/
def Obligations.ResetValues : Prop :=
  (∀ offset, State.regWord State.reset offset = 0) ∧ State.reset.irq = false ∧
  State.reset.status.busy = false ∧ State.reset.status.done = false ∧ State.reset.irqEn = false ∧
  State.reset.prevValid = false ∧ State.reset.prevFbSize = 0 ∧ State.reset.fbLen = 0 ∧ State.reset.dsLen = 0 ∧
  State.reset.produced = 0 ∧ State.reset.ip = 0 ∧ State.reset.p = 0 ∧ State.reset.ops = 0 ∧
  State.reset.cause = .none ∧ State.reset.lWidth = 0 ∧ State.reset.lHeight = 0 ∧ State.reset.lSrc = 0 ∧
  State.reset.lStorage = 0 ∧ State.reset.lOriginal = 0 ∧ State.reset.lType = 0 ∧ State.reset.lDst = 0

/-- The reset event: every register and position as after reset, host memory kept but for the running command's ranges, where
each byte is its old value or the value the command would have written (70_reset_and_hazards.md R180, R184, log 11). The last
clause says more than the rules: DICT, FB, W, R, FLAGS and FBIT, which 10_state.md R42 leaves unspecified, take the model's values
of logs 4 and 23, and the host's side, `rdata` and `mdata`, is kept (logs 19, 23). -/
def Obligations.ResetEvent : Prop :=
  ∀ (s : State) (moves : List Turn), s.agenda = .reset :: moves → Inv s →
    ∃ t u, Host.Core.run Sys2Proof.core s.commandBound { s with agenda := [] } = .next t ∧ t.phase = .idle ∧
      step s = .next u ∧
      (s.status.busy = false → u.mem = s.mem) ∧
      (∀ a, s.inCommandRange a = false → u.mem.read a = s.mem.read a) ∧
      (∀ a, s.status.busy = true → s.inCommandRange a = true →
        u.mem.read a = s.oldMem.read a ∨ u.mem.read a = t.mem.read a) ∧
      u = { State.resetWith s.cfg u.mem with
        agenda := moves, rdata := s.rdata, mdata := s.mdata, freeCount := u.freeCount }

/-- BUSY is set only by a CTRL write with bit 0 = 1, and cleared only by COMPLETE or a reset (10_state.md R22, R32,
70_reset_and_hazards.md R180). -/
def Obligations.BusyChangesOnlyByCommand : Prop :=
  ∀ s t : State, step s = .next t →
    (s.status.busy = false → t.status.busy = true →
      ∃ moves v, s.agenda = .host (.regWrite 4 0x00 v) :: moves ∧ v.getLsbD 0 = true) ∧
    (s.status.busy = true → t.status.busy = false →
      (∃ moves, s.agenda = .reset :: moves) ∨ (s.phase = .complete ∧ t.phase = .idle ∧ t.status.done = true))

/-- A configuration register write, and a CTRL write that issues no command, do not disturb the running command: the engine's next
step comes out the same, with the register or IRQ_EN as written (44_command.md R151, 10_state.md R21, R34). That the second one
only stores IRQ_EN is `CtrlWriteStoresIrqEn`. -/
def Obligations.ConfigWritesDoNotDisturbCommand : Prop :=
  ∀ (s t : State) (offset : Nat) (v : Word) (irqEn : Bool), engineStep s = .next t →
    engineStep (storeReg offset v s) = .next (storeReg offset v t) ∧
    engineStep { s with irqEn := irqEn } = .next { t with irqEn := irqEn }

/-- The invariants hold right after reset, with the values of log 4 in DICT, FB and FBIT; `ResetContentsUnobserved` says that
no later command depends on them. -/
def Obligations.InvariantsAtReset : Prop := Inv State.reset ∧ OutputBounded State.reset

/-- Every step keeps the invariant. -/
def Obligations.StepKeepsInv : Prop :=
  ∀ s t : State, Inv s → step s = .next t → Inv t

/-- Every step keeps the bound on the LZSS output (41_lzss.md R105). -/
def Obligations.StepKeepsOutputBound : Prop :=
  ∀ s t : State, Inv s → OutputBounded s → step s = .next t → OutputBounded t

/-- Every accepted command completes, within a bound linear in L_STORAGE, DS_LEN and NPIX, without a fault or a refusal, under
both values of OP80_POLICY (70_reset_and_hazards.md R197, 60_exceptions.md R179). -/
def Obligations.CommandCompletes : Prop :=
  ∀ s : State, Inv s → s.agenda = [] → ∃ t, CommandEnds s t

/-- When a command has ended, the payload range holds the descrambled payload (40_descrambler.md R92). -/
def Obligations.PayloadHoldsDescrambledBytes : Prop :=
  ∀ s t : State, Inv s → CommandRun s t →
    ∀ n, n < s.inputLen → t.mem.read (s.lSrc.toNat + n) = descramble (s.mem.read (s.lSrc.toNat + n)) n

/-- When a command has ended, the RGBA range holds the conversion of the frame the block keeps (43_color.md R131, R136): of FB's
bytes under OP80_POLICY = STOP and wherever that frame has a meaning (60_exceptions.md R179, log 15). -/
def Obligations.RgbaHoldsConvertedFrame : Prop :=
  ∀ s t : State, Inv s → CommandRun s t →
    (s.cfg.op80Policy = .stop → t.freeFrame = none) ∧ (t.freeFrame = none → ∀ a, t.frameByte a = t.fb.read a) ∧
    ∀ i k, i < s.npix → k < 4 → t.mem.read (s.lDst.toNat + 4 * i + k) = (rgbaOf t.frameByte t.fbLen i).getD k 0

/-- A command changes no byte of host memory outside its payload and RGBA ranges (20_memory.md R50). -/
def Obligations.CommandTouchesOnlyItsRanges : Prop :=
  ∀ s t : State, Inv s → CommandRun s t →
    ∀ a, (a < s.lSrc.toNat ∨ s.lSrc.toNat + s.inputLen ≤ a) → (a < s.lDst.toNat ∨ s.lDst.toNat + 4 * s.npix ≤ a) →
      t.mem.read a = s.mem.read a

/-- A duplicate chunk repeats the previous frame: FB is unchanged, and the RGBA bytes are the previous frame's (44_command.md
R146). A duplicate of a frame without meaning is another frame without meaning (60_exceptions.md R179, log 15). -/
def Obligations.DuplicateRepeatsPreviousFrame : Prop :=
  ∀ s t : State, Inv s → CommandRun s t → s.lStorage = 0 → s.lOriginal = 0 → s.prevValid = true →
    s.prevFbSize = s.fbSize →
      t.fb = s.fb ∧ t.fbLen = s.fbLen ∧
      (s.freeFrame ≠ none → t.freeFrame = some s.freeCount) ∧
      (s.freeFrame = none → t.freeFrame = none ∧
        ∀ i k, i < s.npix → k < 4 → t.mem.read (s.lDst.toNat + 4 * i + k) = (rgbaOf s.fb.read s.fbLen i).getD k 0)

/-- What reset leaves open is never observed: with no previous frame, a command ends in the same memory and registers whatever
DICT, W, R, FLAGS, FBIT and FB hold when it starts (10_state.md R42). So nothing rests on the values of log 4. -/
def Obligations.ResetContentsUnobserved : Prop :=
  ∀ (s t : State) (dict fb : Memory) (w r : DictIx) (flags : Byte) (fbit : Nat),
    Inv s → CommandRun s t → s.prevValid = false →
    Inv { s with dict := dict, fb := fb, w := w, r := r, flags := flags, fbit := fbit } →
      ∃ t', CommandRun { s with dict := dict, fb := fb, w := w, r := r, flags := flags, fbit := fbit } t' ∧
        t' = { t with
          dict := t'.dict, fb := t'.fb, w := t'.w, r := t'.r, flags := t'.flags, fbit := t'.fbit } ∧
        ∀ a, a < s.fbSize → t'.fb.read a = t.fb.read a
end

