-- ==== Sys2Proof/Laws/Decode.lean ====
section
/-! SUPPORT. Bytes and fields put together and taken apart again, and what the decoder can answer for each source. -/

namespace Sys2Proof

open Sys2Proof.Machine

/-! ### Bytes and fields -/

theorem le32_byteOf (v : Word) : le32 (byteOf v 0) (byteOf v 1) (byteOf v 2) (byteOf v 3) = v := by
  apply BitVec.eq_of_getLsbD_eq
  intro i hi
  simp only [le32, byteOf, BitVec.getLsbD_append, BitVec.getLsbD_extractLsb']
  by_cases h1 : i < 8
  · simp [h1]
  · by_cases h2 : i < 16
    · simp [h1, show i - 8 < 8 by omega, show 8 + (i - 8) = i by omega]
    · by_cases h3 : i < 24
      · simp [h1, show ¬ i - 8 < 8 by omega, show i - 8 - 8 < 8 by omega, show 16 + (i - 8 - 8) = i by omega]
      · simp [h1, show ¬ i - 8 < 8 by omega, show ¬ i - 8 - 8 < 8 by omega, show i - 8 - 8 - 8 < 8 by omega,
          show 24 + (i - 8 - 8 - 8) = i by omega]

theorem le32At_leBytes (v : Word) (rest : List Byte) : le32At (leBytes v ++ rest) = v := le32_byteOf v

@[simp] theorem leBytes_length (v : Word) : (leBytes v).length = 4 := rfl

theorem byteOf_le32 (b0 b1 b2 b3 : Byte) : leBytes (le32 b0 b1 b2 b3) = [b0, b1, b2, b3] := by
  simp only [leBytes, byteOf, le32]
  refine List.cons_eq_cons.mpr ⟨?_, List.cons_eq_cons.mpr ⟨?_, List.cons_eq_cons.mpr ⟨?_,
    List.cons_eq_cons.mpr ⟨?_, rfl⟩⟩⟩⟩ <;>
    apply BitVec.eq_of_getLsbD_eq <;> intro i hi <;>
    simp only [BitVec.getLsbD_extractLsb', BitVec.getLsbD_append, hi, decide_true, Bool.true_and, Nat.mul_zero,
      Nat.zero_add]
  · simp [hi]
  · simp [show ¬ 8 * 1 + i < 8 by omega, show 8 * 1 + i - 8 = i by omega, hi]
  · simp [show ¬ 8 * 2 + i < 8 by omega, show 8 * 2 + i - 8 = 8 + i by omega, hi]
  · simp [show ¬ 8 * 3 + i < 8 by omega, show 8 * 3 + i - 8 = 16 + i by omega, show ¬ 16 + i < 8 by omega,
      show 16 + i - 8 = 8 + i by omega]

/-- Four bytes of a longer list, as a word and back. -/
theorem leBytes_le32At {bs : List Byte} (h : 4 ≤ bs.length) : leBytes (le32At bs) = bs.take 4 := by
  match bs, h with
  | b0 :: b1 :: b2 :: b3 :: rest, _ => exact byteOf_le32 b0 b1 b2 b3

theorem refOffset_encode (off : DictIx) (k : BitVec 4) :
    refOffset (off.extractLsb' 0 8) (off.extractLsb' 8 4 ++ k) = off := by
  apply BitVec.eq_of_getLsbD_eq
  intro i hi
  simp only [refOffset, BitVec.getLsbD_append, BitVec.getLsbD_extractLsb']
  by_cases h1 : i < 8
  · simp [h1]
  · simp [h1, show i - 8 < 4 by omega, show ¬ 4 + (i - 8) < 4 by omega, show 8 + (i - 8) = i by omega]

/-- The bits of an append whose width is written as one number. -/
theorem getLsbD_append_cast {n m k : Nat} (x : BitVec n) (y : BitVec m) (h : n + m = k) (i : Nat) :
    (BitVec.cast h (x ++ y)).getLsbD i = if i < m then y.getLsbD i else x.getLsbD (i - m) := by
  subst h
  rw [BitVec.cast_eq, BitVec.getLsbD_append]

theorem refLenCode_encode (hi : BitVec 4) (k : BitVec 4) : refLenCode (hi ++ k) = k := by
  apply BitVec.eq_of_getLsbD_eq
  intro i h
  have := getLsbD_append_cast hi k (rfl : 4 + 4 = 8) i
  simpa [refLenCode, h] using this

theorem encodeRef_decode (b0 b1 : Byte) : encodeRef (refOffset b0 b1) (refLenCode b1) = [b0, b1] := by
  simp only [encodeRef, refOffset, refLenCode]
  have h12 := fun i => getLsbD_append_cast (b1.extractLsb' 4 4) b0 (rfl : 4 + 8 = 12) i
  simp only [BitVec.cast_eq] at h12
  refine List.cons_eq_cons.mpr ⟨?_, List.cons_eq_cons.mpr ⟨?_, rfl⟩⟩
  · apply BitVec.eq_of_getLsbD_eq; intro i h
    rw [BitVec.getLsbD_extractLsb', h12]
    simp [h]
  · apply BitVec.eq_of_getLsbD_eq; intro i h
    have := getLsbD_append_cast (BitVec.extractLsb' 8 4 (b1.extractLsb' 4 4 ++ b0 : DictIx)) (b1.extractLsb' 0 4)
      (rfl : 4 + 4 = 8) i
    refine Eq.trans this ?_
    by_cases h1 : i < 4
    · simp [h1]
    · rw [if_neg h1, BitVec.getLsbD_extractLsb', h12]
      simp [show i - 4 < 4 by omega, show 4 + (i - 4) = i by omega]

theorem le16_encodePixel (raw : Half) : le16 (raw.extractLsb' 0 8) (raw.extractLsb' 8 8) = raw := by
  apply BitVec.eq_of_getLsbD_eq
  intro i hi
  simp only [le16, BitVec.getLsbD_append, BitVec.getLsbD_extractLsb']
  by_cases h1 : i < 8
  · simp [h1]
  · simp [h1, show i - 8 < 8 by omega, show 8 + (i - 8) = i by omega]

theorem encodePixel_le16 (b0 b1 : Byte) : encodePixel (le16 b0 b1) = [b0, b1] := by
  simp only [encodePixel, le16]
  have h16 := fun i => getLsbD_append_cast b1 b0 (rfl : 8 + 8 = 16) i
  simp only [BitVec.cast_eq] at h16
  refine List.cons_eq_cons.mpr ⟨?_, List.cons_eq_cons.mpr ⟨?_, rfl⟩⟩ <;>
    apply BitVec.eq_of_getLsbD_eq <;> intro i h <;> rw [BitVec.getLsbD_extractLsb', h16] <;> simp [h]

/-- A packed pixel is its four fields (30_encoding.md R83). -/
theorem pixelOf_fields (raw : Half) :
    pixelOf (unusedField raw) (redField raw) (greenField raw) (blueField raw) = raw := by
  apply BitVec.eq_of_getLsbD_eq
  intro i hi
  simp only [pixelOf, unusedField, redField, greenField, blueField, BitVec.getLsbD_append,
    BitVec.getLsbD_extractLsb']
  by_cases h1 : i < 5
  · simp [h1]
  · by_cases h2 : i < 10
    · simp [h1, show i - 5 < 5 by omega, show 5 + (i - 5) = i by omega]
    · by_cases h3 : i < 15
      · simp [h1, show ¬ i - 5 < 5 by omega, show i - 5 - 5 < 5 by omega, show 10 + (i - 5 - 5) = i by omega]
      · simp [show i = 15 by omega]

/-- Bit i of a packed pixel, by the field it belongs to (30_encoding.md R83). -/
theorem pixelOf_bit (u : BitVec 1) (r g b : BitVec 5) (i : Nat) :
    (pixelOf u r g b).getLsbD i =
      if i < 5 then b.getLsbD i
      else if i < 10 then g.getLsbD (i - 5)
      else if i < 15 then r.getLsbD (i - 10)
      else u.getLsbD (i - 15) := by
  refine Eq.trans (getLsbD_append_cast (u ++ r ++ g) b (rfl : 1 + 5 + 5 + 5 = 16) i) ?_
  by_cases h1 : i < 5
  · rw [if_pos h1, if_pos h1]
  · rw [if_neg h1, if_neg h1]
    refine Eq.trans (getLsbD_append_cast (u ++ r) g (rfl : 1 + 5 + 5 = 11) (i - 5)) ?_
    by_cases h4 : i < 10
    · rw [if_pos (by omega), if_pos h4]
    · rw [if_neg (by omega), if_neg h4]
      refine Eq.trans (getLsbD_append_cast u r (rfl : 1 + 5 = 6) (i - 5 - 5)) ?_
      by_cases h6 : i < 15
      · rw [if_pos (by omega), if_pos h6, show i - 5 - 5 = i - 10 by omega]
      · rw [if_neg (by omega), if_neg h6, show i - 5 - 5 - 5 = i - 15 by omega]

theorem blueField_pixelOf (u : BitVec 1) (r g b : BitVec 5) : blueField (pixelOf u r g b) = b := by
  apply BitVec.eq_of_getLsbD_eq
  intro i h
  rw [blueField, BitVec.getLsbD_extractLsb', pixelOf_bit]
  simp [h]

theorem greenField_pixelOf (u : BitVec 1) (r g b : BitVec 5) : greenField (pixelOf u r g b) = g := by
  apply BitVec.eq_of_getLsbD_eq
  intro i h
  rw [greenField, BitVec.getLsbD_extractLsb', pixelOf_bit, if_neg (by omega), if_pos (by omega)]
  simp [h]

theorem redField_pixelOf (u : BitVec 1) (r g b : BitVec 5) : redField (pixelOf u r g b) = r := by
  apply BitVec.eq_of_getLsbD_eq
  intro i h
  rw [redField, BitVec.getLsbD_extractLsb', pixelOf_bit, if_neg (by omega), if_neg (by omega), if_pos (by omega)]
  simp [h]

theorem unusedField_pixelOf (u : BitVec 1) (r g b : BitVec 5) : unusedField (pixelOf u r g b) = u := by
  apply BitVec.eq_of_getLsbD_eq
  intro i h
  rw [unusedField, BitVec.getLsbD_extractLsb', pixelOf_bit, if_neg (by omega), if_neg (by omega), if_neg (by omega)]
  simp [h]

theorem commandWord_bits (b2 b1 b0 : Bool) :
    (commandWord b2 b1 b0).getLsbD 0 = b0 ∧ (commandWord b2 b1 b0).getLsbD 1 = b1 ∧
      (commandWord b2 b1 b0).getLsbD 2 = b2 := by
  cases b0 <;> cases b1 <;> cases b2 <;> decide

/-! ### The frame-delta operations -/

/-- What a COPY can decode to (30_encoding.md R75, 42_frame_delta.md R117, R121). -/
theorem decodeCopy_cases (tail : List Byte) :
    (decodeCopy tail = (.copy (.truncated tail), []) ∧
      (tail.length < 8 ∨ tail.length < 8 + scaled (le32At (tail.drop 4)))) ∨
    ∃ d n data rest,
      decodeCopy tail = (.copy (.full d n data), rest) ∧ data.length = scaled n ∧
        tail = leBytes d ++ leBytes n ++ data ++ rest := by
  unfold decodeCopy
  by_cases h1 : tail.length < 8
  · left; rw [if_pos h1]; exact ⟨rfl, .inl h1⟩
  · rw [if_neg h1]
    simp only
    by_cases h2 : tail.length < 8 + scaled (le32At (tail.drop 4))
    · left; rw [if_pos h2]; exact ⟨rfl, .inr h2⟩
    · right
      rw [if_neg h2]
      refine ⟨_, _, _, _, rfl, ?_, ?_⟩
      · simp only [List.length_take, List.length_drop]; omega
      · rw [leBytes_le32At (by omega), leBytes_le32At (by simp; omega), List.append_assoc, List.take_append_drop]
        have : (tail.drop 4).take 4 ++ tail.drop 8 = tail.drop 4 := by
          rw [show tail.drop 8 = (tail.drop 4).drop 4 by rw [List.drop_drop]]
          exact List.take_append_drop 4 _
        rw [List.append_assoc, this, List.take_append_drop]

/-- What a FILL can decode to (30_encoding.md R76, 42_frame_delta.md R118, R121). -/
theorem decodeFill_cases (tail : List Byte) :
    (decodeFill tail = (.fill (.truncated tail), []) ∧ tail.length < 10) ∨
    ∃ p0 p1 d n rest,
      decodeFill tail = (.fill (.full p0 p1 d n), rest) ∧
        tail = p0 :: p1 :: (leBytes d ++ leBytes n) ++ rest := by
  unfold decodeFill
  by_cases h1 : tail.length < 10
  · left; rw [if_pos h1]; exact ⟨rfl, h1⟩
  · right
    rw [if_neg h1]
    match tail, h1 with
    | b0 :: b1 :: b2 :: b3 :: b4 :: b5 :: b6 :: b7 :: b8 :: b9 :: rest, _ =>
      refine ⟨_, _, _, _, _, rfl, ?_⟩
      have h2 := byteOf_le32 b2 b3 b4 b5
      have h3 := byteOf_le32 b6 b7 b8 b9
      simp only [List.drop_succ_cons, List.drop_zero, le32At, List.getD_cons_zero, List.getD_cons_succ, h2, h3]
      rfl
    | [], h | [_], h | [_, _], h | [_, _, _], h | [_, _, _, _], h | [_, _, _, _, _], h | [_, _, _, _, _, _], h
    | [_, _, _, _, _, _, _], h | [_, _, _, _, _, _, _, _], h | [_, _, _, _, _, _, _, _, _], h => simp at h

/-- The four operations by their tag (30_encoding.md R80). -/
theorem decodeDelta_cases (tag : Byte) (tail : List Byte) :
    (tag = 0x20 ∧ decodeDelta tag tail = decodeCopy tail) ∨
    (tag = 0x40 ∧ decodeDelta tag tail = decodeFill tail) ∨
    (tag = 0x80 ∧ decodeDelta tag tail = (.op80, tail)) ∨
    (unknownTag tag = true ∧ decodeDelta tag tail = (.unknown tag, tail)) := by
  unfold decodeDelta
  by_cases h1 : tag = 0x20
  · exact .inl ⟨h1, if_pos h1⟩
  · by_cases h2 : tag = 0x40
    · exact .inr (.inl ⟨h2, by rw [if_neg h1, if_pos h2]⟩)
    · by_cases h3 : tag = 0x80
      · exact .inr (.inr (.inl ⟨h3, by rw [if_neg h1, if_neg h2, if_pos h3]⟩))
      · refine .inr (.inr (.inr ⟨?_, by rw [if_neg h1, if_neg h2, if_neg h3]⟩))
        simp only [unknownTag, Bool.and_eq_true, bne_iff_ne]
        exact ⟨⟨h1, h2⟩, h3⟩

end Sys2Proof
end

