-- ==== Sys2Proof/Laws/Memory.lean ====
section
/-! SUPPORT. The laws of byte memories: read after write, the canonical form kept by every operation, and equal memories from
equal reads. -/

namespace Sys2Proof.Machine

/-! ### The canonical form -/

theorem Memory.wf_cons (a : Nat) (u : Byte) (m : Memory) :
    Memory.wf ((a, u) :: m) = true ↔ u ≠ 0 ∧ (∀ c ∈ m, a < c.1) ∧ Memory.wf m = true := by
  induction m generalizing a u with
  | nil => simp [Memory.wf]
  | cons c m ih =>
    obtain ⟨b, v⟩ := c
    rw [Memory.wf, Bool.and_eq_true, Bool.and_eq_true, ih b v]
    simp only [bne_iff_ne, ne_eq, decide_eq_true_eq, List.mem_cons, forall_eq_or_imp]
    constructor
    · rintro ⟨⟨hu, hab⟩, hv, hb, hm⟩
      exact ⟨hu, ⟨hab, fun c hc => lt_trans hab (hb c hc)⟩, hv, hb, hm⟩
    · rintro ⟨hu, ⟨hab, _⟩, hv, hb, hm⟩
      exact ⟨⟨hu, hab⟩, hv, hb, hm⟩

theorem Memory.wf_nil : Memory.wf [] = true := rfl

/-- An address below every listed one reads 0. -/
theorem Memory.read_of_lt {m : Memory} {a : Nat} (h : ∀ c ∈ m, a < c.1) : Memory.read m a = 0 := by
  induction m with
  | nil => rfl
  | cons c m ih =>
    obtain ⟨b, v⟩ := c
    have hb : a < b := h (b, v) (by simp)
    rw [Memory.read, if_neg (by omega)]
    exact ih fun c hc => h c (by simp [hc])

theorem Memory.mem_write {m : Memory} {a : Nat} {v : Byte} {c : Host.Cell} (h : c ∈ Memory.write m a v) :
    c = (a, v) ∧ v ≠ 0 ∨ c ∈ m := by
  induction m with
  | nil =>
    rw [Memory.write] at h
    split at h
    · simp at h
    · left; simp_all
  | cons d m ih =>
    obtain ⟨b, u⟩ := d
    rw [Memory.write] at h
    split at h
    · split at h
      · exact .inr h
      · rcases List.mem_cons.mp h with h | h
        · exact .inl ⟨h, by assumption⟩
        · exact .inr h
    · split at h
      · split at h
        · exact .inr (List.mem_cons_of_mem _ h)
        · rcases List.mem_cons.mp h with h | h
          · exact .inl ⟨h, by assumption⟩
          · exact .inr (List.mem_cons_of_mem _ h)
      · rcases List.mem_cons.mp h with h | h
        · exact .inr (h ▸ List.mem_cons_self ..)
        · rcases ih h with h | h
          · exact .inl h
          · exact .inr (List.mem_cons_of_mem _ h)

theorem Memory.wf_write {m : Memory} (h : Memory.wf m = true) (a : Nat) (v : Byte) :
    Memory.wf (Memory.write m a v) = true := by
  induction m with
  | nil =>
    rw [Memory.write]
    split
    · rfl
    · simp_all [Memory.wf]
  | cons d m ih =>
    obtain ⟨b, u⟩ := d
    obtain ⟨hu, hb, hm⟩ := (Memory.wf_cons b u m).mp h
    rw [Memory.write]
    split
    · rename_i hab
      split
      · exact h
      · refine (Memory.wf_cons _ _ _).mpr ⟨by assumption, ?_, h⟩
        rintro c hc
        rcases List.mem_cons.mp hc with rfl | hc
        · exact hab
        · exact lt_trans hab (hb c hc)
    · split
      · rename_i hab
        split
        · exact hm
        · exact (Memory.wf_cons _ _ _).mpr ⟨by assumption, fun c hc => hab ▸ hb c hc, hm⟩
      · refine (Memory.wf_cons _ _ _).mpr ⟨hu, fun c hc => ?_, ih hm⟩
        rcases Memory.mem_write hc with ⟨rfl, _⟩ | hc
        · show b < a; omega
        · exact hb c hc

theorem Memory.wf_writeList {m : Memory} (h : Memory.wf m = true) (a : Nat) (vs : List Byte) :
    Memory.wf (Memory.writeList m a vs) = true := by
  induction vs generalizing m a with
  | nil => exact h
  | cons v vs ih => exact ih (Memory.wf_write h a v) (a + 1)

theorem Memory.wf_filter {m : Memory} (h : Memory.wf m = true) (f : Host.Cell → Bool) :
    Memory.wf (m.filter f) = true := by
  induction m with
  | nil => rfl
  | cons d m ih =>
    obtain ⟨b, u⟩ := d
    obtain ⟨hu, hb, hm⟩ := (Memory.wf_cons b u m).mp h
    rw [List.filter_cons]
    split
    · exact (Memory.wf_cons _ _ _).mpr ⟨hu, fun c hc => hb c (List.mem_of_mem_filter hc), ih hm⟩
    · exact ih hm

theorem Memory.wf_zeroRange {m : Memory} (h : Memory.wf m = true) (lo hi : Nat) :
    Memory.wf (Memory.zeroRange m lo hi) = true := Memory.wf_filter h _

/-! ### Reads -/

@[simp] theorem Memory.read_nil (a : Nat) : Memory.read [] a = 0 := rfl

theorem Memory.read_write {m : Memory} (h : Memory.wf m = true) (a : Nat) (v : Byte) (k : Nat) :
    Memory.read (Memory.write m a v) k = if k = a then v else Memory.read m k := by
  induction m with
  | nil =>
    rw [Memory.write]
    by_cases hv : v = 0
    · rw [if_pos hv, hv]
      split <;> rfl
    · rw [if_neg hv]
      rfl
  | cons d m ih =>
    obtain ⟨b, u⟩ := d
    obtain ⟨hu, hb, hm⟩ := (Memory.wf_cons b u m).mp h
    rw [Memory.write]
    by_cases hab : a < b
    · rw [if_pos hab]
      by_cases hv : v = 0
      · rw [if_pos hv]
        by_cases hk : k = a
        · subst hk
          rw [if_pos rfl, hv, Memory.read, if_neg (by omega)]
          exact Memory.read_of_lt fun c hc => lt_trans hab (hb c hc)
        · rw [if_neg hk]
      · rw [if_neg hv]
        rfl
    · rw [if_neg hab]
      by_cases hab' : a = b
      · subst hab'
        rw [if_pos rfl]
        by_cases hv : v = 0
        · rw [if_pos hv]
          by_cases hk : k = a
          · subst hk
            rw [if_pos rfl, hv]
            exact Memory.read_of_lt hb
          · rw [if_neg hk, Memory.read, if_neg hk]
        · rw [if_neg hv, Memory.read, Memory.read]
          split <;> rfl
      · rw [if_neg hab', Memory.read, Memory.read, ih hm]
        by_cases hk : k = b
        · subst hk
          rw [if_pos rfl, if_pos rfl, if_neg (by omega)]
        · rw [if_neg hk, if_neg hk]

/-- Writing a byte leaves every other address alone, whatever the form of the memory. -/
theorem Memory.read_write_other (m : Memory) {a k : Nat} (v : Byte) (hk : k ≠ a) :
    Memory.read (Memory.write m a v) k = Memory.read m k := by
  induction m with
  | nil =>
    rw [Memory.write]
    by_cases hv : v = 0
    · rw [if_pos hv]
    · rw [if_neg hv]
      exact if_neg hk
  | cons d m ih =>
    obtain ⟨b, u⟩ := d
    rw [Memory.write]
    split
    · split
      · rfl
      · rw [Memory.read, if_neg hk]
    · split
      · rename_i hab
        split
        · rw [Memory.read, if_neg (hab ▸ hk)]
        · rw [Memory.read, Memory.read, if_neg hk, if_neg (hab ▸ hk)]
      · rw [Memory.read, Memory.read, ih]

theorem Memory.read_writeList {m : Memory} (h : Memory.wf m = true) (a : Nat) (vs : List Byte) (k : Nat) :
    Memory.read (Memory.writeList m a vs) k =
      if a ≤ k ∧ k < a + vs.length then vs.getD (k - a) 0 else Memory.read m k := by
  induction vs generalizing m a with
  | nil => simp [Memory.writeList]
  | cons v vs ih =>
    rw [Memory.writeList, ih (Memory.wf_write h a v), Memory.read_write h]
    simp only [List.length_cons]
    by_cases hk : k = a
    · subst hk
      rw [if_neg (by omega), if_pos rfl, if_pos (by omega)]
      simp
    · by_cases h1 : a + 1 ≤ k ∧ k < a + 1 + vs.length
      · rw [if_pos h1, if_pos (by omega)]
        have : k - a = (k - (a + 1)) + 1 := by omega
        rw [this, List.getD_cons_succ]
      · rw [if_neg h1, if_neg hk, if_neg (by omega)]

theorem Memory.read_zeroRange {m : Memory} (h : Memory.wf m = true) (lo hi k : Nat) :
    Memory.read (Memory.zeroRange m lo hi) k = if lo ≤ k ∧ k < hi then 0 else Memory.read m k := by
  induction m with
  | nil => simp [Memory.zeroRange]
  | cons d m ih =>
    obtain ⟨b, u⟩ := d
    obtain ⟨hu, hb, hm⟩ := (Memory.wf_cons b u m).mp h
    have ih := ih hm
    rw [Memory.zeroRange] at ih ⊢
    rw [List.filter_cons]
    by_cases hr : lo ≤ b ∧ b < hi
    · rw [if_neg (by simp [hr]), ih]
      by_cases hk : k = b
      · subst hk; rw [if_pos hr, if_pos hr]
      · rw [Memory.read, if_neg hk]
    · rw [if_pos (by simp; omega), Memory.read, Memory.read, ih]
      by_cases hk : k = b
      · subst hk; rw [if_pos rfl, if_neg hr, if_pos rfl]
      · rw [if_neg hk, if_neg hk]

/-! ### Bounds -/

theorem Memory.below_iff {m : Memory} {n : Nat} : Memory.below m n = true ↔ ∀ c ∈ m, c.1 < n := by
  simp [Memory.below]

@[simp] theorem Memory.below_nil (n : Nat) : Memory.below [] n = true := rfl

theorem Memory.below_write {m : Memory} {n : Nat} (h : Memory.below m n = true) {a : Nat} (ha : a < n) (v : Byte) :
    Memory.below (Memory.write m a v) n = true := by
  rw [Memory.below_iff] at h ⊢
  intro c hc
  rcases Memory.mem_write hc with ⟨rfl, _⟩ | hc
  · exact ha
  · exact h c hc

theorem Memory.below_writeList {m : Memory} {n : Nat} (h : Memory.below m n = true) {a : Nat} (vs : List Byte)
    (ha : a + vs.length ≤ n) : Memory.below (Memory.writeList m a vs) n = true := by
  induction vs generalizing m a with
  | nil => exact h
  | cons v vs ih =>
    rw [List.length_cons] at ha
    exact ih (Memory.below_write h (by omega) v) (by omega)

theorem Memory.below_zeroRange {m : Memory} {n : Nat} (h : Memory.below m n = true) (lo hi : Nat) :
    Memory.below (Memory.zeroRange m lo hi) n = true := by
  rw [Memory.below_iff] at h ⊢
  exact fun c hc => h c (List.mem_of_mem_filter hc)

theorem Memory.read_of_below {m : Memory} {n a : Nat} (h : Memory.below m n = true) (ha : n ≤ a) :
    Memory.read m a = 0 := by
  rw [Memory.below_iff] at h
  induction m with
  | nil => rfl
  | cons d m ih =>
    obtain ⟨b, u⟩ := d
    have hb : b < n := h (b, u) (by simp)
    rw [Memory.read, if_neg (by omega)]
    exact ih fun c hc => h c (by simp [hc])

/-- A listed byte is what its address reads as. -/
theorem Memory.read_of_mem {m : Memory} (h : Memory.wf m = true) {c : Host.Cell} (hc : c ∈ m) :
    Memory.read m c.1 = c.2 := by
  induction m with
  | nil => simp at hc
  | cons d m ih =>
    obtain ⟨b, u⟩ := d
    obtain ⟨hu, hb, hm⟩ := (Memory.wf_cons b u m).mp h
    rcases List.mem_cons.mp hc with rfl | hc
    · simp [Memory.read]
    · have := hb c hc
      rw [Memory.read, if_neg (by omega), ih hm hc]

/-- Equal memories are equal data: two memories in canonical form that read alike are the same list. -/
theorem Memory.ext_of_read {m n : Memory} (hm : Memory.wf m = true) (hn : Memory.wf n = true)
    (h : ∀ a, Memory.read m a = Memory.read n a) : m = n := by
  induction m generalizing n with
  | nil =>
    cases n with
    | nil => rfl
    | cons d n =>
      obtain ⟨b, u⟩ := d
      obtain ⟨hu, _, _⟩ := (Memory.wf_cons b u n).mp hn
      have := h b
      simp [Memory.read] at this
      exact absurd this.symm hu
  | cons d m ih =>
    obtain ⟨b, u⟩ := d
    obtain ⟨hu, hb, hm'⟩ := (Memory.wf_cons b u m).mp hm
    cases n with
    | nil =>
      have := h b
      simp [Memory.read] at this
      exact absurd this hu
    | cons e n =>
      obtain ⟨b', u'⟩ := e
      obtain ⟨hu', hb', hn'⟩ := (Memory.wf_cons b' u' n).mp hn
      have key : b = b' := by
        by_contra hne
        rcases Nat.lt_or_gt_of_ne hne with hlt | hlt
        · have h1 := h b
          rw [Memory.read, if_pos rfl, Memory.read, if_neg hne,
            Memory.read_of_lt fun c hc => lt_trans hlt (hb' c hc)] at h1
          exact hu h1
        · have h1 := h b'
          rw [Memory.read, if_neg (by omega), Memory.read, if_pos rfl,
            Memory.read_of_lt fun c hc => lt_trans hlt (hb c hc)] at h1
          exact hu' h1.symm
      subst key
      have h1 := h b
      rw [Memory.read, Memory.read, if_pos rfl, if_pos rfl] at h1
      subst h1
      congr 1
      refine ih hm' hn' fun a => ?_
      by_cases ha : a = b
      · subst ha
        rw [Memory.read_of_lt hb, Memory.read_of_lt hb']
      · have h2 := h a
        rwa [Memory.read, if_neg ha, Memory.read, if_neg ha] at h2

end Sys2Proof.Machine
end

