-- ==== Sys2Proof/Laws/State.lean ====
section
/-! SUPPORT. One lemma per field of State per update by a shared operation, so that no proof unfolds a record update. -/

namespace Sys2Proof.Machine

/-! ### emit -/

@[simp] theorem emit_cfg (c : Byte) (s : State) : (emit c s).cfg = s.cfg := rfl
@[simp] theorem emit_mem (c : Byte) (s : State) : (emit c s).mem = s.mem := rfl
@[simp] theorem emit_irqEn (c : Byte) (s : State) : (emit c s).irqEn = s.irqEn := rfl
@[simp] theorem emit_status (c : Byte) (s : State) : (emit c s).status = { s.status with dsOvf := if s.dsRoom then s.status.dsOvf else true } := rfl
@[simp] theorem emit_width (c : Byte) (s : State) : (emit c s).width = s.width := rfl
@[simp] theorem emit_height (c : Byte) (s : State) : (emit c s).height = s.height := rfl
@[simp] theorem emit_srcAddr (c : Byte) (s : State) : (emit c s).srcAddr = s.srcAddr := rfl
@[simp] theorem emit_storageSize (c : Byte) (s : State) : (emit c s).storageSize = s.storageSize := rfl
@[simp] theorem emit_originalSize (c : Byte) (s : State) : (emit c s).originalSize = s.originalSize := rfl
@[simp] theorem emit_chunkType (c : Byte) (s : State) : (emit c s).chunkType = s.chunkType := rfl
@[simp] theorem emit_dstAddr (c : Byte) (s : State) : (emit c s).dstAddr = s.dstAddr := rfl
@[simp] theorem emit_lzOutCount (c : Byte) (s : State) : (emit c s).lzOutCount = s.lzOutCount := rfl
@[simp] theorem emit_dsLenReg (c : Byte) (s : State) : (emit c s).dsLenReg = s.dsLenReg := rfl
@[simp] theorem emit_stopPos (c : Byte) (s : State) : (emit c s).stopPos = s.stopPos := rfl
@[simp] theorem emit_stopTag (c : Byte) (s : State) : (emit c s).stopTag = s.stopTag := rfl
@[simp] theorem emit_opsDone (c : Byte) (s : State) : (emit c s).opsDone = s.opsDone := rfl
@[simp] theorem emit_fbLenLo (c : Byte) (s : State) : (emit c s).fbLenLo = s.fbLenLo := rfl
@[simp] theorem emit_fbLenHi (c : Byte) (s : State) : (emit c s).fbLenHi = s.fbLenHi := rfl
@[simp] theorem emit_lWidth (c : Byte) (s : State) : (emit c s).lWidth = s.lWidth := rfl
@[simp] theorem emit_lHeight (c : Byte) (s : State) : (emit c s).lHeight = s.lHeight := rfl
@[simp] theorem emit_lSrc (c : Byte) (s : State) : (emit c s).lSrc = s.lSrc := rfl
@[simp] theorem emit_lStorage (c : Byte) (s : State) : (emit c s).lStorage = s.lStorage := rfl
@[simp] theorem emit_lOriginal (c : Byte) (s : State) : (emit c s).lOriginal = s.lOriginal := rfl
@[simp] theorem emit_lType (c : Byte) (s : State) : (emit c s).lType = s.lType := rfl
@[simp] theorem emit_lDst (c : Byte) (s : State) : (emit c s).lDst = s.lDst := rfl
@[simp] theorem emit_dict (c : Byte) (s : State) : (emit c s).dict = s.dict.write s.w.toNat c := rfl
@[simp] theorem emit_w (c : Byte) (s : State) : (emit c s).w = s.w + 1 := rfl
@[simp] theorem emit_r (c : Byte) (s : State) : (emit c s).r = s.r := rfl
@[simp] theorem emit_flags (c : Byte) (s : State) : (emit c s).flags = s.flags := rfl
@[simp] theorem emit_fbit (c : Byte) (s : State) : (emit c s).fbit = s.fbit := rfl
@[simp] theorem emit_p (c : Byte) (s : State) : (emit c s).p = s.p := rfl
@[simp] theorem emit_din (c : Byte) (s : State) : (emit c s).din = s.din := rfl
@[simp] theorem emit_ds (c : Byte) (s : State) : (emit c s).ds = if s.dsRoom then s.ds ++ [c] else s.ds := rfl
@[simp] theorem emit_produced (c : Byte) (s : State) : (emit c s).produced = s.produced + 1 := rfl
@[simp] theorem emit_ip (c : Byte) (s : State) : (emit c s).ip = s.ip := rfl
@[simp] theorem emit_ops (c : Byte) (s : State) : (emit c s).ops = s.ops := rfl
@[simp] theorem emit_cause (c : Byte) (s : State) : (emit c s).cause = s.cause := rfl
@[simp] theorem emit_fb (c : Byte) (s : State) : (emit c s).fb = s.fb := rfl
@[simp] theorem emit_fbLen (c : Byte) (s : State) : (emit c s).fbLen = s.fbLen := rfl
@[simp] theorem emit_prevValid (c : Byte) (s : State) : (emit c s).prevValid = s.prevValid := rfl
@[simp] theorem emit_prevFbSize (c : Byte) (s : State) : (emit c s).prevFbSize = s.prevFbSize := rfl
@[simp] theorem emit_phase (c : Byte) (s : State) : (emit c s).phase = s.phase := rfl
@[simp] theorem emit_pix (c : Byte) (s : State) : (emit c s).pix = s.pix := rfl
@[simp] theorem emit_oldMem (c : Byte) (s : State) : (emit c s).oldMem = s.oldMem := rfl
@[simp] theorem emit_agenda (c : Byte) (s : State) : (emit c s).agenda = s.agenda := rfl
@[simp] theorem emit_rdata (c : Byte) (s : State) : (emit c s).rdata = s.rdata := rfl
@[simp] theorem emit_mdata (c : Byte) (s : State) : (emit c s).mdata = s.mdata := rfl
@[simp] theorem emit_freeCount (c : Byte) (s : State) : (emit c s).freeCount = s.freeCount := rfl
@[simp] theorem emit_freeFrame (c : Byte) (s : State) : (emit c s).freeFrame = s.freeFrame := rfl

/-! ### consume -/

@[simp] theorem consume_cfg (k : Nat) (s : State) : (consume k s).cfg = s.cfg := rfl
@[simp] theorem consume_mem (k : Nat) (s : State) : (consume k s).mem = s.mem := rfl
@[simp] theorem consume_irqEn (k : Nat) (s : State) : (consume k s).irqEn = s.irqEn := rfl
@[simp] theorem consume_status (k : Nat) (s : State) : (consume k s).status = s.status := rfl
@[simp] theorem consume_width (k : Nat) (s : State) : (consume k s).width = s.width := rfl
@[simp] theorem consume_height (k : Nat) (s : State) : (consume k s).height = s.height := rfl
@[simp] theorem consume_srcAddr (k : Nat) (s : State) : (consume k s).srcAddr = s.srcAddr := rfl
@[simp] theorem consume_storageSize (k : Nat) (s : State) : (consume k s).storageSize = s.storageSize := rfl
@[simp] theorem consume_originalSize (k : Nat) (s : State) : (consume k s).originalSize = s.originalSize := rfl
@[simp] theorem consume_chunkType (k : Nat) (s : State) : (consume k s).chunkType = s.chunkType := rfl
@[simp] theorem consume_dstAddr (k : Nat) (s : State) : (consume k s).dstAddr = s.dstAddr := rfl
@[simp] theorem consume_lzOutCount (k : Nat) (s : State) : (consume k s).lzOutCount = s.lzOutCount := rfl
@[simp] theorem consume_dsLenReg (k : Nat) (s : State) : (consume k s).dsLenReg = s.dsLenReg := rfl
@[simp] theorem consume_stopPos (k : Nat) (s : State) : (consume k s).stopPos = s.stopPos := rfl
@[simp] theorem consume_stopTag (k : Nat) (s : State) : (consume k s).stopTag = s.stopTag := rfl
@[simp] theorem consume_opsDone (k : Nat) (s : State) : (consume k s).opsDone = s.opsDone := rfl
@[simp] theorem consume_fbLenLo (k : Nat) (s : State) : (consume k s).fbLenLo = s.fbLenLo := rfl
@[simp] theorem consume_fbLenHi (k : Nat) (s : State) : (consume k s).fbLenHi = s.fbLenHi := rfl
@[simp] theorem consume_lWidth (k : Nat) (s : State) : (consume k s).lWidth = s.lWidth := rfl
@[simp] theorem consume_lHeight (k : Nat) (s : State) : (consume k s).lHeight = s.lHeight := rfl
@[simp] theorem consume_lSrc (k : Nat) (s : State) : (consume k s).lSrc = s.lSrc := rfl
@[simp] theorem consume_lStorage (k : Nat) (s : State) : (consume k s).lStorage = s.lStorage := rfl
@[simp] theorem consume_lOriginal (k : Nat) (s : State) : (consume k s).lOriginal = s.lOriginal := rfl
@[simp] theorem consume_lType (k : Nat) (s : State) : (consume k s).lType = s.lType := rfl
@[simp] theorem consume_lDst (k : Nat) (s : State) : (consume k s).lDst = s.lDst := rfl
@[simp] theorem consume_dict (k : Nat) (s : State) : (consume k s).dict = s.dict := rfl
@[simp] theorem consume_w (k : Nat) (s : State) : (consume k s).w = s.w := rfl
@[simp] theorem consume_r (k : Nat) (s : State) : (consume k s).r = s.r := rfl
@[simp] theorem consume_flags (k : Nat) (s : State) : (consume k s).flags = s.flags := rfl
@[simp] theorem consume_fbit (k : Nat) (s : State) : (consume k s).fbit = s.fbit := rfl
@[simp] theorem consume_p (k : Nat) (s : State) : (consume k s).p = s.p + k := rfl
@[simp] theorem consume_din (k : Nat) (s : State) : (consume k s).din = s.din.drop k := rfl
@[simp] theorem consume_ds (k : Nat) (s : State) : (consume k s).ds = s.ds := rfl
@[simp] theorem consume_produced (k : Nat) (s : State) : (consume k s).produced = s.produced := rfl
@[simp] theorem consume_ip (k : Nat) (s : State) : (consume k s).ip = s.ip := rfl
@[simp] theorem consume_ops (k : Nat) (s : State) : (consume k s).ops = s.ops := rfl
@[simp] theorem consume_cause (k : Nat) (s : State) : (consume k s).cause = s.cause := rfl
@[simp] theorem consume_fb (k : Nat) (s : State) : (consume k s).fb = s.fb := rfl
@[simp] theorem consume_fbLen (k : Nat) (s : State) : (consume k s).fbLen = s.fbLen := rfl
@[simp] theorem consume_prevValid (k : Nat) (s : State) : (consume k s).prevValid = s.prevValid := rfl
@[simp] theorem consume_prevFbSize (k : Nat) (s : State) : (consume k s).prevFbSize = s.prevFbSize := rfl
@[simp] theorem consume_phase (k : Nat) (s : State) : (consume k s).phase = s.phase := rfl
@[simp] theorem consume_pix (k : Nat) (s : State) : (consume k s).pix = s.pix := rfl
@[simp] theorem consume_oldMem (k : Nat) (s : State) : (consume k s).oldMem = s.oldMem := rfl
@[simp] theorem consume_agenda (k : Nat) (s : State) : (consume k s).agenda = s.agenda := rfl
@[simp] theorem consume_rdata (k : Nat) (s : State) : (consume k s).rdata = s.rdata := rfl
@[simp] theorem consume_mdata (k : Nat) (s : State) : (consume k s).mdata = s.mdata := rfl
@[simp] theorem consume_freeCount (k : Nat) (s : State) : (consume k s).freeCount = s.freeCount := rfl
@[simp] theorem consume_freeFrame (k : Nat) (s : State) : (consume k s).freeFrame = s.freeFrame := rfl

/-! ### nextToken -/

@[simp] theorem nextToken_cfg (s : State) : (nextToken s).cfg = s.cfg := rfl
@[simp] theorem nextToken_mem (s : State) : (nextToken s).mem = s.mem := rfl
@[simp] theorem nextToken_irqEn (s : State) : (nextToken s).irqEn = s.irqEn := rfl
@[simp] theorem nextToken_status (s : State) : (nextToken s).status = s.status := rfl
@[simp] theorem nextToken_width (s : State) : (nextToken s).width = s.width := rfl
@[simp] theorem nextToken_height (s : State) : (nextToken s).height = s.height := rfl
@[simp] theorem nextToken_srcAddr (s : State) : (nextToken s).srcAddr = s.srcAddr := rfl
@[simp] theorem nextToken_storageSize (s : State) : (nextToken s).storageSize = s.storageSize := rfl
@[simp] theorem nextToken_originalSize (s : State) : (nextToken s).originalSize = s.originalSize := rfl
@[simp] theorem nextToken_chunkType (s : State) : (nextToken s).chunkType = s.chunkType := rfl
@[simp] theorem nextToken_dstAddr (s : State) : (nextToken s).dstAddr = s.dstAddr := rfl
@[simp] theorem nextToken_lzOutCount (s : State) : (nextToken s).lzOutCount = s.lzOutCount := rfl
@[simp] theorem nextToken_dsLenReg (s : State) : (nextToken s).dsLenReg = s.dsLenReg := rfl
@[simp] theorem nextToken_stopPos (s : State) : (nextToken s).stopPos = s.stopPos := rfl
@[simp] theorem nextToken_stopTag (s : State) : (nextToken s).stopTag = s.stopTag := rfl
@[simp] theorem nextToken_opsDone (s : State) : (nextToken s).opsDone = s.opsDone := rfl
@[simp] theorem nextToken_fbLenLo (s : State) : (nextToken s).fbLenLo = s.fbLenLo := rfl
@[simp] theorem nextToken_fbLenHi (s : State) : (nextToken s).fbLenHi = s.fbLenHi := rfl
@[simp] theorem nextToken_lWidth (s : State) : (nextToken s).lWidth = s.lWidth := rfl
@[simp] theorem nextToken_lHeight (s : State) : (nextToken s).lHeight = s.lHeight := rfl
@[simp] theorem nextToken_lSrc (s : State) : (nextToken s).lSrc = s.lSrc := rfl
@[simp] theorem nextToken_lStorage (s : State) : (nextToken s).lStorage = s.lStorage := rfl
@[simp] theorem nextToken_lOriginal (s : State) : (nextToken s).lOriginal = s.lOriginal := rfl
@[simp] theorem nextToken_lType (s : State) : (nextToken s).lType = s.lType := rfl
@[simp] theorem nextToken_lDst (s : State) : (nextToken s).lDst = s.lDst := rfl
@[simp] theorem nextToken_dict (s : State) : (nextToken s).dict = s.dict := rfl
@[simp] theorem nextToken_w (s : State) : (nextToken s).w = s.w := rfl
@[simp] theorem nextToken_r (s : State) : (nextToken s).r = s.r := rfl
@[simp] theorem nextToken_flags (s : State) : (nextToken s).flags = s.flags := rfl
@[simp] theorem nextToken_fbit (s : State) : (nextToken s).fbit = s.fbit + 1 := rfl
@[simp] theorem nextToken_p (s : State) : (nextToken s).p = s.p := rfl
@[simp] theorem nextToken_din (s : State) : (nextToken s).din = s.din := rfl
@[simp] theorem nextToken_ds (s : State) : (nextToken s).ds = s.ds := rfl
@[simp] theorem nextToken_produced (s : State) : (nextToken s).produced = s.produced := rfl
@[simp] theorem nextToken_ip (s : State) : (nextToken s).ip = s.ip := rfl
@[simp] theorem nextToken_ops (s : State) : (nextToken s).ops = s.ops := rfl
@[simp] theorem nextToken_cause (s : State) : (nextToken s).cause = s.cause := rfl
@[simp] theorem nextToken_fb (s : State) : (nextToken s).fb = s.fb := rfl
@[simp] theorem nextToken_fbLen (s : State) : (nextToken s).fbLen = s.fbLen := rfl
@[simp] theorem nextToken_prevValid (s : State) : (nextToken s).prevValid = s.prevValid := rfl
@[simp] theorem nextToken_prevFbSize (s : State) : (nextToken s).prevFbSize = s.prevFbSize := rfl
@[simp] theorem nextToken_phase (s : State) : (nextToken s).phase = s.phase := rfl
@[simp] theorem nextToken_pix (s : State) : (nextToken s).pix = s.pix := rfl
@[simp] theorem nextToken_oldMem (s : State) : (nextToken s).oldMem = s.oldMem := rfl
@[simp] theorem nextToken_agenda (s : State) : (nextToken s).agenda = s.agenda := rfl
@[simp] theorem nextToken_rdata (s : State) : (nextToken s).rdata = s.rdata := rfl
@[simp] theorem nextToken_mdata (s : State) : (nextToken s).mdata = s.mdata := rfl
@[simp] theorem nextToken_freeCount (s : State) : (nextToken s).freeCount = s.freeCount := rfl
@[simp] theorem nextToken_freeFrame (s : State) : (nextToken s).freeFrame = s.freeFrame := rfl

/-! ### lzssInit -/

@[simp] theorem lzssInit_cfg (s : State) : (lzssInit s).cfg = s.cfg := rfl
@[simp] theorem lzssInit_mem (s : State) : (lzssInit s).mem = s.mem := rfl
@[simp] theorem lzssInit_irqEn (s : State) : (lzssInit s).irqEn = s.irqEn := rfl
@[simp] theorem lzssInit_status (s : State) : (lzssInit s).status = { s.status with dsOvf := false } := rfl
@[simp] theorem lzssInit_width (s : State) : (lzssInit s).width = s.width := rfl
@[simp] theorem lzssInit_height (s : State) : (lzssInit s).height = s.height := rfl
@[simp] theorem lzssInit_srcAddr (s : State) : (lzssInit s).srcAddr = s.srcAddr := rfl
@[simp] theorem lzssInit_storageSize (s : State) : (lzssInit s).storageSize = s.storageSize := rfl
@[simp] theorem lzssInit_originalSize (s : State) : (lzssInit s).originalSize = s.originalSize := rfl
@[simp] theorem lzssInit_chunkType (s : State) : (lzssInit s).chunkType = s.chunkType := rfl
@[simp] theorem lzssInit_dstAddr (s : State) : (lzssInit s).dstAddr = s.dstAddr := rfl
@[simp] theorem lzssInit_lzOutCount (s : State) : (lzssInit s).lzOutCount = s.lzOutCount := rfl
@[simp] theorem lzssInit_dsLenReg (s : State) : (lzssInit s).dsLenReg = s.dsLenReg := rfl
@[simp] theorem lzssInit_stopPos (s : State) : (lzssInit s).stopPos = s.stopPos := rfl
@[simp] theorem lzssInit_stopTag (s : State) : (lzssInit s).stopTag = s.stopTag := rfl
@[simp] theorem lzssInit_opsDone (s : State) : (lzssInit s).opsDone = s.opsDone := rfl
@[simp] theorem lzssInit_fbLenLo (s : State) : (lzssInit s).fbLenLo = s.fbLenLo := rfl
@[simp] theorem lzssInit_fbLenHi (s : State) : (lzssInit s).fbLenHi = s.fbLenHi := rfl
@[simp] theorem lzssInit_lWidth (s : State) : (lzssInit s).lWidth = s.lWidth := rfl
@[simp] theorem lzssInit_lHeight (s : State) : (lzssInit s).lHeight = s.lHeight := rfl
@[simp] theorem lzssInit_lSrc (s : State) : (lzssInit s).lSrc = s.lSrc := rfl
@[simp] theorem lzssInit_lStorage (s : State) : (lzssInit s).lStorage = s.lStorage := rfl
@[simp] theorem lzssInit_lOriginal (s : State) : (lzssInit s).lOriginal = s.lOriginal := rfl
@[simp] theorem lzssInit_lType (s : State) : (lzssInit s).lType = s.lType := rfl
@[simp] theorem lzssInit_lDst (s : State) : (lzssInit s).lDst = s.lDst := rfl
@[simp] theorem lzssInit_dict (s : State) : (lzssInit s).dict = [] := rfl
@[simp] theorem lzssInit_w (s : State) : (lzssInit s).w = 0xFEE := rfl
@[simp] theorem lzssInit_r (s : State) : (lzssInit s).r = Config.initialR s.freeCount := rfl
@[simp] theorem lzssInit_flags (s : State) : (lzssInit s).flags = Config.initialFlags s.freeCount := rfl
@[simp] theorem lzssInit_fbit (s : State) : (lzssInit s).fbit = 8 := rfl
@[simp] theorem lzssInit_p (s : State) : (lzssInit s).p = 0 := rfl
@[simp] theorem lzssInit_din (s : State) : (lzssInit s).din = [] := rfl
@[simp] theorem lzssInit_ds (s : State) : (lzssInit s).ds = [] := rfl
@[simp] theorem lzssInit_produced (s : State) : (lzssInit s).produced = 0 := rfl
@[simp] theorem lzssInit_ip (s : State) : (lzssInit s).ip = s.ip := rfl
@[simp] theorem lzssInit_ops (s : State) : (lzssInit s).ops = s.ops := rfl
@[simp] theorem lzssInit_cause (s : State) : (lzssInit s).cause = s.cause := rfl
@[simp] theorem lzssInit_fb (s : State) : (lzssInit s).fb = s.fb := rfl
@[simp] theorem lzssInit_fbLen (s : State) : (lzssInit s).fbLen = s.fbLen := rfl
@[simp] theorem lzssInit_prevValid (s : State) : (lzssInit s).prevValid = s.prevValid := rfl
@[simp] theorem lzssInit_prevFbSize (s : State) : (lzssInit s).prevFbSize = s.prevFbSize := rfl
@[simp] theorem lzssInit_phase (s : State) : (lzssInit s).phase = s.phase := rfl
@[simp] theorem lzssInit_pix (s : State) : (lzssInit s).pix = s.pix := rfl
@[simp] theorem lzssInit_oldMem (s : State) : (lzssInit s).oldMem = s.oldMem := rfl
@[simp] theorem lzssInit_agenda (s : State) : (lzssInit s).agenda = s.agenda := rfl
@[simp] theorem lzssInit_rdata (s : State) : (lzssInit s).rdata = s.rdata := rfl
@[simp] theorem lzssInit_mdata (s : State) : (lzssInit s).mdata = s.mdata := rfl
@[simp] theorem lzssInit_freeCount (s : State) : (lzssInit s).freeCount = s.freeCount + 1 := rfl
@[simp] theorem lzssInit_freeFrame (s : State) : (lzssInit s).freeFrame = s.freeFrame := rfl

/-! ### finishOp -/

@[simp] theorem finishOp_cfg (len : Nat) (s : State) : (finishOp len s).cfg = s.cfg := rfl
@[simp] theorem finishOp_mem (len : Nat) (s : State) : (finishOp len s).mem = s.mem := rfl
@[simp] theorem finishOp_irqEn (len : Nat) (s : State) : (finishOp len s).irqEn = s.irqEn := rfl
@[simp] theorem finishOp_status (len : Nat) (s : State) : (finishOp len s).status = s.status := rfl
@[simp] theorem finishOp_width (len : Nat) (s : State) : (finishOp len s).width = s.width := rfl
@[simp] theorem finishOp_height (len : Nat) (s : State) : (finishOp len s).height = s.height := rfl
@[simp] theorem finishOp_srcAddr (len : Nat) (s : State) : (finishOp len s).srcAddr = s.srcAddr := rfl
@[simp] theorem finishOp_storageSize (len : Nat) (s : State) : (finishOp len s).storageSize = s.storageSize := rfl
@[simp] theorem finishOp_originalSize (len : Nat) (s : State) : (finishOp len s).originalSize = s.originalSize := rfl
@[simp] theorem finishOp_chunkType (len : Nat) (s : State) : (finishOp len s).chunkType = s.chunkType := rfl
@[simp] theorem finishOp_dstAddr (len : Nat) (s : State) : (finishOp len s).dstAddr = s.dstAddr := rfl
@[simp] theorem finishOp_lzOutCount (len : Nat) (s : State) : (finishOp len s).lzOutCount = s.lzOutCount := rfl
@[simp] theorem finishOp_dsLenReg (len : Nat) (s : State) : (finishOp len s).dsLenReg = s.dsLenReg := rfl
@[simp] theorem finishOp_stopPos (len : Nat) (s : State) : (finishOp len s).stopPos = s.stopPos := rfl
@[simp] theorem finishOp_stopTag (len : Nat) (s : State) : (finishOp len s).stopTag = s.stopTag := rfl
@[simp] theorem finishOp_opsDone (len : Nat) (s : State) : (finishOp len s).opsDone = s.opsDone := rfl
@[simp] theorem finishOp_fbLenLo (len : Nat) (s : State) : (finishOp len s).fbLenLo = s.fbLenLo := rfl
@[simp] theorem finishOp_fbLenHi (len : Nat) (s : State) : (finishOp len s).fbLenHi = s.fbLenHi := rfl
@[simp] theorem finishOp_lWidth (len : Nat) (s : State) : (finishOp len s).lWidth = s.lWidth := rfl
@[simp] theorem finishOp_lHeight (len : Nat) (s : State) : (finishOp len s).lHeight = s.lHeight := rfl
@[simp] theorem finishOp_lSrc (len : Nat) (s : State) : (finishOp len s).lSrc = s.lSrc := rfl
@[simp] theorem finishOp_lStorage (len : Nat) (s : State) : (finishOp len s).lStorage = s.lStorage := rfl
@[simp] theorem finishOp_lOriginal (len : Nat) (s : State) : (finishOp len s).lOriginal = s.lOriginal := rfl
@[simp] theorem finishOp_lType (len : Nat) (s : State) : (finishOp len s).lType = s.lType := rfl
@[simp] theorem finishOp_lDst (len : Nat) (s : State) : (finishOp len s).lDst = s.lDst := rfl
@[simp] theorem finishOp_dict (len : Nat) (s : State) : (finishOp len s).dict = s.dict := rfl
@[simp] theorem finishOp_w (len : Nat) (s : State) : (finishOp len s).w = s.w := rfl
@[simp] theorem finishOp_r (len : Nat) (s : State) : (finishOp len s).r = s.r := rfl
@[simp] theorem finishOp_flags (len : Nat) (s : State) : (finishOp len s).flags = s.flags := rfl
@[simp] theorem finishOp_fbit (len : Nat) (s : State) : (finishOp len s).fbit = s.fbit := rfl
@[simp] theorem finishOp_p (len : Nat) (s : State) : (finishOp len s).p = s.p := rfl
@[simp] theorem finishOp_din (len : Nat) (s : State) : (finishOp len s).din = s.din := rfl
@[simp] theorem finishOp_ds (len : Nat) (s : State) : (finishOp len s).ds = s.ds := rfl
@[simp] theorem finishOp_produced (len : Nat) (s : State) : (finishOp len s).produced = s.produced := rfl
@[simp] theorem finishOp_ip (len : Nat) (s : State) : (finishOp len s).ip = s.ip + len := rfl
@[simp] theorem finishOp_ops (len : Nat) (s : State) : (finishOp len s).ops = s.ops + 1 := rfl
@[simp] theorem finishOp_cause (len : Nat) (s : State) : (finishOp len s).cause = s.cause := rfl
@[simp] theorem finishOp_fb (len : Nat) (s : State) : (finishOp len s).fb = s.fb := rfl
@[simp] theorem finishOp_fbLen (len : Nat) (s : State) : (finishOp len s).fbLen = s.fbLen := rfl
@[simp] theorem finishOp_prevValid (len : Nat) (s : State) : (finishOp len s).prevValid = s.prevValid := rfl
@[simp] theorem finishOp_prevFbSize (len : Nat) (s : State) : (finishOp len s).prevFbSize = s.prevFbSize := rfl
@[simp] theorem finishOp_phase (len : Nat) (s : State) : (finishOp len s).phase = s.phase := rfl
@[simp] theorem finishOp_pix (len : Nat) (s : State) : (finishOp len s).pix = s.pix := rfl
@[simp] theorem finishOp_oldMem (len : Nat) (s : State) : (finishOp len s).oldMem = s.oldMem := rfl
@[simp] theorem finishOp_agenda (len : Nat) (s : State) : (finishOp len s).agenda = s.agenda := rfl
@[simp] theorem finishOp_rdata (len : Nat) (s : State) : (finishOp len s).rdata = s.rdata := rfl
@[simp] theorem finishOp_mdata (len : Nat) (s : State) : (finishOp len s).mdata = s.mdata := rfl
@[simp] theorem finishOp_freeCount (len : Nat) (s : State) : (finishOp len s).freeCount = s.freeCount := rfl
@[simp] theorem finishOp_freeFrame (len : Nat) (s : State) : (finishOp len s).freeFrame = s.freeFrame := rfl

/-! ### stopAt -/

@[simp] theorem stopAt_cfg (cause : StopCause) (s : State) : (stopAt cause s).cfg = s.cfg := rfl
@[simp] theorem stopAt_mem (cause : StopCause) (s : State) : (stopAt cause s).mem = s.mem := rfl
@[simp] theorem stopAt_irqEn (cause : StopCause) (s : State) : (stopAt cause s).irqEn = s.irqEn := rfl
@[simp] theorem stopAt_status (cause : StopCause) (s : State) : (stopAt cause s).status = s.status := rfl
@[simp] theorem stopAt_width (cause : StopCause) (s : State) : (stopAt cause s).width = s.width := rfl
@[simp] theorem stopAt_height (cause : StopCause) (s : State) : (stopAt cause s).height = s.height := rfl
@[simp] theorem stopAt_srcAddr (cause : StopCause) (s : State) : (stopAt cause s).srcAddr = s.srcAddr := rfl
@[simp] theorem stopAt_storageSize (cause : StopCause) (s : State) : (stopAt cause s).storageSize = s.storageSize := rfl
@[simp] theorem stopAt_originalSize (cause : StopCause) (s : State) : (stopAt cause s).originalSize = s.originalSize := rfl
@[simp] theorem stopAt_chunkType (cause : StopCause) (s : State) : (stopAt cause s).chunkType = s.chunkType := rfl
@[simp] theorem stopAt_dstAddr (cause : StopCause) (s : State) : (stopAt cause s).dstAddr = s.dstAddr := rfl
@[simp] theorem stopAt_lzOutCount (cause : StopCause) (s : State) : (stopAt cause s).lzOutCount = s.lzOutCount := rfl
@[simp] theorem stopAt_dsLenReg (cause : StopCause) (s : State) : (stopAt cause s).dsLenReg = s.dsLenReg := rfl
@[simp] theorem stopAt_stopPos (cause : StopCause) (s : State) : (stopAt cause s).stopPos = s.stopPos := rfl
@[simp] theorem stopAt_stopTag (cause : StopCause) (s : State) : (stopAt cause s).stopTag = s.stopTag := rfl
@[simp] theorem stopAt_opsDone (cause : StopCause) (s : State) : (stopAt cause s).opsDone = s.opsDone := rfl
@[simp] theorem stopAt_fbLenLo (cause : StopCause) (s : State) : (stopAt cause s).fbLenLo = s.fbLenLo := rfl
@[simp] theorem stopAt_fbLenHi (cause : StopCause) (s : State) : (stopAt cause s).fbLenHi = s.fbLenHi := rfl
@[simp] theorem stopAt_lWidth (cause : StopCause) (s : State) : (stopAt cause s).lWidth = s.lWidth := rfl
@[simp] theorem stopAt_lHeight (cause : StopCause) (s : State) : (stopAt cause s).lHeight = s.lHeight := rfl
@[simp] theorem stopAt_lSrc (cause : StopCause) (s : State) : (stopAt cause s).lSrc = s.lSrc := rfl
@[simp] theorem stopAt_lStorage (cause : StopCause) (s : State) : (stopAt cause s).lStorage = s.lStorage := rfl
@[simp] theorem stopAt_lOriginal (cause : StopCause) (s : State) : (stopAt cause s).lOriginal = s.lOriginal := rfl
@[simp] theorem stopAt_lType (cause : StopCause) (s : State) : (stopAt cause s).lType = s.lType := rfl
@[simp] theorem stopAt_lDst (cause : StopCause) (s : State) : (stopAt cause s).lDst = s.lDst := rfl
@[simp] theorem stopAt_dict (cause : StopCause) (s : State) : (stopAt cause s).dict = s.dict := rfl
@[simp] theorem stopAt_w (cause : StopCause) (s : State) : (stopAt cause s).w = s.w := rfl
@[simp] theorem stopAt_r (cause : StopCause) (s : State) : (stopAt cause s).r = s.r := rfl
@[simp] theorem stopAt_flags (cause : StopCause) (s : State) : (stopAt cause s).flags = s.flags := rfl
@[simp] theorem stopAt_fbit (cause : StopCause) (s : State) : (stopAt cause s).fbit = s.fbit := rfl
@[simp] theorem stopAt_p (cause : StopCause) (s : State) : (stopAt cause s).p = s.p := rfl
@[simp] theorem stopAt_din (cause : StopCause) (s : State) : (stopAt cause s).din = s.din := rfl
@[simp] theorem stopAt_ds (cause : StopCause) (s : State) : (stopAt cause s).ds = s.ds := rfl
@[simp] theorem stopAt_produced (cause : StopCause) (s : State) : (stopAt cause s).produced = s.produced := rfl
@[simp] theorem stopAt_ip (cause : StopCause) (s : State) : (stopAt cause s).ip = s.ip := rfl
@[simp] theorem stopAt_ops (cause : StopCause) (s : State) : (stopAt cause s).ops = s.ops := rfl
@[simp] theorem stopAt_cause (cause : StopCause) (s : State) : (stopAt cause s).cause = cause := rfl
@[simp] theorem stopAt_fb (cause : StopCause) (s : State) : (stopAt cause s).fb = s.fb := rfl
@[simp] theorem stopAt_fbLen (cause : StopCause) (s : State) : (stopAt cause s).fbLen = s.fbLen := rfl
@[simp] theorem stopAt_prevValid (cause : StopCause) (s : State) : (stopAt cause s).prevValid = s.prevValid := rfl
@[simp] theorem stopAt_prevFbSize (cause : StopCause) (s : State) : (stopAt cause s).prevFbSize = s.prevFbSize := rfl
@[simp] theorem stopAt_phase (cause : StopCause) (s : State) : (stopAt cause s).phase = s.phase := rfl
@[simp] theorem stopAt_pix (cause : StopCause) (s : State) : (stopAt cause s).pix = s.pix := rfl
@[simp] theorem stopAt_oldMem (cause : StopCause) (s : State) : (stopAt cause s).oldMem = s.oldMem := rfl
@[simp] theorem stopAt_agenda (cause : StopCause) (s : State) : (stopAt cause s).agenda = s.agenda := rfl
@[simp] theorem stopAt_rdata (cause : StopCause) (s : State) : (stopAt cause s).rdata = s.rdata := rfl
@[simp] theorem stopAt_mdata (cause : StopCause) (s : State) : (stopAt cause s).mdata = s.mdata := rfl
@[simp] theorem stopAt_freeCount (cause : StopCause) (s : State) : (stopAt cause s).freeCount = s.freeCount := rfl
@[simp] theorem stopAt_freeFrame (cause : StopCause) (s : State) : (stopAt cause s).freeFrame = s.freeFrame := rfl

/-! ### refuseCommand -/

@[simp] theorem refuseCommand_cfg (s : State) : (refuseCommand s).cfg = s.cfg := rfl
@[simp] theorem refuseCommand_mem (s : State) : (refuseCommand s).mem = s.mem := rfl
@[simp] theorem refuseCommand_irqEn (s : State) : (refuseCommand s).irqEn = s.irqEn := rfl
@[simp] theorem refuseCommand_status (s : State) : (refuseCommand s).status = { s.status with clipped := Config.refusedClipped s.freeCount } := rfl
@[simp] theorem refuseCommand_width (s : State) : (refuseCommand s).width = s.width := rfl
@[simp] theorem refuseCommand_height (s : State) : (refuseCommand s).height = s.height := rfl
@[simp] theorem refuseCommand_srcAddr (s : State) : (refuseCommand s).srcAddr = s.srcAddr := rfl
@[simp] theorem refuseCommand_storageSize (s : State) : (refuseCommand s).storageSize = s.storageSize := rfl
@[simp] theorem refuseCommand_originalSize (s : State) : (refuseCommand s).originalSize = s.originalSize := rfl
@[simp] theorem refuseCommand_chunkType (s : State) : (refuseCommand s).chunkType = s.chunkType := rfl
@[simp] theorem refuseCommand_dstAddr (s : State) : (refuseCommand s).dstAddr = s.dstAddr := rfl
@[simp] theorem refuseCommand_lzOutCount (s : State) : (refuseCommand s).lzOutCount = s.lzOutCount := rfl
@[simp] theorem refuseCommand_dsLenReg (s : State) : (refuseCommand s).dsLenReg = s.dsLenReg := rfl
@[simp] theorem refuseCommand_stopPos (s : State) : (refuseCommand s).stopPos = s.stopPos := rfl
@[simp] theorem refuseCommand_stopTag (s : State) : (refuseCommand s).stopTag = s.stopTag := rfl
@[simp] theorem refuseCommand_opsDone (s : State) : (refuseCommand s).opsDone = s.opsDone := rfl
@[simp] theorem refuseCommand_fbLenLo (s : State) : (refuseCommand s).fbLenLo = s.fbLenLo := rfl
@[simp] theorem refuseCommand_fbLenHi (s : State) : (refuseCommand s).fbLenHi = s.fbLenHi := rfl
@[simp] theorem refuseCommand_lWidth (s : State) : (refuseCommand s).lWidth = s.lWidth := rfl
@[simp] theorem refuseCommand_lHeight (s : State) : (refuseCommand s).lHeight = s.lHeight := rfl
@[simp] theorem refuseCommand_lSrc (s : State) : (refuseCommand s).lSrc = s.lSrc := rfl
@[simp] theorem refuseCommand_lStorage (s : State) : (refuseCommand s).lStorage = s.lStorage := rfl
@[simp] theorem refuseCommand_lOriginal (s : State) : (refuseCommand s).lOriginal = s.lOriginal := rfl
@[simp] theorem refuseCommand_lType (s : State) : (refuseCommand s).lType = s.lType := rfl
@[simp] theorem refuseCommand_lDst (s : State) : (refuseCommand s).lDst = s.lDst := rfl
@[simp] theorem refuseCommand_dict (s : State) : (refuseCommand s).dict = s.dict := rfl
@[simp] theorem refuseCommand_w (s : State) : (refuseCommand s).w = s.w := rfl
@[simp] theorem refuseCommand_r (s : State) : (refuseCommand s).r = s.r := rfl
@[simp] theorem refuseCommand_flags (s : State) : (refuseCommand s).flags = s.flags := rfl
@[simp] theorem refuseCommand_fbit (s : State) : (refuseCommand s).fbit = s.fbit := rfl
@[simp] theorem refuseCommand_p (s : State) : (refuseCommand s).p = s.p := rfl
@[simp] theorem refuseCommand_din (s : State) : (refuseCommand s).din = s.din := rfl
@[simp] theorem refuseCommand_ds (s : State) : (refuseCommand s).ds = s.ds := rfl
@[simp] theorem refuseCommand_produced (s : State) : (refuseCommand s).produced = s.produced := rfl
@[simp] theorem refuseCommand_ip (s : State) : (refuseCommand s).ip = if stopOfCode (Config.refusedCause s.freeCount) = .none then s.dsLen else min (Config.refusedPos s.freeCount) (s.dsLen - 1) := rfl
@[simp] theorem refuseCommand_ops (s : State) : (refuseCommand s).ops = Config.refusedOps s.freeCount := rfl
@[simp] theorem refuseCommand_cause (s : State) : (refuseCommand s).cause = stopOfCode (Config.refusedCause s.freeCount) := rfl
@[simp] theorem refuseCommand_fb (s : State) : (refuseCommand s).fb = s.fb := rfl
@[simp] theorem refuseCommand_fbLen (s : State) : (refuseCommand s).fbLen = s.fbLen := rfl
@[simp] theorem refuseCommand_prevValid (s : State) : (refuseCommand s).prevValid = s.prevValid := rfl
@[simp] theorem refuseCommand_prevFbSize (s : State) : (refuseCommand s).prevFbSize = s.prevFbSize := rfl
@[simp] theorem refuseCommand_phase (s : State) : (refuseCommand s).phase = s.phase := rfl
@[simp] theorem refuseCommand_pix (s : State) : (refuseCommand s).pix = s.pix := rfl
@[simp] theorem refuseCommand_oldMem (s : State) : (refuseCommand s).oldMem = s.oldMem := rfl
@[simp] theorem refuseCommand_agenda (s : State) : (refuseCommand s).agenda = s.agenda := rfl
@[simp] theorem refuseCommand_rdata (s : State) : (refuseCommand s).rdata = s.rdata := rfl
@[simp] theorem refuseCommand_mdata (s : State) : (refuseCommand s).mdata = s.mdata := rfl
@[simp] theorem refuseCommand_freeCount (s : State) : (refuseCommand s).freeCount = s.freeCount + 1 := rfl
@[simp] theorem refuseCommand_freeFrame (s : State) : (refuseCommand s).freeFrame = some s.freeCount := rfl

/-! ### keepReference -/

@[simp] theorem keepReference_cfg (s : State) : (keepReference s).cfg = s.cfg := rfl
@[simp] theorem keepReference_mem (s : State) : (keepReference s).mem = s.mem := rfl
@[simp] theorem keepReference_irqEn (s : State) : (keepReference s).irqEn = s.irqEn := rfl
@[simp] theorem keepReference_status (s : State) : (keepReference s).status = s.status := rfl
@[simp] theorem keepReference_width (s : State) : (keepReference s).width = s.width := rfl
@[simp] theorem keepReference_height (s : State) : (keepReference s).height = s.height := rfl
@[simp] theorem keepReference_srcAddr (s : State) : (keepReference s).srcAddr = s.srcAddr := rfl
@[simp] theorem keepReference_storageSize (s : State) : (keepReference s).storageSize = s.storageSize := rfl
@[simp] theorem keepReference_originalSize (s : State) : (keepReference s).originalSize = s.originalSize := rfl
@[simp] theorem keepReference_chunkType (s : State) : (keepReference s).chunkType = s.chunkType := rfl
@[simp] theorem keepReference_dstAddr (s : State) : (keepReference s).dstAddr = s.dstAddr := rfl
@[simp] theorem keepReference_lzOutCount (s : State) : (keepReference s).lzOutCount = s.lzOutCount := rfl
@[simp] theorem keepReference_dsLenReg (s : State) : (keepReference s).dsLenReg = s.dsLenReg := rfl
@[simp] theorem keepReference_stopPos (s : State) : (keepReference s).stopPos = s.stopPos := rfl
@[simp] theorem keepReference_stopTag (s : State) : (keepReference s).stopTag = s.stopTag := rfl
@[simp] theorem keepReference_opsDone (s : State) : (keepReference s).opsDone = s.opsDone := rfl
@[simp] theorem keepReference_fbLenLo (s : State) : (keepReference s).fbLenLo = s.fbLenLo := rfl
@[simp] theorem keepReference_fbLenHi (s : State) : (keepReference s).fbLenHi = s.fbLenHi := rfl
@[simp] theorem keepReference_lWidth (s : State) : (keepReference s).lWidth = s.lWidth := rfl
@[simp] theorem keepReference_lHeight (s : State) : (keepReference s).lHeight = s.lHeight := rfl
@[simp] theorem keepReference_lSrc (s : State) : (keepReference s).lSrc = s.lSrc := rfl
@[simp] theorem keepReference_lStorage (s : State) : (keepReference s).lStorage = s.lStorage := rfl
@[simp] theorem keepReference_lOriginal (s : State) : (keepReference s).lOriginal = s.lOriginal := rfl
@[simp] theorem keepReference_lType (s : State) : (keepReference s).lType = s.lType := rfl
@[simp] theorem keepReference_lDst (s : State) : (keepReference s).lDst = s.lDst := rfl
@[simp] theorem keepReference_dict (s : State) : (keepReference s).dict = s.dict := rfl
@[simp] theorem keepReference_w (s : State) : (keepReference s).w = s.w := rfl
@[simp] theorem keepReference_r (s : State) : (keepReference s).r = s.r := rfl
@[simp] theorem keepReference_flags (s : State) : (keepReference s).flags = s.flags := rfl
@[simp] theorem keepReference_fbit (s : State) : (keepReference s).fbit = s.fbit := rfl
@[simp] theorem keepReference_p (s : State) : (keepReference s).p = s.p := rfl
@[simp] theorem keepReference_din (s : State) : (keepReference s).din = s.din := rfl
@[simp] theorem keepReference_ds (s : State) : (keepReference s).ds = s.ds := rfl
@[simp] theorem keepReference_produced (s : State) : (keepReference s).produced = s.produced := rfl
@[simp] theorem keepReference_ip (s : State) : (keepReference s).ip = s.ip := rfl
@[simp] theorem keepReference_ops (s : State) : (keepReference s).ops = s.ops := rfl
@[simp] theorem keepReference_cause (s : State) : (keepReference s).cause = s.cause := rfl
@[simp] theorem keepReference_fb (s : State) : (keepReference s).fb = s.fb := rfl
@[simp] theorem keepReference_fbLen (s : State) : (keepReference s).fbLen = s.fbLen := rfl
@[simp] theorem keepReference_prevValid (s : State) : (keepReference s).prevValid = s.prevValid := rfl
@[simp] theorem keepReference_prevFbSize (s : State) : (keepReference s).prevFbSize = s.prevFbSize := rfl
@[simp] theorem keepReference_phase (s : State) : (keepReference s).phase = s.phase := rfl
@[simp] theorem keepReference_pix (s : State) : (keepReference s).pix = s.pix := rfl
@[simp] theorem keepReference_oldMem (s : State) : (keepReference s).oldMem = s.oldMem := rfl
@[simp] theorem keepReference_agenda (s : State) : (keepReference s).agenda = s.agenda := rfl
@[simp] theorem keepReference_rdata (s : State) : (keepReference s).rdata = s.rdata := rfl
@[simp] theorem keepReference_mdata (s : State) : (keepReference s).mdata = s.mdata := rfl
@[simp] theorem keepReference_freeCount (s : State) : (keepReference s).freeCount = if s.freeFrame.isSome then s.freeCount + 1 else s.freeCount := rfl
@[simp] theorem keepReference_freeFrame (s : State) : (keepReference s).freeFrame = s.freeFrame.map fun _ => s.freeCount := rfl

/-! ### enterConvert -/

@[simp] theorem enterConvert_cfg (s : State) : (enterConvert s).cfg = s.cfg := rfl
@[simp] theorem enterConvert_mem (s : State) : (enterConvert s).mem = s.mem := rfl
@[simp] theorem enterConvert_irqEn (s : State) : (enterConvert s).irqEn = s.irqEn := rfl
@[simp] theorem enterConvert_status (s : State) : (enterConvert s).status = s.status := rfl
@[simp] theorem enterConvert_width (s : State) : (enterConvert s).width = s.width := rfl
@[simp] theorem enterConvert_height (s : State) : (enterConvert s).height = s.height := rfl
@[simp] theorem enterConvert_srcAddr (s : State) : (enterConvert s).srcAddr = s.srcAddr := rfl
@[simp] theorem enterConvert_storageSize (s : State) : (enterConvert s).storageSize = s.storageSize := rfl
@[simp] theorem enterConvert_originalSize (s : State) : (enterConvert s).originalSize = s.originalSize := rfl
@[simp] theorem enterConvert_chunkType (s : State) : (enterConvert s).chunkType = s.chunkType := rfl
@[simp] theorem enterConvert_dstAddr (s : State) : (enterConvert s).dstAddr = s.dstAddr := rfl
@[simp] theorem enterConvert_lzOutCount (s : State) : (enterConvert s).lzOutCount = s.lzOutCount := rfl
@[simp] theorem enterConvert_dsLenReg (s : State) : (enterConvert s).dsLenReg = s.dsLenReg := rfl
@[simp] theorem enterConvert_stopPos (s : State) : (enterConvert s).stopPos = s.stopPos := rfl
@[simp] theorem enterConvert_stopTag (s : State) : (enterConvert s).stopTag = s.stopTag := rfl
@[simp] theorem enterConvert_opsDone (s : State) : (enterConvert s).opsDone = s.opsDone := rfl
@[simp] theorem enterConvert_fbLenLo (s : State) : (enterConvert s).fbLenLo = s.fbLenLo := rfl
@[simp] theorem enterConvert_fbLenHi (s : State) : (enterConvert s).fbLenHi = s.fbLenHi := rfl
@[simp] theorem enterConvert_lWidth (s : State) : (enterConvert s).lWidth = s.lWidth := rfl
@[simp] theorem enterConvert_lHeight (s : State) : (enterConvert s).lHeight = s.lHeight := rfl
@[simp] theorem enterConvert_lSrc (s : State) : (enterConvert s).lSrc = s.lSrc := rfl
@[simp] theorem enterConvert_lStorage (s : State) : (enterConvert s).lStorage = s.lStorage := rfl
@[simp] theorem enterConvert_lOriginal (s : State) : (enterConvert s).lOriginal = s.lOriginal := rfl
@[simp] theorem enterConvert_lType (s : State) : (enterConvert s).lType = s.lType := rfl
@[simp] theorem enterConvert_lDst (s : State) : (enterConvert s).lDst = s.lDst := rfl
@[simp] theorem enterConvert_dict (s : State) : (enterConvert s).dict = s.dict := rfl
@[simp] theorem enterConvert_w (s : State) : (enterConvert s).w = s.w := rfl
@[simp] theorem enterConvert_r (s : State) : (enterConvert s).r = s.r := rfl
@[simp] theorem enterConvert_flags (s : State) : (enterConvert s).flags = s.flags := rfl
@[simp] theorem enterConvert_fbit (s : State) : (enterConvert s).fbit = s.fbit := rfl
@[simp] theorem enterConvert_p (s : State) : (enterConvert s).p = s.p := rfl
@[simp] theorem enterConvert_din (s : State) : (enterConvert s).din = s.din := rfl
@[simp] theorem enterConvert_ds (s : State) : (enterConvert s).ds = s.ds := rfl
@[simp] theorem enterConvert_produced (s : State) : (enterConvert s).produced = s.produced := rfl
@[simp] theorem enterConvert_ip (s : State) : (enterConvert s).ip = s.ip := rfl
@[simp] theorem enterConvert_ops (s : State) : (enterConvert s).ops = s.ops := rfl
@[simp] theorem enterConvert_cause (s : State) : (enterConvert s).cause = s.cause := rfl
@[simp] theorem enterConvert_fb (s : State) : (enterConvert s).fb = s.fb := rfl
@[simp] theorem enterConvert_fbLen (s : State) : (enterConvert s).fbLen = s.fbLen := rfl
@[simp] theorem enterConvert_prevValid (s : State) : (enterConvert s).prevValid = s.prevValid := rfl
@[simp] theorem enterConvert_prevFbSize (s : State) : (enterConvert s).prevFbSize = s.prevFbSize := rfl
@[simp] theorem enterConvert_phase (s : State) : (enterConvert s).phase = .convert := rfl
@[simp] theorem enterConvert_pix (s : State) : (enterConvert s).pix = 0 := rfl
@[simp] theorem enterConvert_oldMem (s : State) : (enterConvert s).oldMem = s.oldMem := rfl
@[simp] theorem enterConvert_agenda (s : State) : (enterConvert s).agenda = s.agenda := rfl
@[simp] theorem enterConvert_rdata (s : State) : (enterConvert s).rdata = s.rdata := rfl
@[simp] theorem enterConvert_mdata (s : State) : (enterConvert s).mdata = s.mdata := rfl
@[simp] theorem enterConvert_freeCount (s : State) : (enterConvert s).freeCount = s.freeCount := rfl
@[simp] theorem enterConvert_freeFrame (s : State) : (enterConvert s).freeFrame = s.freeFrame := rfl

/-! ### latch -/

@[simp] theorem latch_cfg (s : State) : (latch s).cfg = s.cfg := rfl
@[simp] theorem latch_mem (s : State) : (latch s).mem = s.mem := rfl
@[simp] theorem latch_irqEn (s : State) : (latch s).irqEn = s.irqEn := rfl
@[simp] theorem latch_status (s : State) : (latch s).status = s.status := rfl
@[simp] theorem latch_width (s : State) : (latch s).width = s.width := rfl
@[simp] theorem latch_height (s : State) : (latch s).height = s.height := rfl
@[simp] theorem latch_srcAddr (s : State) : (latch s).srcAddr = s.srcAddr := rfl
@[simp] theorem latch_storageSize (s : State) : (latch s).storageSize = s.storageSize := rfl
@[simp] theorem latch_originalSize (s : State) : (latch s).originalSize = s.originalSize := rfl
@[simp] theorem latch_chunkType (s : State) : (latch s).chunkType = s.chunkType := rfl
@[simp] theorem latch_dstAddr (s : State) : (latch s).dstAddr = s.dstAddr := rfl
@[simp] theorem latch_lzOutCount (s : State) : (latch s).lzOutCount = s.lzOutCount := rfl
@[simp] theorem latch_dsLenReg (s : State) : (latch s).dsLenReg = s.dsLenReg := rfl
@[simp] theorem latch_stopPos (s : State) : (latch s).stopPos = s.stopPos := rfl
@[simp] theorem latch_stopTag (s : State) : (latch s).stopTag = s.stopTag := rfl
@[simp] theorem latch_opsDone (s : State) : (latch s).opsDone = s.opsDone := rfl
@[simp] theorem latch_fbLenLo (s : State) : (latch s).fbLenLo = s.fbLenLo := rfl
@[simp] theorem latch_fbLenHi (s : State) : (latch s).fbLenHi = s.fbLenHi := rfl
@[simp] theorem latch_lWidth (s : State) : (latch s).lWidth = s.width := rfl
@[simp] theorem latch_lHeight (s : State) : (latch s).lHeight = s.height := rfl
@[simp] theorem latch_lSrc (s : State) : (latch s).lSrc = s.srcAddr := rfl
@[simp] theorem latch_lStorage (s : State) : (latch s).lStorage = s.storageSize := rfl
@[simp] theorem latch_lOriginal (s : State) : (latch s).lOriginal = s.originalSize := rfl
@[simp] theorem latch_lType (s : State) : (latch s).lType = s.chunkType := rfl
@[simp] theorem latch_lDst (s : State) : (latch s).lDst = s.dstAddr := rfl
@[simp] theorem latch_dict (s : State) : (latch s).dict = s.dict := rfl
@[simp] theorem latch_w (s : State) : (latch s).w = s.w := rfl
@[simp] theorem latch_r (s : State) : (latch s).r = s.r := rfl
@[simp] theorem latch_flags (s : State) : (latch s).flags = s.flags := rfl
@[simp] theorem latch_fbit (s : State) : (latch s).fbit = s.fbit := rfl
@[simp] theorem latch_p (s : State) : (latch s).p = s.p := rfl
@[simp] theorem latch_din (s : State) : (latch s).din = s.din := rfl
@[simp] theorem latch_ds (s : State) : (latch s).ds = s.ds := rfl
@[simp] theorem latch_produced (s : State) : (latch s).produced = s.produced := rfl
@[simp] theorem latch_ip (s : State) : (latch s).ip = s.ip := rfl
@[simp] theorem latch_ops (s : State) : (latch s).ops = s.ops := rfl
@[simp] theorem latch_cause (s : State) : (latch s).cause = s.cause := rfl
@[simp] theorem latch_fb (s : State) : (latch s).fb = s.fb := rfl
@[simp] theorem latch_fbLen (s : State) : (latch s).fbLen = s.fbLen := rfl
@[simp] theorem latch_prevValid (s : State) : (latch s).prevValid = s.prevValid := rfl
@[simp] theorem latch_prevFbSize (s : State) : (latch s).prevFbSize = s.prevFbSize := rfl
@[simp] theorem latch_phase (s : State) : (latch s).phase = s.phase := rfl
@[simp] theorem latch_pix (s : State) : (latch s).pix = s.pix := rfl
@[simp] theorem latch_oldMem (s : State) : (latch s).oldMem = s.oldMem := rfl
@[simp] theorem latch_agenda (s : State) : (latch s).agenda = s.agenda := rfl
@[simp] theorem latch_rdata (s : State) : (latch s).rdata = s.rdata := rfl
@[simp] theorem latch_mdata (s : State) : (latch s).mdata = s.mdata := rfl
@[simp] theorem latch_freeCount (s : State) : (latch s).freeCount = s.freeCount := rfl
@[simp] theorem latch_freeFrame (s : State) : (latch s).freeFrame = s.freeFrame := rfl

/-! ### rejectStart -/

@[simp] theorem rejectStart_cfg (cause : RejectCause) (s : State) : (rejectStart cause s).cfg = s.cfg := rfl
@[simp] theorem rejectStart_mem (cause : RejectCause) (s : State) : (rejectStart cause s).mem = s.mem := rfl
@[simp] theorem rejectStart_irqEn (cause : RejectCause) (s : State) : (rejectStart cause s).irqEn = s.irqEn := rfl
@[simp] theorem rejectStart_status (cause : RejectCause) (s : State) : (rejectStart cause s).status = rejectFlags cause s.status := rfl
@[simp] theorem rejectStart_width (cause : RejectCause) (s : State) : (rejectStart cause s).width = s.width := rfl
@[simp] theorem rejectStart_height (cause : RejectCause) (s : State) : (rejectStart cause s).height = s.height := rfl
@[simp] theorem rejectStart_srcAddr (cause : RejectCause) (s : State) : (rejectStart cause s).srcAddr = s.srcAddr := rfl
@[simp] theorem rejectStart_storageSize (cause : RejectCause) (s : State) : (rejectStart cause s).storageSize = s.storageSize := rfl
@[simp] theorem rejectStart_originalSize (cause : RejectCause) (s : State) : (rejectStart cause s).originalSize = s.originalSize := rfl
@[simp] theorem rejectStart_chunkType (cause : RejectCause) (s : State) : (rejectStart cause s).chunkType = s.chunkType := rfl
@[simp] theorem rejectStart_dstAddr (cause : RejectCause) (s : State) : (rejectStart cause s).dstAddr = s.dstAddr := rfl
@[simp] theorem rejectStart_lzOutCount (cause : RejectCause) (s : State) : (rejectStart cause s).lzOutCount = 0 := rfl
@[simp] theorem rejectStart_dsLenReg (cause : RejectCause) (s : State) : (rejectStart cause s).dsLenReg = 0 := rfl
@[simp] theorem rejectStart_stopPos (cause : RejectCause) (s : State) : (rejectStart cause s).stopPos = 0 := rfl
@[simp] theorem rejectStart_stopTag (cause : RejectCause) (s : State) : (rejectStart cause s).stopTag = 0 := rfl
@[simp] theorem rejectStart_opsDone (cause : RejectCause) (s : State) : (rejectStart cause s).opsDone = 0 := rfl
@[simp] theorem rejectStart_fbLenLo (cause : RejectCause) (s : State) : (rejectStart cause s).fbLenLo = s.fbLenLo := rfl
@[simp] theorem rejectStart_fbLenHi (cause : RejectCause) (s : State) : (rejectStart cause s).fbLenHi = s.fbLenHi := rfl
@[simp] theorem rejectStart_lWidth (cause : RejectCause) (s : State) : (rejectStart cause s).lWidth = s.lWidth := rfl
@[simp] theorem rejectStart_lHeight (cause : RejectCause) (s : State) : (rejectStart cause s).lHeight = s.lHeight := rfl
@[simp] theorem rejectStart_lSrc (cause : RejectCause) (s : State) : (rejectStart cause s).lSrc = s.lSrc := rfl
@[simp] theorem rejectStart_lStorage (cause : RejectCause) (s : State) : (rejectStart cause s).lStorage = s.lStorage := rfl
@[simp] theorem rejectStart_lOriginal (cause : RejectCause) (s : State) : (rejectStart cause s).lOriginal = s.lOriginal := rfl
@[simp] theorem rejectStart_lType (cause : RejectCause) (s : State) : (rejectStart cause s).lType = s.lType := rfl
@[simp] theorem rejectStart_lDst (cause : RejectCause) (s : State) : (rejectStart cause s).lDst = s.lDst := rfl
@[simp] theorem rejectStart_dict (cause : RejectCause) (s : State) : (rejectStart cause s).dict = s.dict := rfl
@[simp] theorem rejectStart_w (cause : RejectCause) (s : State) : (rejectStart cause s).w = s.w := rfl
@[simp] theorem rejectStart_r (cause : RejectCause) (s : State) : (rejectStart cause s).r = s.r := rfl
@[simp] theorem rejectStart_flags (cause : RejectCause) (s : State) : (rejectStart cause s).flags = s.flags := rfl
@[simp] theorem rejectStart_fbit (cause : RejectCause) (s : State) : (rejectStart cause s).fbit = s.fbit := rfl
@[simp] theorem rejectStart_p (cause : RejectCause) (s : State) : (rejectStart cause s).p = s.p := rfl
@[simp] theorem rejectStart_din (cause : RejectCause) (s : State) : (rejectStart cause s).din = s.din := rfl
@[simp] theorem rejectStart_ds (cause : RejectCause) (s : State) : (rejectStart cause s).ds = s.ds := rfl
@[simp] theorem rejectStart_produced (cause : RejectCause) (s : State) : (rejectStart cause s).produced = s.produced := rfl
@[simp] theorem rejectStart_ip (cause : RejectCause) (s : State) : (rejectStart cause s).ip = s.ip := rfl
@[simp] theorem rejectStart_ops (cause : RejectCause) (s : State) : (rejectStart cause s).ops = s.ops := rfl
@[simp] theorem rejectStart_cause (cause : RejectCause) (s : State) : (rejectStart cause s).cause = s.cause := rfl
@[simp] theorem rejectStart_fb (cause : RejectCause) (s : State) : (rejectStart cause s).fb = s.fb := rfl
@[simp] theorem rejectStart_fbLen (cause : RejectCause) (s : State) : (rejectStart cause s).fbLen = s.fbLen := rfl
@[simp] theorem rejectStart_prevValid (cause : RejectCause) (s : State) : (rejectStart cause s).prevValid = s.prevValid := rfl
@[simp] theorem rejectStart_prevFbSize (cause : RejectCause) (s : State) : (rejectStart cause s).prevFbSize = s.prevFbSize := rfl
@[simp] theorem rejectStart_phase (cause : RejectCause) (s : State) : (rejectStart cause s).phase = s.phase := rfl
@[simp] theorem rejectStart_pix (cause : RejectCause) (s : State) : (rejectStart cause s).pix = s.pix := rfl
@[simp] theorem rejectStart_oldMem (cause : RejectCause) (s : State) : (rejectStart cause s).oldMem = s.oldMem := rfl
@[simp] theorem rejectStart_agenda (cause : RejectCause) (s : State) : (rejectStart cause s).agenda = s.agenda := rfl
@[simp] theorem rejectStart_rdata (cause : RejectCause) (s : State) : (rejectStart cause s).rdata = s.rdata := rfl
@[simp] theorem rejectStart_mdata (cause : RejectCause) (s : State) : (rejectStart cause s).mdata = s.mdata := rfl
@[simp] theorem rejectStart_freeCount (cause : RejectCause) (s : State) : (rejectStart cause s).freeCount = s.freeCount := rfl
@[simp] theorem rejectStart_freeFrame (cause : RejectCause) (s : State) : (rejectStart cause s).freeFrame = s.freeFrame := rfl

/-! ### acceptStart -/

@[simp] theorem acceptStart_cfg (s : State) : (acceptStart s).cfg = s.cfg := rfl
@[simp] theorem acceptStart_mem (s : State) : (acceptStart s).mem = s.mem := rfl
@[simp] theorem acceptStart_irqEn (s : State) : (acceptStart s).irqEn = s.irqEn := rfl
@[simp] theorem acceptStart_status (s : State) : (acceptStart s).status = acceptFlags s.status := rfl
@[simp] theorem acceptStart_width (s : State) : (acceptStart s).width = s.width := rfl
@[simp] theorem acceptStart_height (s : State) : (acceptStart s).height = s.height := rfl
@[simp] theorem acceptStart_srcAddr (s : State) : (acceptStart s).srcAddr = s.srcAddr := rfl
@[simp] theorem acceptStart_storageSize (s : State) : (acceptStart s).storageSize = s.storageSize := rfl
@[simp] theorem acceptStart_originalSize (s : State) : (acceptStart s).originalSize = s.originalSize := rfl
@[simp] theorem acceptStart_chunkType (s : State) : (acceptStart s).chunkType = s.chunkType := rfl
@[simp] theorem acceptStart_dstAddr (s : State) : (acceptStart s).dstAddr = s.dstAddr := rfl
@[simp] theorem acceptStart_lzOutCount (s : State) : (acceptStart s).lzOutCount = s.lzOutCount := rfl
@[simp] theorem acceptStart_dsLenReg (s : State) : (acceptStart s).dsLenReg = s.dsLenReg := rfl
@[simp] theorem acceptStart_stopPos (s : State) : (acceptStart s).stopPos = s.stopPos := rfl
@[simp] theorem acceptStart_stopTag (s : State) : (acceptStart s).stopTag = s.stopTag := rfl
@[simp] theorem acceptStart_opsDone (s : State) : (acceptStart s).opsDone = s.opsDone := rfl
@[simp] theorem acceptStart_fbLenLo (s : State) : (acceptStart s).fbLenLo = s.fbLenLo := rfl
@[simp] theorem acceptStart_fbLenHi (s : State) : (acceptStart s).fbLenHi = s.fbLenHi := rfl
@[simp] theorem acceptStart_lWidth (s : State) : (acceptStart s).lWidth = s.lWidth := rfl
@[simp] theorem acceptStart_lHeight (s : State) : (acceptStart s).lHeight = s.lHeight := rfl
@[simp] theorem acceptStart_lSrc (s : State) : (acceptStart s).lSrc = s.lSrc := rfl
@[simp] theorem acceptStart_lStorage (s : State) : (acceptStart s).lStorage = s.lStorage := rfl
@[simp] theorem acceptStart_lOriginal (s : State) : (acceptStart s).lOriginal = s.lOriginal := rfl
@[simp] theorem acceptStart_lType (s : State) : (acceptStart s).lType = s.lType := rfl
@[simp] theorem acceptStart_lDst (s : State) : (acceptStart s).lDst = s.lDst := rfl
@[simp] theorem acceptStart_dict (s : State) : (acceptStart s).dict = s.dict := rfl
@[simp] theorem acceptStart_w (s : State) : (acceptStart s).w = s.w := rfl
@[simp] theorem acceptStart_r (s : State) : (acceptStart s).r = s.r := rfl
@[simp] theorem acceptStart_flags (s : State) : (acceptStart s).flags = s.flags := rfl
@[simp] theorem acceptStart_fbit (s : State) : (acceptStart s).fbit = s.fbit := rfl
@[simp] theorem acceptStart_p (s : State) : (acceptStart s).p = s.p := rfl
@[simp] theorem acceptStart_din (s : State) : (acceptStart s).din = s.din := rfl
@[simp] theorem acceptStart_ds (s : State) : (acceptStart s).ds = s.ds := rfl
@[simp] theorem acceptStart_produced (s : State) : (acceptStart s).produced = s.produced := rfl
@[simp] theorem acceptStart_ip (s : State) : (acceptStart s).ip = s.ip := rfl
@[simp] theorem acceptStart_ops (s : State) : (acceptStart s).ops = s.ops := rfl
@[simp] theorem acceptStart_cause (s : State) : (acceptStart s).cause = s.cause := rfl
@[simp] theorem acceptStart_fb (s : State) : (acceptStart s).fb = s.fb := rfl
@[simp] theorem acceptStart_fbLen (s : State) : (acceptStart s).fbLen = s.fbLen := rfl
@[simp] theorem acceptStart_prevValid (s : State) : (acceptStart s).prevValid = s.prevValid := rfl
@[simp] theorem acceptStart_prevFbSize (s : State) : (acceptStart s).prevFbSize = s.prevFbSize := rfl
@[simp] theorem acceptStart_phase (s : State) : (acceptStart s).phase = .refSelect := rfl
@[simp] theorem acceptStart_pix (s : State) : (acceptStart s).pix = s.pix := rfl
@[simp] theorem acceptStart_oldMem (s : State) : (acceptStart s).oldMem = s.mem := rfl
@[simp] theorem acceptStart_agenda (s : State) : (acceptStart s).agenda = s.agenda := rfl
@[simp] theorem acceptStart_rdata (s : State) : (acceptStart s).rdata = s.rdata := rfl
@[simp] theorem acceptStart_mdata (s : State) : (acceptStart s).mdata = s.mdata := rfl
@[simp] theorem acceptStart_freeCount (s : State) : (acceptStart s).freeCount = s.freeCount := rfl
@[simp] theorem acceptStart_freeFrame (s : State) : (acceptStart s).freeFrame = s.freeFrame := rfl

/-! ### ignoreCommand -/

@[simp] theorem ignoreCommand_cfg (s : State) : (ignoreCommand s).cfg = s.cfg := rfl
@[simp] theorem ignoreCommand_mem (s : State) : (ignoreCommand s).mem = s.mem := rfl
@[simp] theorem ignoreCommand_irqEn (s : State) : (ignoreCommand s).irqEn = s.irqEn := rfl
@[simp] theorem ignoreCommand_status (s : State) : (ignoreCommand s).status = { s.status with ignored := true } := rfl
@[simp] theorem ignoreCommand_width (s : State) : (ignoreCommand s).width = s.width := rfl
@[simp] theorem ignoreCommand_height (s : State) : (ignoreCommand s).height = s.height := rfl
@[simp] theorem ignoreCommand_srcAddr (s : State) : (ignoreCommand s).srcAddr = s.srcAddr := rfl
@[simp] theorem ignoreCommand_storageSize (s : State) : (ignoreCommand s).storageSize = s.storageSize := rfl
@[simp] theorem ignoreCommand_originalSize (s : State) : (ignoreCommand s).originalSize = s.originalSize := rfl
@[simp] theorem ignoreCommand_chunkType (s : State) : (ignoreCommand s).chunkType = s.chunkType := rfl
@[simp] theorem ignoreCommand_dstAddr (s : State) : (ignoreCommand s).dstAddr = s.dstAddr := rfl
@[simp] theorem ignoreCommand_lzOutCount (s : State) : (ignoreCommand s).lzOutCount = s.lzOutCount := rfl
@[simp] theorem ignoreCommand_dsLenReg (s : State) : (ignoreCommand s).dsLenReg = s.dsLenReg := rfl
@[simp] theorem ignoreCommand_stopPos (s : State) : (ignoreCommand s).stopPos = s.stopPos := rfl
@[simp] theorem ignoreCommand_stopTag (s : State) : (ignoreCommand s).stopTag = s.stopTag := rfl
@[simp] theorem ignoreCommand_opsDone (s : State) : (ignoreCommand s).opsDone = s.opsDone := rfl
@[simp] theorem ignoreCommand_fbLenLo (s : State) : (ignoreCommand s).fbLenLo = s.fbLenLo := rfl
@[simp] theorem ignoreCommand_fbLenHi (s : State) : (ignoreCommand s).fbLenHi = s.fbLenHi := rfl
@[simp] theorem ignoreCommand_lWidth (s : State) : (ignoreCommand s).lWidth = s.lWidth := rfl
@[simp] theorem ignoreCommand_lHeight (s : State) : (ignoreCommand s).lHeight = s.lHeight := rfl
@[simp] theorem ignoreCommand_lSrc (s : State) : (ignoreCommand s).lSrc = s.lSrc := rfl
@[simp] theorem ignoreCommand_lStorage (s : State) : (ignoreCommand s).lStorage = s.lStorage := rfl
@[simp] theorem ignoreCommand_lOriginal (s : State) : (ignoreCommand s).lOriginal = s.lOriginal := rfl
@[simp] theorem ignoreCommand_lType (s : State) : (ignoreCommand s).lType = s.lType := rfl
@[simp] theorem ignoreCommand_lDst (s : State) : (ignoreCommand s).lDst = s.lDst := rfl
@[simp] theorem ignoreCommand_dict (s : State) : (ignoreCommand s).dict = s.dict := rfl
@[simp] theorem ignoreCommand_w (s : State) : (ignoreCommand s).w = s.w := rfl
@[simp] theorem ignoreCommand_r (s : State) : (ignoreCommand s).r = s.r := rfl
@[simp] theorem ignoreCommand_flags (s : State) : (ignoreCommand s).flags = s.flags := rfl
@[simp] theorem ignoreCommand_fbit (s : State) : (ignoreCommand s).fbit = s.fbit := rfl
@[simp] theorem ignoreCommand_p (s : State) : (ignoreCommand s).p = s.p := rfl
@[simp] theorem ignoreCommand_din (s : State) : (ignoreCommand s).din = s.din := rfl
@[simp] theorem ignoreCommand_ds (s : State) : (ignoreCommand s).ds = s.ds := rfl
@[simp] theorem ignoreCommand_produced (s : State) : (ignoreCommand s).produced = s.produced := rfl
@[simp] theorem ignoreCommand_ip (s : State) : (ignoreCommand s).ip = s.ip := rfl
@[simp] theorem ignoreCommand_ops (s : State) : (ignoreCommand s).ops = s.ops := rfl
@[simp] theorem ignoreCommand_cause (s : State) : (ignoreCommand s).cause = s.cause := rfl
@[simp] theorem ignoreCommand_fb (s : State) : (ignoreCommand s).fb = s.fb := rfl
@[simp] theorem ignoreCommand_fbLen (s : State) : (ignoreCommand s).fbLen = s.fbLen := rfl
@[simp] theorem ignoreCommand_prevValid (s : State) : (ignoreCommand s).prevValid = s.prevValid := rfl
@[simp] theorem ignoreCommand_prevFbSize (s : State) : (ignoreCommand s).prevFbSize = s.prevFbSize := rfl
@[simp] theorem ignoreCommand_phase (s : State) : (ignoreCommand s).phase = s.phase := rfl
@[simp] theorem ignoreCommand_pix (s : State) : (ignoreCommand s).pix = s.pix := rfl
@[simp] theorem ignoreCommand_oldMem (s : State) : (ignoreCommand s).oldMem = s.oldMem := rfl
@[simp] theorem ignoreCommand_agenda (s : State) : (ignoreCommand s).agenda = s.agenda := rfl
@[simp] theorem ignoreCommand_rdata (s : State) : (ignoreCommand s).rdata = s.rdata := rfl
@[simp] theorem ignoreCommand_mdata (s : State) : (ignoreCommand s).mdata = s.mdata := rfl
@[simp] theorem ignoreCommand_freeCount (s : State) : (ignoreCommand s).freeCount = s.freeCount := rfl
@[simp] theorem ignoreCommand_freeFrame (s : State) : (ignoreCommand s).freeFrame = s.freeFrame := rfl

end Sys2Proof.Machine
end

