-- ==== Sys2Proof/Laws/Ops.lean ====
section
/-! SUPPORT. For each shared operation, one lemma that says all it can do. -/

namespace Sys2Proof.Machine

/-! ### The host memory port -/

/-- A host write goes through exactly when its bytes exist, and then changes those bytes only. -/
theorem hostWrite_next {a : Nat} {vs : List Byte} {s t : State} :
    hostWrite a vs s = .next t ↔
      a + vs.length ≤ s.cfg.hostMemSize ∧ t = { s with mem := s.mem.writeList a vs } := by
  unfold hostWrite
  split
  · rename_i h
    simp [h, eq_comm]
  · rename_i h
    simp [h]

theorem hostWrite_of_le {a : Nat} {vs : List Byte} {s : State} (h : a + vs.length ≤ s.cfg.hostMemSize) :
    hostWrite a vs s = .next { s with mem := s.mem.writeList a vs } := if_pos h

/-- Writing a pixel goes through exactly when its four bytes exist; it writes them and moves to the next pixel. -/
theorem writePixel_next {r g b a : Byte} {s t : State} :
    writePixel r g b a s = .next t ↔
      s.lDst.toNat + 4 * s.pix + 4 ≤ s.cfg.hostMemSize ∧
        t = { s with mem := s.mem.writeList (s.lDst.toNat + 4 * s.pix) [r, g, b, a], pix := s.pix + 1 } := by
  unfold writePixel hostWrite
  simp only [List.length_cons, List.length_nil]
  split
  · rename_i h
    split at h
    · rename_i hle
      cases h
      simp [hle, eq_comm]
    · cases h
  · rename_i h
    split at h
    · cases h
    · rename_i hle
      simp only [reduceCtorEq, false_iff, not_and]
      omega
  · rename_i h
    split at h <;> cases h

theorem writePixel_of_le {r g b a : Byte} {s : State} (h : s.lDst.toNat + 4 * s.pix + 4 ≤ s.cfg.hostMemSize) :
    writePixel r g b a s =
      .next { s with mem := s.mem.writeList (s.lDst.toNat + 4 * s.pix) [r, g, b, a], pix := s.pix + 1 } :=
  writePixel_next.mpr ⟨h, rfl⟩

/-- DESCR goes through exactly when its byte exists; it writes the byte back and hands it to the LZSS stage. -/
theorem execDescr_next {x : Byte} {s t : State} :
    execDescr x s = .next t ↔
      s.lSrc.toNat + s.payloadPos + 1 ≤ s.cfg.hostMemSize ∧
        t = { s with
                mem := s.mem.write (s.lSrc.toNat + s.payloadPos) (descramble x s.payloadPos)
                din := s.din ++ [descramble x s.payloadPos] } := by
  unfold execDescr hostWrite
  simp only [List.length_cons, List.length_nil]
  split
  · rename_i h
    split at h
    · rename_i hle
      cases h
      simp [hle, eq_comm, Memory.writeList]
    · cases h
  · rename_i h
    split at h
    · cases h
    · rename_i hle
      simp only [reduceCtorEq, false_iff, not_and]
      omega
  · rename_i h
    split at h <;> cases h

/-! ### The LZSS stage -/

@[simp] theorem emit_dsRoom (c : Byte) (s : State) :
    (emit c s).dsRoom = (s.dsRoom && match s.cfg.dsCap with
      | none => true
      | some cap => decide (s.ds.length + 1 < cap)) := by
  cases h : s.cfg.dsCap with
  | none => simp [State.dsRoom, h]
  | some cap =>
    by_cases hl : s.ds.length < cap
    · simp [State.dsRoom, h, hl]
    · simp [State.dsRoom, h, hl]

/-- What a back-reference copy leaves alone, and what it counts. -/
theorem copyRun_frame (n : Nat) (s : State) :
    copyRun n s =
      { s with
        ds := (copyRun n s).ds, dict := (copyRun n s).dict
        status := { s.status with dsOvf := (copyRun n s).status.dsOvf }
        produced := s.produced + n
        w := s.w + BitVec.ofNat 12 n
        r := s.r + BitVec.ofNat 12 n } := by
  induction n generalizing s with
  | zero => simp [copyRun]
  | succ n ih =>
    have h1 : ∀ x : DictIx, x + 1 + BitVec.ofNat 12 n = x + BitVec.ofNat 12 (n + 1) := by
      intro x
      rw [BitVec.add_assoc, BitVec.add_comm 1, show n + 1 = n + 1 from rfl, BitVec.ofNat_add]
      rfl
    rw [copyRun, ih]
    simp only [copyOne, emit, h1, Nat.add_assoc, Nat.add_comm 1 n]

theorem copyRun_dict_wf {n : Nat} {s : State} (h : s.dict.wf = true) : (copyRun n s).dict.wf = true := by
  induction n generalizing s with
  | zero => exact h
  | succ n ih => exact ih (Memory.wf_write h _ _)

theorem copyRun_dict_below {n : Nat} {s : State} (h : s.dict.below 4096 = true) :
    (copyRun n s).dict.below 4096 = true := by
  induction n generalizing s with
  | zero => exact h
  | succ n ih => exact ih (Memory.below_write h s.w.isLt _)

theorem emit_ds_length (c : Byte) (s : State) : (emit c s).ds.length ≤ s.ds.length + 1 := by
  rw [emit_ds]; split <;> simp

theorem emit_ds_le {c : Byte} {s : State} (h : s.ds.length ≤ s.produced) :
    (emit c s).ds.length ≤ (emit c s).produced :=
  le_trans (emit_ds_length c s) (by simpa using h)

theorem emit_ds_fits {c : Byte} {s : State} (h : ∀ cap, s.cfg.dsCap = some cap → s.ds.length ≤ cap) :
    ∀ cap, s.cfg.dsCap = some cap → (emit c s).ds.length ≤ cap := by
  intro cap hc
  rw [emit_ds]
  have := h cap hc
  split
  · rename_i hr
    simp only [State.dsRoom, hc, decide_eq_true_eq] at hr
    simp; omega
  · exact this

/-- DS_OVF says that the output passed DS_CAP. -/
theorem emit_overflow {c : Byte} {s : State} (hle : s.ds.length ≤ s.produced)
    (h : s.status.dsOvf = true → ∃ cap, s.cfg.dsCap = some cap ∧ cap < s.produced) :
    (emit c s).status.dsOvf = true → ∃ cap, s.cfg.dsCap = some cap ∧ cap < s.produced + 1 := by
  intro ho
  by_cases hr : s.dsRoom = true
  · rw [emit_status] at ho
    simp only [hr, if_true] at ho
    obtain ⟨cap, hc, hlt⟩ := h ho
    exact ⟨cap, hc, by omega⟩
  · cases hc : s.cfg.dsCap with
    | none => simp [State.dsRoom, hc] at hr
    | some cap =>
      simp only [State.dsRoom, hc, decide_eq_true_eq] at hr
      exact ⟨cap, rfl, by omega⟩

theorem copyRun_ds_length (n : Nat) (s : State) : (copyRun n s).ds.length ≤ s.ds.length + n := by
  induction n generalizing s with
  | zero => simp [copyRun]
  | succ n ih =>
    have := ih (copyOne s)
    have h2 : (copyOne s).ds.length ≤ s.ds.length + 1 := emit_ds_length _ s
    rw [copyRun]; omega

theorem copyRun_ds_le {n : Nat} {s : State} (h : s.ds.length ≤ s.produced) :
    (copyRun n s).ds.length ≤ s.produced + n := by
  have := copyRun_ds_length n s; omega

theorem copyRun_ds_fits {n : Nat} {s : State} (h : ∀ cap, s.cfg.dsCap = some cap → s.ds.length ≤ cap) :
    ∀ cap, s.cfg.dsCap = some cap → (copyRun n s).ds.length ≤ cap := by
  induction n generalizing s with
  | zero => exact h
  | succ n ih => exact ih (s := copyOne s) (emit_ds_fits h)

theorem copyRun_overflow {n : Nat} {s : State} (hle : s.ds.length ≤ s.produced)
    (h : s.status.dsOvf = true → ∃ cap, s.cfg.dsCap = some cap ∧ cap < s.produced) :
    (copyRun n s).status.dsOvf = true → ∃ cap, s.cfg.dsCap = some cap ∧ cap < s.produced + n := by
  induction n generalizing s with
  | zero => exact h
  | succ n ih =>
    intro ho
    obtain ⟨cap, hc, hlt⟩ := ih (s := copyOne s) (emit_ds_le hle) (emit_overflow (c := s.dict.read s.r.toNat) hle h) ho
    refine ⟨cap, hc, ?_⟩
    have : (copyOne s).produced = s.produced + 1 := rfl
    omega

/-! ### The frame -/

theorem fbWrite_frame (a : Nat) (v : Byte) (s : State) :
    fbWrite a v s =
      { s with
        fb := (fbWrite a v s).fb
        status := { s.status with clipped := (fbWrite a v s).status.clipped } } := by
  unfold fbWrite; split <;> rfl

/-- Frame writes change FB and CLIPPED only (42_frame_delta.md R116). -/
theorem fbWriteList_frame (a : Nat) (vs : List Byte) (s : State) :
    fbWriteList a vs s =
      { s with
        fb := (fbWriteList a vs s).fb
        status := { s.status with clipped := (fbWriteList a vs s).status.clipped } } := by
  induction vs generalizing a s with
  | nil => rfl
  | cons v vs ih =>
    rw [fbWriteList, ih, fbWrite_frame a v s]

theorem fbWrite_fbSize (a : Nat) (v : Byte) (s : State) : (fbWrite a v s).fbSize = s.fbSize := by
  rw [fbWrite_frame]; rfl

theorem fbWriteList_fbSize (a : Nat) (vs : List Byte) (s : State) : (fbWriteList a vs s).fbSize = s.fbSize := by
  rw [fbWriteList_frame]; rfl

theorem fbWrite_wf {a : Nat} {v : Byte} {s : State} (h : s.fb.wf = true) : (fbWrite a v s).fb.wf = true := by
  unfold fbWrite; split
  · exact Memory.wf_write h _ _
  · exact h

theorem fbWriteList_wf {a : Nat} {vs : List Byte} {s : State} (h : s.fb.wf = true) :
    (fbWriteList a vs s).fb.wf = true := by
  induction vs generalizing a s with
  | nil => exact h
  | cons v vs ih => exact ih (fbWrite_wf h)

theorem fbWriteList_below {a : Nat} {vs : List Byte} {s : State} {n : Nat} (h : s.fb.below n = true)
    (hn : s.fbSize ≤ n) : (fbWriteList a vs s).fb.below n = true := by
  induction vs generalizing a s with
  | nil => exact h
  | cons v vs ih =>
    refine ih ?_ (by rw [fbWrite_fbSize]; exact hn)
    unfold fbWrite; split
    · rename_i hlt; exact Memory.below_write h (by omega) _
    · exact h

theorem fbWrite_read {a : Nat} {v : Byte} {s : State} (h : s.fb.wf = true) (k : Nat) :
    (fbWrite a v s).fb.read k = if k = a ∧ k < s.fbSize then v else s.fb.read k := by
  unfold fbWrite
  split
  · rename_i hlt
    show Memory.read (Memory.write s.fb a v) k = _
    rw [Memory.read_write h]
    by_cases hk : k = a
    · rw [if_pos hk, if_pos ⟨hk, hk ▸ hlt⟩]
    · rw [if_neg hk, if_neg (by tauto)]
  · rename_i hlt
    rw [if_neg (by rintro ⟨rfl, h2⟩; exact hlt h2)]

/-- Frame writes write the bytes that fall inside the frame, and no other (42_frame_delta.md R116). -/
theorem fbWriteList_read {a : Nat} {vs : List Byte} {s : State} (h : s.fb.wf = true) (k : Nat) :
    (fbWriteList a vs s).fb.read k =
      if a ≤ k ∧ k < a + vs.length ∧ k < s.fbSize then vs.getD (k - a) 0 else s.fb.read k := by
  induction vs generalizing a s with
  | nil => rw [if_neg (by simp; omega)]; rfl
  | cons v vs ih =>
    rw [fbWriteList, ih (fbWrite_wf h), fbWrite_fbSize, fbWrite_read h]
    simp only [List.length_cons]
    by_cases hk : k = a
    · subst hk
      rw [if_neg (by omega)]
      by_cases h2 : k < s.fbSize
      · rw [if_pos ⟨rfl, h2⟩, if_pos ⟨by omega, by omega, h2⟩]; simp
      · rw [if_neg (by tauto), if_neg (by tauto)]
    · by_cases h1 : a + 1 ≤ k ∧ k < a + 1 + vs.length ∧ k < s.fbSize
      · rw [if_pos h1, if_pos (by omega), show k - a = (k - (a + 1)) + 1 by omega, List.getD_cons_succ]
      · rw [if_neg h1, if_neg (by tauto), if_neg (by omega)]

/-- Frame writes set CLIPPED exactly when a byte falls outside the frame (42_frame_delta.md R116). -/
theorem fbWriteList_clipped (a : Nat) (vs : List Byte) (s : State) :
    (fbWriteList a vs s).status.clipped =
      (s.status.clipped || decide (0 < vs.length ∧ s.fbSize < a + vs.length)) := by
  induction vs generalizing a s with
  | nil => simp [fbWriteList]
  | cons v vs ih =>
    rw [fbWriteList, ih, fbWrite_fbSize]
    simp only [List.length_cons]
    unfold fbWrite
    split
    · rename_i hlt
      congr 1
      apply decide_eq_decide.mpr
      constructor
      · rintro ⟨_, h⟩; exact ⟨by omega, by omega⟩
      · rintro ⟨_, h⟩; exact ⟨by omega, by omega⟩
    · rename_i hlt
      simp; omega

theorem fillBytes_length (e o : Byte) (n : Nat) : (fillBytes e o n).length = 2 * n := by
  induction n with
  | zero => rfl
  | succ n ih => simp [fillBytes, ih]; omega

/-- A FILL alternates its two bytes, the even one first (42_frame_delta.md R118). -/
theorem fillBytes_getD (e o : Byte) (n j : Nat) (h : j < 2 * n) :
    (fillBytes e o n).getD j 0 = if j % 2 = 0 then e else o := by
  induction n generalizing j with
  | zero => omega
  | succ n ih =>
    match j with
    | 0 => simp [fillBytes]
    | 1 => simp [fillBytes]
    | j + 2 =>
      rw [fillBytes, List.getD_cons_succ, List.getD_cons_succ, ih j (by omega)]
      simp [Nat.add_mod_right]

/-- A frame that has its meaning is its own reference. -/
theorem keepReference_of_none {s : State} (h : s.freeFrame = none) : keepReference s = s := by
  cases s; cases h; rfl

/-- A frame without meaning gives a fresh one. -/
theorem keepReference_of_some {s : State} (h : s.freeFrame ≠ none) :
    keepReference s = { s with freeFrame := some s.freeCount, freeCount := s.freeCount + 1 } := by
  obtain ⟨k, hk⟩ := Option.ne_none_iff_exists'.mp h
  simp [keepReference, hk]

/-- Where it is not marked, the frame is what FB holds (60_exceptions.md R179). -/
theorem frameByte_of_none {s : State} (h : s.freeFrame = none) (a : Nat) : s.frameByte a = s.fb.read a := by
  unfold State.frameByte; rw [h]

/-- A refused interpretation is over (60_exceptions.md R179): it stands at the end of the stream with no cause, or at a byte of a
stream that has one, with a cause. -/
theorem refuseCommand_ends (s : State) :
    (refuseCommand s).ip ≤ s.dsLen ∧ ((refuseCommand s).cause = .none → (refuseCommand s).ip = s.dsLen) ∧
      ((refuseCommand s).cause ≠ .none → 0 < s.dsLen → (refuseCommand s).ip < s.dsLen) := by
  rw [refuseCommand_ip, refuseCommand_cause]
  split
  · rename_i h; exact ⟨Nat.le_refl _, fun _ => rfl, fun hc => absurd h hc⟩
  · rename_i h; exact ⟨by omega, fun hc => absurd hc h, fun _ _ => by omega⟩

/-! ### Commands -/

theorem fbSize_eq_npix (s : State) : s.fbSize = s.npix * 2 := rfl

/-- What CHECK_RANGES lets through (60_exceptions.md R164). -/
theorem checkRanges_none {s : State} :
    s.checkRanges = .none ↔
      s.lSrc.toNat + s.lStorage.toNat ≤ s.cfg.hostMemSize ∧
      s.lDst.toNat + 4 * s.npix ≤ s.cfg.hostMemSize ∧
      ¬(0 < s.lStorage.toNat ∧ 0 < s.npix ∧ s.lSrc.toNat < s.lDst.toNat + 4 * s.npix ∧
        s.lDst.toNat < s.lSrc.toNat + s.lStorage.toNat) ∧
      s.fbSize ≤ s.cfg.fbCap := by
  unfold State.checkRanges
  simp only
  split
  · simp; omega
  · split
    · simp; omega
    · split
      · rename_i h; simp only [reduceCtorEq, false_iff]; tauto
      · split
        · rename_i h1 h2 h3 h4
          simp only [reduceCtorEq, false_iff]; omega
        · rename_i h1 h2 h3 h4
          simp only [true_iff]
          exact ⟨by omega, by omega, h3, by omega⟩

end Sys2Proof.Machine
end

