-- ==== Sys2Proof/Laws/Engine.lean ====
section
/-! SUPPORT. What one engine step can be: one lemma per phase, each naming every case with what its bytes are. -/

namespace Sys2Proof.Machine

theorem tokenLength_pos (s : State) : 0 < s.tokenLength := by
  unfold State.tokenLength; split; · omega
  split; · omega
  split <;> omega

theorem tokenLength_le (s : State) : s.tokenLength ≤ 2 := by
  unfold State.tokenLength; split; · omega
  split; · omega
  split <;> omega

/-- Before the end of the input, the token it takes is inside it (41_lzss.md R101, R102). -/
theorem tokenLength_fits {s : State} (h : ¬ s.inputLen ≤ s.p) : s.p + s.tokenLength ≤ s.inputLen := by
  unfold State.tokenLength; split; · omega
  split; · omega
  split <;> omega

/-- One engine step of the LZSS stage (41_lzss.md R98): the end, DESCR, or one of the four token rows. -/
theorem engineStep_lzss {s : State} (hp : s.phase = .lzss) :
    (s.inputLen ≤ s.p ∧ engineStep s = .next (endLzss s)) ∨
    (¬ s.inputLen ≤ s.p ∧ s.din.length < s.tokenLength ∧
      engineStep s = execDescr (s.hostRead (s.lSrc.toNat + s.payloadPos)) s) ∨
    (¬ s.inputLen ≤ s.p ∧ s.tokenLength = 1 ∧ s.fbit = 8 ∧ ∃ f rest, s.din = f :: rest ∧
      engineStep s = execLzFlags f s) ∨
    (¬ s.inputLen ≤ s.p ∧ s.tokenLength = 1 ∧ s.fbit ≠ 8 ∧ s.flags.getLsbD s.fbit = true ∧ ∃ c rest, s.din = c :: rest ∧
      engineStep s = execLzLit c s) ∨
    (s.p + 1 = s.inputLen ∧ s.tokenLength = 1 ∧ s.fbit ≠ 8 ∧ s.flags.getLsbD s.fbit = false ∧
      ∃ b rest, s.din = b :: rest ∧ engineStep s = execLzRefPartial b s) ∨
    (s.p + 2 ≤ s.inputLen ∧ s.tokenLength = 2 ∧ s.fbit ≠ 8 ∧ s.flags.getLsbD s.fbit = false ∧
      ∃ b0 b1 rest, s.din = b0 :: b1 :: rest ∧
        engineStep s = execLzRef (refOffset b0 b1) (refLenCode b1) s) := by
  by_cases h1 : s.inputLen ≤ s.p
  · left
    refine ⟨h1, ?_⟩
    rw [engineStep]; simp only [fetch, hp, fetchLzss, if_pos h1]
    simp only [nextStage, hp]
  · right
    by_cases h2 : s.din.length < s.tokenLength
    · left
      refine ⟨h1, h2, ?_⟩
      rw [engineStep]; simp only [fetch, hp, fetchLzss, if_neg h1, if_pos h2]; rfl
    · right
      have hstep : engineStep s = runBytes s.tokenSource (s.din.take s.tokenLength) s := by
        rw [engineStep]; simp only [fetch, hp, fetchLzss, if_neg h1, if_neg h2]
      by_cases h3 : s.fbit = 8
      · left
        have hl : s.tokenLength = 1 := by simp [State.tokenLength, h3]
        refine ⟨h1, hl, h3, ?_⟩
        cases hd : s.din with
        | nil => rw [hd, hl] at h2; simp at h2
        | cons f rest =>
          refine ⟨f, rest, rfl, ?_⟩
          rw [hstep, State.tokenSource, if_pos h3, hl, hd]; rfl
      · by_cases h4 : s.flags.getLsbD s.fbit = true
        · right; left
          have hl : s.tokenLength = 1 := by simp [State.tokenLength, h3, h4]
          refine ⟨h1, hl, h3, h4, ?_⟩
          cases hd : s.din with
          | nil => rw [hd, hl] at h2; simp at h2
          | cons c rest =>
            refine ⟨c, rest, rfl, ?_⟩
            rw [hstep, State.tokenSource, if_neg h3, h4, hl, hd]; rfl
        · have h4' : s.flags.getLsbD s.fbit = false := by simpa using h4
          by_cases h5 : s.p + 1 = s.inputLen
          · right; right; left
            have hl : s.tokenLength = 1 := by simp [State.tokenLength, h5]
            refine ⟨h5, hl, h3, h4', ?_⟩
            cases hd : s.din with
            | nil => rw [hd, hl] at h2; simp at h2
            | cons b rest =>
              refine ⟨b, rest, rfl, ?_⟩
              rw [hstep, State.tokenSource, if_neg h3, h4', hl, hd]; rfl
          · right; right; right
            have hl : s.tokenLength = 2 := by simp [State.tokenLength, h3, h4', h5]
            refine ⟨by omega, hl, h3, h4', ?_⟩
            match hd : s.din with
            | [] => rw [hd, hl] at h2; simp at h2
            | [_] => rw [hd, hl] at h2; simp at h2
            | b0 :: b1 :: rest =>
              refine ⟨b0, b1, rest, rfl, ?_⟩
              rw [hstep, State.tokenSource, if_neg h3, h4', hl, hd]; rfl

/-- One engine step of the frame dispatch (42_frame_delta.md R110). -/
theorem engineStep_frame {s : State} (hp : s.phase = .frame) :
    engineStep s = if s.lType = 0 then execRawFrame s else execDeltaInit s.lType s := by
  rw [engineStep]; simp only [fetch, hp, runBytes, decode]
  split <;> rfl

/-- One engine step of INTERPRET (42_frame_delta.md R114): the end, or one operation. -/
theorem engineStep_interpret {s : State} (hp : s.phase = .interpret) :
    (¬(s.ip < s.dsLen ∧ s.cause = .none) ∧ engineStep s = .next (endInterpret s)) ∨
    ((s.ip < s.dsLen ∧ s.cause = .none) ∧
      ((∃ tail, s.ds.drop s.ip = 0x20 :: tail ∧ engineStep s = execCopy (.truncated tail) s) ∨
       (∃ d n data, data.length = scaled n ∧ s.ip + 9 + scaled n ≤ s.dsLen ∧
          engineStep s = execCopy (.full d n data) s) ∨
       (∃ tail, s.ds.drop s.ip = 0x40 :: tail ∧ engineStep s = execFill (.truncated tail) s) ∨
       (∃ p0 p1 d n, s.ip + 11 ≤ s.dsLen ∧ engineStep s = execFill (.full p0 p1 d n) s) ∨
       (∃ tail, s.ds.drop s.ip = 0x80 :: tail ∧ engineStep s = execOp80 s) ∨
       (∃ tag tail, s.ds.drop s.ip = tag :: tail ∧ unknownTag tag = true ∧ engineStep s = execUnknown tag s))) := by
  by_cases h : s.ip < s.dsLen ∧ s.cause = .none
  · right
    refine ⟨h, ?_⟩
    have hstep : engineStep s = runBytes .delta (s.ds.drop s.ip) s := by
      rw [engineStep]; simp only [fetch, hp, fetchDelta, if_pos h]
    have hlen : (s.ds.drop s.ip).length = s.dsLen - s.ip := List.length_drop
    cases hd : s.ds.drop s.ip with
    | nil =>
      rw [hd] at hlen
      simp only [List.length_nil] at hlen
      omega
    | cons tag tail =>
      rw [hd] at hstep hlen
      simp only [List.length_cons] at hlen
      simp only [runBytes, decode] at hstep
      rcases decodeDelta_cases tag tail with ⟨rfl, he⟩ | ⟨rfl, he⟩ | ⟨rfl, he⟩ | ⟨hu, he⟩
      · rw [he] at hstep
        rcases decodeCopy_cases tail with ⟨hc, _⟩ | ⟨d, n, data, rest, hc, hl, ht⟩
        · rw [hc] at hstep
          exact .inl ⟨tail, rfl, hstep⟩
        · rw [hc] at hstep
          refine .inr (.inl ⟨d, n, data, hl, ?_, hstep⟩)
          have : tail.length = 8 + scaled n + rest.length := by rw [ht]; simp [hl]; omega
          omega
      · rw [he] at hstep
        rcases decodeFill_cases tail with ⟨hc, _⟩ | ⟨p0, p1, d, n, rest, hc, ht⟩
        · rw [hc] at hstep
          exact .inr (.inr (.inl ⟨tail, rfl, hstep⟩))
        · rw [hc] at hstep
          refine .inr (.inr (.inr (.inl ⟨p0, p1, d, n, ?_, hstep⟩)))
          have : tail.length = 10 + rest.length := by rw [ht]; simp; omega
          omega
      · rw [he] at hstep
        exact .inr (.inr (.inr (.inr (.inl ⟨tail, rfl, hstep⟩))))
      · rw [he] at hstep
        exact .inr (.inr (.inr (.inr (.inr ⟨tag, tail, rfl, hu, hstep⟩))))
  · left
    refine ⟨h, ?_⟩
    rw [engineStep]; simp only [fetch, hp, fetchDelta, if_neg h]
    simp only [nextStage, hp]

/-- One engine step of CONVERT (43_color.md R131): the end, or one pixel's four bytes. -/
theorem engineStep_convert {s : State} (hp : s.phase = .convert) :
    (¬ s.pix < s.npix ∧ engineStep s = .next (endConvert s)) ∨
    (s.pix < s.npix ∧ ∃ r g b a, engineStep s = writePixel r g b a s) := by
  by_cases h : s.pix < s.npix
  · right
    refine ⟨h, ?_⟩
    rw [engineStep]; simp only [fetch, hp, fetchPixel, if_pos h, State.pixelBytes]
    split
    · simp only [runBytes, decode, decodePixel]
      split
      · exact ⟨_, _, _, _, rfl⟩
      · exact ⟨_, _, _, _, rfl⟩
    · exact ⟨_, _, _, _, rfl⟩
  · left
    refine ⟨h, ?_⟩
    rw [engineStep]; simp only [fetch, hp, fetchPixel, if_neg h]
    simp only [nextStage, hp]

theorem engineStep_idle {s : State} (hp : s.phase = .idle) : engineStep s = .next s := by
  rw [engineStep]; simp only [fetch, hp]; simp only [nextStage, hp]

theorem engineStep_refSelect {s : State} (hp : s.phase = .refSelect) : engineStep s = .next (refSelect s) := by
  rw [engineStep]; simp only [fetch, hp]; simp only [nextStage, hp]

theorem engineStep_dupTest {s : State} (hp : s.phase = .dupTest) : engineStep s = .next (dupTest s) := by
  rw [engineStep]; simp only [fetch, hp]; simp only [nextStage, hp]

theorem engineStep_lengthCheck {s : State} (hp : s.phase = .lengthCheck) : engineStep s = .next (lengthCheck s) := by
  rw [engineStep]; simp only [fetch, hp]; simp only [nextStage, hp]

theorem engineStep_interpretInit {s : State} (hp : s.phase = .interpretInit) :
    engineStep s = .next (beginInterpret s) := by
  rw [engineStep]; simp only [fetch, hp]; simp only [nextStage, hp]

theorem engineStep_complete {s : State} (hp : s.phase = .complete) : engineStep s = .next (complete s) := by
  rw [engineStep]; simp only [fetch, hp]; simp only [nextStage, hp]

/-! ### What the engine never touches -/

/-- The parameters, the host's registers, the latched command and the host's own side: no engine step changes them. The count of
free values is not among them, since the engine draws some (10_state.md R33, 60_exceptions.md R179). -/
def sameHostSide (s t : State) : Prop :=
  t = { t with
        cfg := s.cfg, irqEn := s.irqEn
        width := s.width, height := s.height, srcAddr := s.srcAddr, storageSize := s.storageSize
        originalSize := s.originalSize, chunkType := s.chunkType, dstAddr := s.dstAddr
        lWidth := s.lWidth, lHeight := s.lHeight, lSrc := s.lSrc, lStorage := s.lStorage
        lOriginal := s.lOriginal, lType := s.lType, lDst := s.lDst
        agenda := s.agenda, rdata := s.rdata, mdata := s.mdata }

theorem sameHostSide_refl (s : State) : sameHostSide s s := rfl

theorem sameHostSide_trans {s t u : State} (h1 : sameHostSide s t) (h2 : sameHostSide t u) : sameHostSide s u := by
  unfold sameHostSide at *
  rw [h2, h1]

theorem sameHostSide_copyRun (n : Nat) (s : State) : sameHostSide s (copyRun n s) := by
  unfold sameHostSide; rw [copyRun_frame]

theorem sameHostSide_fbWriteList (a : Nat) (vs : List Byte) (s : State) : sameHostSide s (fbWriteList a vs s) := by
  unfold sameHostSide; rw [fbWriteList_frame]

theorem engineStep_keeps_host_side {s t : State} (h : engineStep s = .next t) : sameHostSide s t := by
  cases hp : s.phase with
  | idle => rw [engineStep_idle hp] at h; cases h; rfl
  | refSelect =>
    rw [engineStep_refSelect hp] at h; cases h
    unfold refSelect; split <;> rfl
  | dupTest =>
    rw [engineStep_dupTest hp] at h; cases h
    unfold dupTest; split <;> rfl
  | lzss =>
    rcases engineStep_lzss hp with ⟨_, he⟩ | ⟨_, _, he⟩ | ⟨_, _, _, f, rest, _, he⟩ | ⟨_, _, _, _, c, rest, _, he⟩ |
      ⟨_, _, _, _, b, rest, _, he⟩ | ⟨_, _, _, _, b0, b1, rest, _, he⟩ <;> rw [he] at h
    · cases h; rfl
    · obtain ⟨_, rfl⟩ := execDescr_next.mp h; rfl
    · cases h; rfl
    · cases h; rfl
    · cases h; rfl
    · cases h
      exact sameHostSide_trans (t := { consume 2 s with r := refOffset b0 b1 }) rfl
        (sameHostSide_trans (sameHostSide_copyRun _ _) rfl)
  | lengthCheck => rw [engineStep_lengthCheck hp] at h; cases h; rfl
  | frame =>
    rw [engineStep_frame hp] at h
    split at h <;> cases h <;> rfl
  | interpretInit => rw [engineStep_interpretInit hp] at h; cases h; rfl
  | interpret =>
    rcases engineStep_interpret hp with ⟨_, he⟩ | ⟨_, h2⟩
    · rw [he] at h; cases h; rfl
    · rcases h2 with ⟨tail, _, he⟩ | ⟨d, n, data, _, _, he⟩ | ⟨tail, _, he⟩ | ⟨p0, p1, d, n, _, he⟩ | ⟨tail, _, he⟩ |
        ⟨tag, tail, _, _, he⟩ <;> rw [he] at h
      · cases h; rfl
      · unfold execCopy at h; simp only at h
        split at h <;> cases h
        · rfl
        · exact sameHostSide_trans (sameHostSide_fbWriteList _ _ _) rfl
      · cases h; rfl
      · unfold execFill at h; simp only at h
        split at h <;> cases h
        · rfl
        · exact sameHostSide_trans (sameHostSide_fbWriteList _ _ _) rfl
      · unfold execOp80 at h
        split at h <;> cases h <;> rfl
      · cases h; rfl
  | convert =>
    rcases engineStep_convert hp with ⟨_, he⟩ | ⟨_, r, g, b, a, he⟩ <;> rw [he] at h
    · cases h; rfl
    · obtain ⟨_, rfl⟩ := writePixel_next.mp h; rfl
  | complete => rw [engineStep_complete hp] at h; cases h; rfl

theorem engineRun_keeps_host_side (n : Nat) (s : State) : sameHostSide s (engineRun n s) := by
  induction n generalizing s with
  | zero => rfl
  | succ n ih =>
    rw [engineRun]
    split
    · rfl
    · split
      · rename_i u hu; exact sameHostSide_trans (engineStep_keeps_host_side hu) (ih u)
      · rfl
      · rfl

end Sys2Proof.Machine
end

