-- ==== Sys2Proof/Laws/Flags.lean ====
section
/-! SUPPORT. The words and channels the block computes, as numbers: the STATUS word and the converter's formulas. -/

namespace Sys2Proof.Machine

theorem toNat_append_add {n m : Nat} (x : BitVec n) (y : BitVec m) :
    (x ++ y).toNat = x.toNat * 2 ^ m + y.toNat := by
  rw [BitVec.toNat_append, ← Nat.shiftLeft_add_eq_or_of_lt y.isLt, Nat.shiftLeft_eq]

/-- The STATUS word as a sum of its fields at their places (10_state.md R22). -/
theorem statusWord_toNat (f : Status) :
    (statusWord f).toNat =
      f.busy.toNat + 2 * f.done.toNat + 4 * f.ignored.toNat + 8 * f.rejected.toNat + 16 * f.dup.toNat
        + 32 * f.blankRef.toNat + 64 * f.lenMismatch.toNat + 128 * f.dsOvf.toNat
        + 256 * (stopCode f.stopCause).toNat + 4096 * (rejectCode f.rejectCause).toNat
        + 65536 * f.clipped.toNat := by
  refine (toNat_append_add _ (BitVec.ofBool f.busy)).trans ?_
  iterate 10 (rw [toNat_append_add])
  simp only [BitVec.toNat_ofBool, BitVec.toNat_ofNat]
  omega

/-- A bit of a word, by its number. -/
theorem getLsbD_eq_div {n : Nat} (v : BitVec n) (k : Nat) : v.getLsbD k = (v.toNat / 2 ^ k % 2 == 1) := by
  rw [BitVec.getLsbD, Nat.testBit_eq_decide_div_mod_eq]; rfl

theorem le16_toNat (b0 b1 : Byte) : (le16 b0 b1).toNat = b0.toNat + 256 * b1.toNat := by
  rw [le16, toNat_append_add]; omega

theorem pixelOf_getElem (u : BitVec 1) (r g b : BitVec 5) (i : Nat) (h : i < 16) :
    (pixelOf u r g b)[i]'h =
      if i < 5 then b.getLsbD i
      else if i < 10 then g.getLsbD (i - 5)
      else if i < 15 then r.getLsbD (i - 10)
      else u.getLsbD (i - 15) := by
  rw [← BitVec.getLsbD_eq_getElem]; exact pixelOf_bit u r g b i

theorem channel_toNat (x : BitVec 5) : (x ++ 0#3 : BitVec 8).toNat = 8 * x.toNat := by
  revert x; decide

/-- Every output channel is its 5-bit field times 8 (43_color.md R133). -/
theorem redOf_pixelOf (u : BitVec 1) (r g b : BitVec 5) : (redOf (pixelOf u r g b)).toNat = 8 * r.toNat := by
  rw [← channel_toNat]
  refine congrArg BitVec.toNat (BitVec.eq_of_getLsbD_eq fun i hi => ?_)
  have h := getLsbD_append_cast r 0#3 (rfl : 5 + 3 = 8) i
  simp only [BitVec.cast_eq] at h
  rw [h]
  have : i = 0 ∨ i = 1 ∨ i = 2 ∨ i = 3 ∨ i = 4 ∨ i = 5 ∨ i = 6 ∨ i = 7 := by omega
  rcases this with rfl | rfl | rfl | rfl | rfl | rfl | rfl | rfl <;> simp [redOf, pixelOf_getElem]

theorem greenOf_pixelOf (u : BitVec 1) (r g b : BitVec 5) : (greenOf (pixelOf u r g b)).toNat = 8 * g.toNat := by
  rw [← channel_toNat]
  refine congrArg BitVec.toNat (BitVec.eq_of_getLsbD_eq fun i hi => ?_)
  have h := getLsbD_append_cast g 0#3 (rfl : 5 + 3 = 8) i
  simp only [BitVec.cast_eq] at h
  rw [h]
  have : i = 0 ∨ i = 1 ∨ i = 2 ∨ i = 3 ∨ i = 4 ∨ i = 5 ∨ i = 6 ∨ i = 7 := by omega
  rcases this with rfl | rfl | rfl | rfl | rfl | rfl | rfl | rfl <;> simp [greenOf, pixelOf_getElem]

theorem blueOf_pixelOf (u : BitVec 1) (r g b : BitVec 5) : (blueOf (pixelOf u r g b)).toNat = 8 * b.toNat := by
  rw [← channel_toNat]
  refine congrArg BitVec.toNat (BitVec.eq_of_getLsbD_eq fun i hi => ?_)
  have h := getLsbD_append_cast b 0#3 (rfl : 5 + 3 = 8) i
  simp only [BitVec.cast_eq] at h
  rw [h]
  have : i = 0 ∨ i = 1 ∨ i = 2 ∨ i = 3 ∨ i = 4 ∨ i = 5 ∨ i = 6 ∨ i = 7 := by omega
  rcases this with rfl | rfl | rfl | rfl | rfl | rfl | rfl | rfl <;> simp [blueOf, pixelOf_getElem]

end Sys2Proof.Machine
end

