-- ==== Sys2Proof/Laws/Lzss.lean ====
section
/-! SUPPORT. What a back-reference copy does, said once: the bytes it emits (`runBytesOf`), where they go, and how the run
repeats itself when it overlaps its own output. -/

namespace Sys2Proof.Machine

/-- The bytes a copy of `n` steps emits, in order. -/
def runBytesOf : Nat → State → List Byte
  | 0, _ => []
  | n + 1, s => s.dict.read s.r.toNat :: runBytesOf n (copyOne s)

@[simp] theorem runBytesOf_length (n : Nat) (s : State) : (runBytesOf n s).length = n := by
  induction n generalizing s with
  | zero => rfl
  | succ n ih => simp [runBytesOf, ih]

theorem copyRun_r (n : Nat) (s : State) : (copyRun n s).r.toNat = (s.r.toNat + n) % 4096 := by
  rw [copyRun_frame]
  simp only [BitVec.toNat_add, BitVec.toNat_ofNat]; omega

theorem copyRun_w (n : Nat) (s : State) : (copyRun n s).w.toNat = (s.w.toNat + n) % 4096 := by
  rw [copyRun_frame]
  simp only [BitVec.toNat_add, BitVec.toNat_ofNat]; omega

theorem copyRun_cfg (n : Nat) (s : State) : (copyRun n s).cfg = s.cfg := by rw [copyRun_frame]

/-- Byte j of a run is what the dictionary holds at the read cursor after j steps. -/
theorem runBytesOf_getD {n j : Nat} (h : j < n) (s : State) :
    (runBytesOf n s).getD j 0 = (copyRun j s).dict.read (copyRun j s).r.toNat := by
  induction n generalizing j s with
  | zero => omega
  | succ n ih =>
    cases j with
    | zero => rfl
    | succ j => rw [runBytesOf, List.getD_cons_succ, ih (by omega)]; rfl

/-- The dictionary after a run: the run's bytes from W on, mod 4096, and the old bytes elsewhere (41_lzss.md R97, R101). -/
theorem copyRun_dict_read {n : Nat} (hn : n ≤ 4096) {s : State} (hw : s.dict.wf = true) {k : Nat} (hk : k < 4096) :
    (copyRun n s).dict.read k =
      if (k + 4096 - s.w.toNat) % 4096 < n then (runBytesOf n s).getD ((k + 4096 - s.w.toNat) % 4096) 0
      else s.dict.read k := by
  induction n generalizing s with
  | zero => rw [if_neg (by omega)]; rfl
  | succ n ih =>
    have hw1 : (copyOne s).dict.wf = true := Memory.wf_write hw _ _
    have hwn : (copyOne s).w.toNat = (s.w.toNat + 1) % 4096 := by
      show (s.w + 1).toNat = _; rw [BitVec.toNat_add]; rfl
    have hr : (copyOne s).dict.read k = if k = s.w.toNat then s.dict.read s.r.toNat else s.dict.read k := by
      show Memory.read (Memory.write _ _ _) k = _
      rw [Memory.read_write hw]
    have hwl := s.w.isLt
    rw [copyRun, ih (by omega) hw1, hwn, hr]
    by_cases h0 : k = s.w.toNat
    · rw [if_neg (by omega), if_pos h0, if_pos (by omega), show (k + 4096 - s.w.toNat) % 4096 = 0 by omega]; rfl
    · have hd : (k + 4096 - s.w.toNat) % 4096 = (k + 4096 - (s.w.toNat + 1) % 4096) % 4096 + 1 := by omega
      rw [hd]
      by_cases h1 : (k + 4096 - (s.w.toNat + 1) % 4096) % 4096 < n
      · rw [if_pos h1, if_pos (by omega), runBytesOf, List.getD_cons_succ]
      · rw [if_neg h1, if_neg h0, if_neg (by omega)]

/-- The overlap rule: `behind` steps after its start a run reads its own output (41_lzss.md R101). -/
theorem runBytesOf_overlap {n j : Nat} (hn : n ≤ 4096) (h : j < n) {s : State} (hw : s.dict.wf = true) :
    (runBytesOf n s).getD j 0 =
      if 1 ≤ (s.w.toNat + 4096 - s.r.toNat) % 4096 ∧ (s.w.toNat + 4096 - s.r.toNat) % 4096 ≤ j then
        (runBytesOf n s).getD (j - (s.w.toNat + 4096 - s.r.toNat) % 4096) 0
      else s.dict.read ((s.r.toNat + j) % 4096) := by
  have hwl := s.w.isLt
  have hrl := s.r.isLt
  rw [runBytesOf_getD h, copyRun_r, copyRun_dict_read (by omega) hw (by omega)]
  by_cases hb : 1 ≤ (s.w.toNat + 4096 - s.r.toNat) % 4096 ∧ (s.w.toNat + 4096 - s.r.toNat) % 4096 ≤ j
  · have hi : ((s.r.toNat + j) % 4096 + 4096 - s.w.toNat) % 4096 = j - (s.w.toNat + 4096 - s.r.toNat) % 4096 := by omega
    rw [if_pos hb, hi, if_pos (by omega), runBytesOf_getD (by omega), runBytesOf_getD (by omega)]
  · rw [if_neg hb, if_neg (by omega)]

/-- Where a run's bytes go: all to the stream when DS is unbounded (41_lzss.md R97). -/
theorem copyRun_ds_unbounded {s : State} (hc : s.cfg.dsCap = none) (n : Nat) :
    (copyRun n s).ds = s.ds ++ runBytesOf n s ∧ (copyRun n s).status.dsOvf = s.status.dsOvf := by
  induction n generalizing s with
  | zero => exact ⟨(List.append_nil _).symm, rfl⟩
  | succ n ih =>
    have hroom : s.dsRoom = true := by unfold State.dsRoom; rw [hc]
    have h1 : (copyOne s).ds = s.ds ++ [s.dict.read s.r.toNat] := if_pos hroom
    have h2 : (copyOne s).status.dsOvf = s.status.dsOvf := if_pos hroom
    have hi := ih (s := copyOne s) hc
    rw [copyRun, runBytesOf, hi.1, hi.2, h1, h2, List.append_assoc]
    exact ⟨rfl, rfl⟩

/-- Where a run's bytes go: to the stream as far as DS_CAP goes, and DS_OVF is set when one was dropped (41_lzss.md R97). -/
theorem copyRun_ds_bounded {s : State} {cap : Nat} (hc : s.cfg.dsCap = some cap) (n : Nat) :
    (copyRun n s).ds = s.ds ++ (runBytesOf n s).take (cap - s.ds.length) ∧
      (copyRun n s).status.dsOvf = (s.status.dsOvf || decide (0 < n ∧ cap < s.ds.length + n)) := by
  induction n generalizing s with
  | zero => simp [copyRun, runBytesOf]
  | succ n ih =>
    have hi := ih (s := copyOne s) hc
    by_cases hl : s.ds.length < cap
    · have hroom : s.dsRoom = true := by unfold State.dsRoom; rw [hc]; simp [hl]
      have h1 : (copyOne s).ds = s.ds ++ [s.dict.read s.r.toNat] := if_pos hroom
      have h2 : (copyOne s).status.dsOvf = s.status.dsOvf := if_pos hroom
      rw [copyRun, runBytesOf, hi.1, hi.2, h1, h2]
      obtain ⟨m, hm⟩ : ∃ m, cap - s.ds.length = m + 1 := ⟨cap - s.ds.length - 1, by omega⟩
      have hm' : cap - (s.ds ++ [s.dict.read s.r.toNat]).length = m := by simp; omega
      rw [hm, hm', List.take_succ_cons, List.append_assoc]
      refine ⟨rfl, congrArg _ (decide_eq_decide.mpr ?_)⟩
      simp only [List.length_append, List.length_cons, List.length_nil]; omega
    · have hroom : s.dsRoom = false := by unfold State.dsRoom; rw [hc]; simp; omega
      have h1 : (copyOne s).ds = s.ds := by show (if s.dsRoom then _ else _) = _; rw [hroom]; rfl
      have h2 : (copyOne s).status.dsOvf = true := by show (if s.dsRoom then _ else _) = _; rw [hroom]; rfl
      rw [copyRun, runBytesOf, hi.1, hi.2, h1, h2, show cap - s.ds.length = 0 by omega]
      refine ⟨by simp, ?_⟩
      rw [Bool.true_or, decide_eq_true (by omega), Bool.or_true]

end Sys2Proof.Machine
end

