-- ==== Sys2Proof/Laws/PerInstr.lean ====
section
/-! SUPPORT. One lemma per instruction for the statement families of LAWS.json. -/

open Sys2Proof Sys2Proof.Machine

/-- How many bytes an instruction has in its source: 1 for DESCR, LZ.FLAGS, LZ.LIT, LZ.REF_PARTIAL and a chunk type, 2 for LZ.REF
(30_encoding.md R73) and a pixel (R83), 9 + 2·N for COPY and 11 for FILL (R76), the tag alone for OP80 and UNKNOWN (R77, R78),
4 for a register write (R87), and none for CVT.PAD (43_color.md R134). -/
def Sys2Proof.Laws.lengthOf : Instr → Nat
  | .descr _ => 1
  | .lzFlags _ => 1
  | .lzLit _ => 1
  | .lzRef _ _ => 2
  | .lzRefPartial _ => 1
  | .copy (.full _ n _) => 9 + 2 * n.toNat
  | .copy (.truncated tail) => 1 + tail.length
  | .fill (.full _ _ _ _) => 11
  | .fill (.truncated tail) => 1 + tail.length
  | .op80 => 1
  | .unknown _ => 1
  | .rawFrame => 1
  | .deltaInit _ => 1
  | .cvtKey => 2
  | .cvtPix _ _ _ _ => 2
  | .cvtPad => 0
  | .start _ _ => 4
  | .newSeq _ => 4
  | .clearStatus _ _ => 4

/-- The encoding of a well-formed instruction has the length the spec gives it. -/
def Sys2Proof.Laws.EncodedLength.Statement (i : Instr) : Prop :=
  i.wf = true → (encode i).length = Sys2Proof.Laws.lengthOf i

theorem Sys2Proof.Laws.EncodedLength.descr (x : Byte) : Sys2Proof.Laws.EncodedLength.Statement (.descr x) := fun _ => rfl
theorem Sys2Proof.Laws.EncodedLength.lzFlags (f : Byte) : Sys2Proof.Laws.EncodedLength.Statement (.lzFlags f) := fun _ => rfl
theorem Sys2Proof.Laws.EncodedLength.lzLit (c : Byte) : Sys2Proof.Laws.EncodedLength.Statement (.lzLit c) := fun _ => rfl
theorem Sys2Proof.Laws.EncodedLength.lzRef (off : DictIx) (lenCode : BitVec 4) :
    Sys2Proof.Laws.EncodedLength.Statement (.lzRef off lenCode) := fun _ => rfl
theorem Sys2Proof.Laws.EncodedLength.lzRefPartial (b0 : Byte) :
    Sys2Proof.Laws.EncodedLength.Statement (.lzRefPartial b0) := fun _ => rfl
theorem Sys2Proof.Laws.EncodedLength.copy (form : CopyForm) : Sys2Proof.Laws.EncodedLength.Statement (.copy form) := by
  intro h
  cases form with
  | full d n data =>
    have hl : data.length = 2 * n.toNat := of_decide_eq_true h
    show (0x20 :: (leBytes d ++ leBytes n ++ data)).length = 9 + 2 * n.toNat
    rw [List.length_cons, List.length_append, hl]
    show 8 + 2 * n.toNat + 1 = 9 + 2 * n.toNat
    omega
  | truncated tail => exact Nat.add_comm _ _
theorem Sys2Proof.Laws.EncodedLength.fill (form : FillForm) : Sys2Proof.Laws.EncodedLength.Statement (.fill form) := by
  intro _
  cases form with
  | full p0 p1 d n => rfl
  | truncated tail => exact Nat.add_comm _ _
theorem Sys2Proof.Laws.EncodedLength.op80 : Sys2Proof.Laws.EncodedLength.Statement .op80 := fun _ => rfl
theorem Sys2Proof.Laws.EncodedLength.unknown (tag : Byte) : Sys2Proof.Laws.EncodedLength.Statement (.unknown tag) := fun _ => rfl
theorem Sys2Proof.Laws.EncodedLength.rawFrame : Sys2Proof.Laws.EncodedLength.Statement .rawFrame := fun _ => rfl
theorem Sys2Proof.Laws.EncodedLength.deltaInit (ty : Byte) :
    Sys2Proof.Laws.EncodedLength.Statement (.deltaInit ty) := fun _ => rfl
theorem Sys2Proof.Laws.EncodedLength.cvtKey : Sys2Proof.Laws.EncodedLength.Statement .cvtKey := fun _ => rfl
theorem Sys2Proof.Laws.EncodedLength.cvtPix (unused : BitVec 1) (red green blue : BitVec 5) :
    Sys2Proof.Laws.EncodedLength.Statement (.cvtPix unused red green blue) := fun _ => rfl
theorem Sys2Proof.Laws.EncodedLength.cvtPad : Sys2Proof.Laws.EncodedLength.Statement .cvtPad := fun _ => rfl
theorem Sys2Proof.Laws.EncodedLength.start (newSeq irqEn : Bool) :
    Sys2Proof.Laws.EncodedLength.Statement (.start newSeq irqEn) := fun _ => rfl
theorem Sys2Proof.Laws.EncodedLength.newSeq (irqEn : Bool) :
    Sys2Proof.Laws.EncodedLength.Statement (.newSeq irqEn) := fun _ => rfl
theorem Sys2Proof.Laws.EncodedLength.clearStatus (done ignored : Bool) :
    Sys2Proof.Laws.EncodedLength.Statement (.clearStatus done ignored) := fun _ => rfl
end

