-- ==== Sys2Proof/Laws/Run.lean ====
section
/-! SUPPORT. Runs of the machine with nobody else to move: they are runs of the engine. -/

namespace Sys2Proof.Machine

theorem step_of_agenda_nil {s : State} (h : s.agenda = []) : step s = engineStep s := by rw [step, h]

theorem step_of_host {s : State} {a : HostAccess} {moves : List Turn} (h : s.agenda = .host a :: moves) :
    step s = hostStep a { s with agenda := moves } := by rw [step, h]

theorem step_of_reset {s : State} {moves : List Turn} (h : s.agenda = .reset :: moves) :
    step s = resetStep { s with agenda := moves } := by rw [step, h]

theorem run_succ (M : Host.Core) (k : Nat) (s : M.State) :
    Host.Core.run M (k + 1) s =
      match M.step s with
      | .next t => Host.Core.run M k t
      | .fault f => .fault f
      | .refused r => .refused r := by
  cases h : M.step s <;> simp only [Host.Core.run, h]

/-- With nobody else to move, a run is the engine's. -/
theorem run_engine {s : State} (h : s.agenda = []) (k : Nat) :
    Host.Core.run Sys2Proof.core (k + 1) s =
      match engineStep s with
      | .next t => Host.Core.run Sys2Proof.core k t
      | .fault f => .fault f
      | .refused r => .refused r := by
  have e : Sys2Proof.core.step s = engineStep s := step_of_agenda_nil h
  rw [run_succ Sys2Proof.core k s, e]
  cases engineStep s <;> rfl

theorem engineStep_agenda {s t : State} (h : engineStep s = .next t) : t.agenda = s.agenda := by
  have hk := engineStep_keeps_host_side h
  unfold sameHostSide at hk
  rw [hk]

theorem engineStep_cfg {s t : State} (h : engineStep s = .next t) : t.cfg = s.cfg := by
  have hk := engineStep_keeps_host_side h
  unfold sameHostSide at hk
  rw [hk]

/-- An idle engine stays as it is (60_exceptions.md R178). -/
theorem run_idle {s : State} (h : s.agenda = []) (hp : s.phase = .idle) (k : Nat) :
    Host.Core.run Sys2Proof.core k s = .next s := by
  induction k with
  | zero => rfl
  | succ k ih => rw [run_engine h, engineStep_idle hp]; exact ih

/-- Where the machine's run does not stop, the engine's own run to the end of the command ends in the same state. -/
theorem engineRun_of_run {s t : State} {k : Nat} (h : s.agenda = [])
    (hr : Host.Core.run Sys2Proof.core k s = .next t) : engineRun k s = t := by
  induction k generalizing s with
  | zero => cases hr; rfl
  | succ k ih =>
    rw [engineRun]
    by_cases hp : s.phase = .idle
    · rw [if_pos hp]
      rw [run_idle h hp] at hr
      cases hr; rfl
    · rw [if_neg hp]
      rw [run_engine h] at hr
      cases he : engineStep s with
      | next u => rw [he] at hr; exact ih (by rw [engineStep_agenda he, h]) hr
      | fault f => rw [he] at hr; cases hr
      | refused r => rw [he] at hr; cases hr

end Sys2Proof.Machine
end

