-- ==== Sys2Proof/Tests/Slice0.lean ====
section
/-! SUPPORT. The model's own tests: ill-formed terms, words written out from the spec's encodings, single instructions on the
spec's vectors (95_test_vectors.md), and for every obligation with hypotheses a state that meets them. -/

-- One theorem at a time: the tests are many, and each would otherwise take a thread of its own.
set_option Elab.async false

namespace Sys2Proof.Tests

open Sys2Proof Sys2Proof.Machine

/-! ### Helpers -/

/-- The next state of an outcome, if there is one. -/
def got (r : Result) : Option State :=
  match r with
  | .next t => some t
  | .fault _ => none
  | .refused _ => none

theorem next_of_got {r : Result} {t : State} (h : got r = some t) : r = .next t := by
  cases r with
  | next s => cases h; rfl
  | fault f => cases h
  | refused f => cases h

/-- The next state of an outcome, or reset. -/
def nextOf (r : Result) : State := (got r).getD State.reset

theorem next_nextOf {r : Result} (h : (got r).isSome = true) : r = .next (nextOf r) := by
  cases r with
  | next s => rfl
  | fault f => cases h
  | refused f => cases h

/-- 64 bytes of host memory, frames of at most 16 bytes. -/
def small : Config :=
  { hostMemSize := 64, fbCap := 16, dsCap := none, oobPolicy := .stop, op80Policy := .stop, fillOrder := .stream, regBase := none }

/-- A command for a frame of 2×1 pixels at address 56, running in a stage. -/
def inPhase (p : Phase) : State :=
  { State.resetWith small [] with
    phase := p, status := { Status.reset with busy := true }, lWidth := 2, lHeight := 1, lDst := 56, fbLen := 4 }

/-- The same machine idle, with the same command in its registers. -/
def idleState : State :=
  { State.resetWith small [] with width := 2, height := 1, dstAddr := 56, storageSize := 4 }

/-- A machine in a stage of a command, with a move of the host due. -/
def withMove (a : HostAccess) (s : State) : State := { s with agenda := [.host a] }

/-! ### Ill-formed terms are refused -/

theorem wf_copy_short_data : Instr.wf (.copy (.full 0 2 [1, 2, 3])) = false := by decide
theorem wf_copy_truncated_but_whole : Instr.wf (.copy (.truncated [0, 0, 0, 0, 1, 0, 0, 0, 9, 9])) = false := by decide
theorem wf_fill_truncated_but_whole : Instr.wf (.fill (.truncated [0, 0, 0, 0, 0, 0, 0, 0, 0, 0])) = false := by decide
theorem wf_unknown_with_defined_tag :
    Instr.wf (.unknown 0x20) = false ∧ Instr.wf (.unknown 0x40) = false ∧ Instr.wf (.unknown 0x80) = false := by decide
theorem wf_delta_init_of_type_0 : Instr.wf (.deltaInit 0) = false := by decide
theorem wf_pixel_that_is_the_key : Instr.wf (.cvtPix 0 0 31 0) = false := by decide

/-! ### Words written out from the encodings -/

/-- 40_descrambler.md R90. -/
theorem decode_descr : decode .payload [0x05, 0x01] = .ok (.descr 0x05, [0x01]) := by decide
/-- 30_encoding.md R70. -/
theorem decode_lzFlags : decode .flagByte [0b10101111] = .ok (.lzFlags 0xAF, []) := by decide
/-- 30_encoding.md R71. -/
theorem decode_lzLit : decode (.token true) [0x41] = .ok (.lzLit 0x41, []) := by decide
/-- LZ-12: `REF 0xFF1, 3` is `F1 F0`, `REF 0xFFE, 4` is `FE F1`, `REF 0x123, 18` is `23 1F`. -/
theorem decode_lzRef :
    decode (.token false) [0xF1, 0xF0] = .ok (.lzRef 0xFF1 0, []) ∧
    decode (.token false) [0xFE, 0xF1] = .ok (.lzRef 0xFFE 1, []) ∧
    decode (.token false) [0x23, 0x1F] = .ok (.lzRef 0x123 15, []) := by decide
/-- 41_lzss.md R102. -/
theorem decode_lzRefPartial : decode (.token false) [0x23] = .ok (.lzRefPartial 0x23, []) := by decide
/-- 42_frame_delta.md R117's example, and FD-9, whose data are cut off. -/
theorem decode_copy :
    decode .delta [0x20, 1, 0, 0, 0, 1, 0, 0, 0, 0x1F, 0x00, 0x07] = .ok (.copy (.full 1 1 [0x1F, 0x00]), [0x07]) ∧
    decode .delta [0x20, 0, 0, 0, 0, 2, 0, 0, 0, 1, 2, 3] =
      .ok (.copy (.truncated [0, 0, 0, 0, 2, 0, 0, 0, 1, 2, 3]), []) := by decide
/-- 42_frame_delta.md R118's example, and FD-10. -/
theorem decode_fill :
    decode .delta [0x40, 0xE0, 0x03, 0, 0, 0, 0, 2, 0, 0, 0] = .ok (.fill (.full 0xE0 0x03 0 2), []) ∧
    decode .delta [0x40, 1, 2, 3] = .ok (.fill (.truncated [1, 2, 3]), []) := by decide
/-- FD-15. -/
theorem decode_op80 : decode .delta [0x80, 1, 2] = .ok (.op80, [1, 2]) := by decide
/-- 30_encoding.md R80. -/
theorem decode_unknown :
    decode .delta [0x00] = .ok (.unknown 0x00, []) ∧ decode .delta [0x07] = .ok (.unknown 0x07, []) := by decide
/-- 42_frame_delta.md R110. -/
theorem decode_rawFrame : decode .chunkType [0] = .ok (.rawFrame, []) := by decide
/-- 42_frame_delta.md R110. -/
theorem decode_deltaInit :
    decode .chunkType [1] = .ok (.deltaInit 1, []) ∧ decode .chunkType [255] = .ok (.deltaInit 255, []) := by decide
/-- CV-1. -/
theorem decode_cvtKey : decode .pixel [0xE0, 0x03] = .ok (.cvtKey, []) := by decide
/-- CV-2, CV-3, CV-7: the sentinel with bit 15 set is an ordinary pixel. -/
theorem decode_cvtPix :
    decode .pixel [0xE0, 0x83] = .ok (.cvtPix 1 0 31 0, []) ∧ decode .pixel [0x1F, 0x00] = .ok (.cvtPix 0 0 0 31, []) ∧
    decode .pixel [0x00, 0x7C] = .ok (.cvtPix 0 31 0 0, []) := by decide
/-- CV-10: one byte is no pixel. -/
theorem decode_cvtPad : decode .pixel [0xE0] = .ok (.cvtPad, [0xE0]) ∧ decode .pixel [] = .ok (.cvtPad, []) := by decide
/-- 30_encoding.md R87: 0x1, 0x5 and 0b11. -/
theorem decode_start :
    decode .ctrlWrite [0x01, 0, 0, 0] = .ok (.start false false, []) ∧
    decode .ctrlWrite [0x05, 0, 0, 0] = .ok (.start false true, []) ∧
    decode .ctrlWrite [0x03, 0, 0, 0] = .ok (.start true false, []) := by decide
/-- 30_encoding.md R87: 0x2 and 0x6. -/
theorem decode_newSeq :
    decode .ctrlWrite [0x02, 0, 0, 0] = .ok (.newSeq false, []) ∧
    decode .ctrlWrite [0x06, 0, 0, 0] = .ok (.newSeq true, []) := by decide
/-- 30_encoding.md R87: CLEAR_DONE and CLEAR_IGNORED. -/
theorem decode_clearStatus :
    decode .statusWrite [0x02, 0, 0, 0] = .ok (.clearStatus true false, []) ∧
    decode .statusWrite [0x04, 0, 0, 0] = .ok (.clearStatus false true, []) := by decide
/-- 10_state.md R21: bits 1:0 = 0 issue no command. -/
theorem decode_no_command : decode .ctrlWrite [0x04, 0, 0, 0] = .error .noCommand := by decide
/-- Words of spec/opcode_table.json, with the bits above them zero. -/
theorem decode_table_words :
    decodeTableWord 8 0x20 = some (.copy (.full 0 0 [])) ∧ decodeTableWord 8 0x40 = some (.fill (.full 0 0 0 0)) ∧
    decodeTableWord 8 0x80 = some .op80 ∧ decodeTableWord 16 0x03E0 = some .cvtKey ∧
    decodeTableWord 8 0x01 = some (.start false false) ∧ decodeTableWord 8 0x02 = some (.newSeq false) := by decide
/-- A placed word is what the next step runs. -/
theorem placed_word_runs :
    got (step (State.reset.withFetchWord 8 0x80)) = got (exec .op80 (State.reset.withFetchWord 8 0x80)) ∧
    got (step (State.reset.withFetchWord 16 0x03E0)) = got (exec .cvtKey (State.reset.withFetchWord 16 0x03E0)) := by
  decide +kernel

/-! ### Single instructions, on the spec's vectors -/

/-- DS-1: x = 0x05 at n = 300 gives 0xD9, in the stage's input and in host memory. -/
theorem descr_ds1 :
    (got (exec (.descr 0x05) { State.reset with lSrc := 0x1000, p := 300 })).map (fun t => (t.din, t.mem)) =
      some ([0xD9], [(0x112C, 0xD9)]) := by decide +kernel
/-- DS-2: x = 0x00 at n = 1 wraps to 0xFF. -/
theorem descr_ds2 :
    (got (exec (.descr 0x00) { State.reset with p := 0, din := [0xAB] })).map (·.din) = some [0xAB, 0xFF] := by decide +kernel
/-- 41_lzss.md R99. -/
theorem lzFlags_loads :
    (got (exec (.lzFlags 0xFF) { inPhase .lzss with p := 9, din := [0xFF] })).map (fun t => (t.flags, t.fbit, t.p, t.din)) =
      some (0xFF, 0, 10, []) := by decide +kernel
/-- 41_lzss.md R100's example: at chunk start, `LIT 0x41`. -/
theorem lzLit_example :
    (got (exec (.lzLit 0x41) { inPhase .lzss with p := 1, fbit := 0, din := [0x41] })).map
      (fun t => (t.dict, t.w, t.ds, t.fbit, t.p)) = some ([(0xFEE, 0x41)], 0xFEF, [0x41], 1, 2) := by decide +kernel
/-- 41_lzss.md R100, R97: W wraps, and a full DS drops the byte from the stream only. -/
theorem lzLit_wraps_and_overflows :
    (got (exec (.lzLit 0x12) { inPhase .lzss with cfg := { small with dsCap := some 0 }, w := 0xFFF, fbit := 1 })).map
      (fun t => (t.dict, t.w, t.ds, t.status.dsOvf, t.produced)) = some ([(0xFFF, 0x12)], 0, [], true, 1) := by decide +kernel
/-- LZ-1: after `LIT 0x41`, `REF 0xFEE, 3` repeats the byte it is writing. -/
theorem lzRef_lz1 :
    (got (exec (.lzRef 0xFEE 0) { inPhase .lzss with dict := [(0xFEE, 0x41)], w := 0xFEF, ds := [0x41], fbit := 1 })).map
      (fun t => (t.ds, t.w, t.r)) = some ([0x41, 0x41, 0x41, 0x41], 0xFF2, 0xFF1) := by decide +kernel
/-- LZ-9: `REF 0xFFE, 4` with W = 0x000 reads through the wrap what it has just written. -/
theorem lzRef_lz9 :
    (got (exec (.lzRef 0xFFE 1)
        { inPhase .lzss with dict := [(0xFFE, 0x11), (0xFFF, 0x12)], w := 0, fbit := 2 })).map (fun t => (t.ds, t.w)) =
      some ([0x11, 0x12, 0x11, 0x12], 4) := by decide +kernel
/-- LZ-4: the byte is consumed with no output. -/
theorem lzRefPartial_lz4 :
    (got (exec (.lzRefPartial 0x42) { inPhase .lzss with p := 2, din := [0x42], ds := [0x41] })).map
      (fun t => (t.p, t.din, t.ds, t.w)) = some (3, [], [0x41], 0xFEE) := by decide +kernel
/-- FD-1. -/
theorem copy_fd1 :
    (got (exec (.copy (.full 1 1 [0x1F, 0x00])) (inPhase .interpret))).map (fun t => (t.fb, t.ip, t.ops, t.cause)) =
      some ([(2, 0x1F)], 11, 1, .none) := by decide +kernel
/-- FD-7: under CLIP the bytes past the frame are dropped. -/
theorem copy_fd7 :
    (got (exec (.copy (.full 1 2 [1, 2, 3, 4])) { inPhase .interpret with cfg := { small with oobPolicy := .clip } })).map
      (fun t => (t.fb, t.ip, t.status.clipped)) = some ([(2, 1), (3, 2)], 13, true) := by decide +kernel
/-- FD-2 and FD-3. -/
theorem fill_fd2_fd3 :
    (got (exec (.fill (.full 0xE0 0x03 0 2)) (inPhase .interpret))).map (fun t => (t.fb, t.ip)) =
      some ([(0, 0xE0), (1, 0x03), (2, 0xE0), (3, 0x03)], 11) ∧
    (got (exec (.fill (.full 0xE0 0x03 0 2))
        { inPhase .interpret with cfg := { small with fillOrder := .swapped } })).map (·.fb) =
      some [(0, 0x03), (1, 0xE0), (2, 0x03), (3, 0xE0)] := by decide +kernel
/-- FD-12, FD-13: N = 0 at the end of the frame completes, and past it stops. -/
theorem copy_fd12_fd13 :
    (got (exec (.copy (.full 2 0 [])) (inPhase .interpret))).map (fun t => (t.ip, t.cause)) = some (9, .none) ∧
    (got (exec (.copy (.full 3 0 [])) (inPhase .interpret))).map (fun t => (t.ip, t.cause)) = some (0, .frameOob) := by
  decide +kernel
/-- FD-15. -/
theorem op80_fd15 :
    (got (exec .op80 { inPhase .interpret with ds := [0x80, 1, 2] })).map (fun t => (t.cause, t.ip, t.ops, t.fb)) =
      some (.op80, 0, 0, []) := by decide +kernel
/-- 60_exceptions.md R179: under REFUSE the command goes on, and its frame is marked; the next type-0 chunk and the next keyframe
end the mark, and the blank canvas does too. -/
theorem op80_refused :
    (let s := { inPhase .interpret with cfg := { small with op80Policy := .refuse }, ds := [0x80], freeCount := 7 };
      (got (exec .op80 s)).map (fun t => (t.freeFrame, t.freeCount, t.fb, t.phase)) = some (some 7, 8, [], .interpret)) ∧
    (got (exec .rawFrame { inPhase .frame with freeFrame := some 7 })).map (·.freeFrame) = some none ∧
    (got (exec (.deltaInit 1) { inPhase .frame with freeFrame := some 7 })).map (·.freeFrame) = some none ∧
    (got (exec (.deltaInit 2) { inPhase .frame with freeFrame := some 7 })).map (·.freeFrame) = some (some 7) ∧
    (got (step { inPhase .refSelect with freeFrame := some 7 })).map (·.freeFrame) = some none := by decide +kernel
/-- 10_state.md R33: nothing of the chunk before is left in the LZSS state; R and FLAGS are free values. -/
theorem lzss_state_is_fresh :
    (got (step { inPhase .dupTest with lStorage := 1, dict := [(7, 7)], w := 9, fbit := 3, freeCount := 4 })).map
      (fun t => (t.dict, t.w, t.fbit, t.freeCount)) = some ([], 0xFEE, 8, 5) := by decide +kernel
/-- FD-4. -/
theorem unknown_fd4 :
    (got (exec (.unknown 7) { inPhase .interpret with ip := 11, ops := 1 })).map (fun t => (t.cause, t.ip, t.ops)) =
      some (.unknownOp, 11, 1) := by decide +kernel
/-- FD-19: a short stream is zero-filled over what the frame held. -/
theorem rawFrame_fd19 :
    (got (exec .rawFrame { inPhase .frame with ds := [0x1F, 0x00, 0xE0], fb := [(0, 9), (3, 9)] })).map
      (fun t => (t.fb, t.fbLen, t.phase)) = some ([(0, 0x1F), (2, 0xE0)], 3, .convert) := by decide +kernel
/-- FD-20: bytes past the frame are ignored. -/
theorem rawFrame_fd20 :
    (got (exec .rawFrame { inPhase .frame with ds := [1, 2, 3, 4, 5, 6] })).map (fun t => (t.fb, t.fbLen)) =
      some ([(0, 1), (1, 2), (2, 3), (3, 4)], 4) := by decide +kernel
/-- FD-17, FD-18: type 2 keeps the reference, type 5 is a keyframe. -/
theorem deltaInit_fd17_fd18 :
    (got (exec (.deltaInit 2) { inPhase .frame with fb := [(0, 1), (3, 4)], fbLen := 3 })).map (fun t => (t.fb, t.fbLen)) =
      some ([(0, 1), (3, 4)], 4) ∧
    (got (exec (.deltaInit 5) { inPhase .frame with fb := [(0, 1), (3, 4)] })).map (·.fb) = some [] := by decide +kernel
/-- CV-1: the key pixel overwrites what the buffer held. -/
theorem cvtKey_cv1 :
    (got (exec .cvtKey { inPhase .convert with mem := [(56, 7), (59, 7), (60, 7)] })).map (fun t => (t.mem, t.pix)) =
      some ([(60, 7)], 1) := by decide +kernel
/-- CV-2 and CV-7. -/
theorem cvtPix_cv2_cv7 :
    (got (exec (.cvtPix 1 0 31 0) { inPhase .convert with pix := 1 })).map (fun t => (t.mem, t.pix)) =
      some ([(61, 0xF8), (63, 0xFF)], 2) ∧
    (got (exec (.cvtPix 0 31 0 0) (inPhase .convert))).map (·.mem) = some [(56, 0xF8), (59, 0xFF)] := by decide +kernel
/-- CV-8. -/
theorem cvtPix_cv8 :
    (got (exec (.cvtPix 0 1 1 1) (inPhase .convert))).map (·.mem) = some [(56, 8), (57, 8), (58, 8), (59, 0xFF)] := by
  decide +kernel
/-- CV-10. -/
theorem cvtPad_cv10 :
    (got (exec .cvtPad { inPhase .convert with pix := 1, mem := [(60, 7), (63, 7)] })).map (fun t => (t.mem, t.pix)) =
      some ([], 2) := by decide +kernel
/-- CM-1 and CM-6: the STATUS word after a rejection. -/
theorem start_cm1_cm6 :
    (got (exec (.start false false)
        { State.reset with srcAddr := 0xFFFFFFFF, storageSize := 2, width := 1, height := 1, dstAddr := 0x2000 })).map
      (fun t => statusWord t.status) = some 0x0000100A ∧
    (got (exec (.start false false)
        { State.reset with srcAddr := 0xFFFFFFFF, storageSize := 2, width := 2, height := 1, dstAddr := 0xFFFFFFFC })).map
      (fun t => statusWord t.status) = some 0x0000100A := by decide +kernel
/-- 00_scope.md R13, 10_state.md R34: a rejection leaves the latched copies alone; an acceptance makes them. -/
theorem start_latches_on_acceptance :
    (got (exec (.start false false) { idleState with srcAddr := 61, lSrc := 7, lWidth := 9 })).map
      (fun t => (t.status.rejected, t.lSrc, t.lWidth)) = some (true, 7, 9) ∧
    (got (exec (.start false false) { idleState with lSrc := 7, lWidth := 9 })).map
      (fun t => (t.status.busy, t.lSrc, t.lWidth)) = some (true, 0, 2) := by decide +kernel
/-- CM-3, CM-4: the overlap test, and an empty range that overlaps nothing. -/
theorem start_cm3_cm4 :
    (got (exec (.start false false)
        { State.reset with srcAddr := 0x1000, storageSize := 0x10, width := 1, height := 1, dstAddr := 0x1008 })).map
      (fun t => statusWord t.status) = some 0x0000300A ∧
    (got (exec (.start false false)
        { State.reset with srcAddr := 0x1000, width := 1, height := 1, dstAddr := 0x1008 })).map
      (fun t => (statusWord t.status, t.phase)) = some (0x00000001, .refSelect) := by decide +kernel
/-- 44_command.md R149. -/
theorem newSeq_clears :
    (got (exec (.newSeq true) { State.reset with prevValid := true, fbLen := 4 })).map (fun t => (t.prevValid, t.fbLen, t.irqEn)) =
      some (false, 4, true) := by decide +kernel
/-- CM-8: a command written while busy sets IGNORED. -/
theorem newSeq_cm8 :
    (got (exec (.newSeq false) { inPhase .convert with prevValid := true })).map (fun t => (t.prevValid, t.status.ignored, t.phase)) =
      some (true, true, .convert) := by decide +kernel
/-- CM-8, CM-9: a STATUS write of 0x4 clears IGNORED and leaves DONE; one of 0x2 clears DONE and `irq`. -/
theorem clearStatus_cm8_cm9 :
    (got (exec (.clearStatus false true)
        { State.reset with status := { Status.reset with done := true, ignored := true } })).map (fun t => statusWord t.status) =
      some 0x2 ∧
    (got (exec (.clearStatus true false)
        { State.reset with irqEn := true, status := { Status.reset with done := true } })).map (·.irq) = some false := by
  decide +kernel
/-- CM-11: a write of all ones to WIDTH and CHUNK_TYPE reads back the bits they have. -/
theorem registers_cm11 :
    State.regWord (storeReg 0x08 0xFFFFFFFF State.reset) 0x08 = 0x0000FFFF ∧
    State.regWord (storeReg 0x1C 0xFFFFFFFF State.reset) 0x1C = 0x000000FF ∧
    State.regWord State.reset 0x40 = 0 ∧ storeReg 0x24 1 State.reset = State.reset := by decide +kernel

/-! ### A state that meets the hypotheses of each obligation

`wit_<Name>` is for `Obligations.<Name>`: one conjunct per clause, at a boundary of its range. An obligation not named here has
no hypotheses. -/

/-- What can be decided of the invariant, for a state whose frame is blank or holds no previous frame yet. -/
abbrev InvCheck (s : State) : Prop :=
  (s.cfg.ok = true ∧ s.cfg.dsCap = none) ∧
  (s.mem.wf = true ∧ s.mem.below s.cfg.hostMemSize = true ∧ s.oldMem.wf = true ∧ s.oldMem.below s.cfg.hostMemSize = true ∧
    s.dict.wf = true ∧ s.dict.below 4096 = true ∧ s.fb.wf = true ∧ s.fb.below s.cfg.fbCap = true) ∧
  (s.fbit ≤ 8 ∧ s.ds.length ≤ s.produced ∧ (s.phase = .lzss → s.p + s.din.length ≤ s.inputLen) ∧
    (s.phase = .lzss → s.din.length ≤ s.tokenLength) ∧ (s.phase = .interpret → s.ip ≤ s.dsLen) ∧
    (s.phase = .convert → s.pix ≤ s.npix)) ∧
  ((s.status.busy = true ↔ s.phase ≠ .idle) ∧ (s.phase ≠ .idle → s.checkRanges = .none)) ∧
  (s.fb = [] ∨ (s.phase.beforeRef = true ∧ s.prevValid = false)) ∧
  ((s.prevValid = true → s.fbLen ≤ s.prevFbSize) ∧ (s.phase.beforeRef = false → s.fbLen ≤ s.fbSize) ∧
    (s.phase.interpreting = true → s.fbLen = s.fbSize) ∧ (s.cfg.op80Policy = .stop → s.freeFrame = none))

theorem inv_of_check {s : State} (h : InvCheck s) : Inv s := by
  obtain ⟨⟨c1, c2⟩, ⟨m1, m2, m3, m4, m5, m6, m7, m8⟩, ⟨n1, n2, n3, n4, n5, n6⟩, ⟨b1, b2⟩, hf, f1, f2, f3, f4⟩ := h
  refine ⟨c1, ⟨m1, m2, m3, m4, m5, m6, m7, m8⟩, ⟨n1, ?_, n2, n3, n4, n5, n6⟩, ⟨b1, b2⟩, ?_, ?_, f3, f4⟩
  · intro cap hc
    rw [c2] at hc
    cases hc
  · intro hb hv
    refine ⟨f1 hv, fun a _ _ => ?_⟩
    rcases hf with hf | ⟨_, hv'⟩
    · rw [hf]; rfl
    · rw [hv] at hv'; cases hv'
  · intro hb
    refine ⟨f2 hb, fun a _ _ => ?_⟩
    rcases hf with hf | ⟨hb', _⟩
    · rw [hf]; rfl
    · rw [hb] at hb'; cases hb'

/-- Clause 2 for a delimited form, and a form that is not. -/
theorem wit_DecodeEncodeAgree :
    (Instr.wf (.copy (.full 0xFFFFFFFF 1 [1, 2])) = true ∧ Instr.delimited (.copy (.full 0xFFFFFFFF 1 [1, 2])) = true) ∧
    (Instr.wf (.lzRef 0xFFF 15) = true ∧ Instr.delimited (.lzRef 0xFFF 15) = true) ∧
    (Instr.wf (.fill (.truncated [1, 2, 3, 4, 5, 6, 7, 8, 9])) = true) ∧ Instr.wf (.deltaInit 255) = true ∧
    Instr.wf (.cvtPix 1 0 31 0) = true := by decide

theorem wit_DecodedBytesReencode :
    (decode .delta [0x21, 1] = .ok (.unknown 0x21, [1]) ∧ Source.delta ≠ .ctrlWrite ∧ Source.delta ≠ .statusWrite) ∧
    decode .ctrlWrite [0xFD, 0xFF, 0xFF, 0xFF, 9] = .ok (.start false true, [9]) := by decide

theorem wit_EveryFetchDecodes :
    fetch { inPhase .lzss with lStorage := 1, din := [0xFF] } = some (.flagByte, [0xFF]) ∧
    fetch { inPhase .lzss with lStorage := 1, fbit := 7, flags := 0x7F, din := [0xAA] } = some (.token false, [0xAA]) ∧
    fetch { inPhase .interpret with ds := [0x20] } = some (.delta, [0x20]) ∧
    fetch (inPhase .frame) = some (.chunkType, [0]) ∧
    fetch { inPhase .convert with pix := 1, fbLen := 3 } = some (.pixel, []) := by decide +kernel

/-- Clauses in order: COPY cut off in its fields and in its data, COPY that ends the stream, FILL one byte short and whole, OP80,
UNKNOWN next to a defined tag. -/
theorem wit_DeltaOperationsAreRead :
    (0 < [0x20, 0, 0, 0, 0, 0, 0, 0].length ∧ [0x20, 0, 0, 0, 0, 0, 0, 0].length < 0 + 9) ∧
    (0 + 9 ≤ [0x20, 0, 0, 0, 0, 1, 0, 0, 0, 7].length ∧
      [0x20, 0, 0, 0, 0, 1, 0, 0, 0, 7].length < 0 + 9 + 2 * (le32 1 0 0 0).toNat) ∧
    (1 + 9 + 2 * (le32 1 0 0 0).toNat ≤ [0x07, 0x20, 0, 0, 0, 0, 1, 0, 0, 0, 7, 8].length) ∧
    ([0x40, 0, 0, 0, 0, 0, 0, 0, 0, 0].length < 0 + 11) ∧ (0 + 11 ≤ [0x40, 0, 0, 0, 0, 0, 0, 0, 0, 0, 0].length) ∧
    ([0x80].getD (0 + 0) 0 = 0x80) ∧ ([0x81].getD (0 + 0) 0 ≠ 0x80) := by decide +kernel

theorem wit_StepRunsDecodedInstruction :
    (fetch { inPhase .lzss with lStorage := 1, din := [0xFF] } = some (.flagByte, [0xFF]) ∧
      decode .flagByte [0xFF] = .ok (.lzFlags 0xFF, []) ∧ (inPhase .lzss).agenda = []) ∧
    (fetch { inPhase .frame with agenda := [.engine] } = some (.chunkType, [0]) ∧
      decode .chunkType [0] = .ok (.rawFrame, [])) ∧
    ((withMove (.regWrite 4 0x00 7) idleState).agenda = [.host (.regWrite 4 0x00 7)] ∧
      decode .ctrlWrite (leBytes 7) = .ok (.start true true, [])) ∧
    ((withMove (.regWrite 4 0x04 6) idleState).agenda = [.host (.regWrite 4 0x04 6)] ∧
      decode .statusWrite (leBytes 6) = .ok (.clearStatus true true, [])) ∧
    (idleState.phase = .idle ∧ idleState.agenda = []) ∧
    ({ idleState with agenda := [.engine] }).agenda = .engine :: [] := by decide +kernel

/-- Clauses in order, each with P as close to the end of the input as it goes. -/
theorem wit_LzssLoopRunsNextToken :
    (inPhase .lzss).agenda = [] ∧ (inPhase .lzss).phase = .lzss ∧
    (let s := { inPhase .lzss with lStorage := 2, p := 2 }; s.inputLen ≤ s.p) ∧
    (let s := { inPhase .lzss with lStorage := 2, p := 1, din := [9] }; s.p < s.inputLen ∧ s.fbit = 8) ∧
    (let s := { inPhase .lzss with lStorage := 2, p := 1, din := [9], fbit := 7, flags := 0x80 };
      s.p < s.inputLen ∧ s.fbit ≠ 8 ∧ s.flags.getLsbD s.fbit = true) ∧
    (let s := { inPhase .lzss with lStorage := 2, p := 1, din := [9], fbit := 7, flags := 0x7F };
      s.p + 1 = s.inputLen ∧ s.fbit ≠ 8 ∧ s.flags.getLsbD s.fbit = false) ∧
    (let s := { inPhase .lzss with lStorage := 3, p := 1, din := [9, 8], fbit := 0, flags := 0xFE };
      s.p + 1 < s.inputLen ∧ s.fbit ≠ 8 ∧ s.flags.getLsbD s.fbit = false) ∧
    (let s := { inPhase .lzss with lStorage := 2, p := 1, fbit := 0, flags := 1 }; s.p < s.inputLen ∧ s.din = []) ∧
    (let s := { inPhase .lzss with lStorage := 3, p := 1, din := [9], fbit := 0 };
      s.p < s.inputLen ∧ s.fbit ≠ 8 ∧ s.flags.getLsbD s.fbit = false ∧ s.p + 1 < s.inputLen) := by decide +kernel

theorem wit_FrameStageSequence :
    ((inPhase .frame).agenda = [] ∧ (inPhase .frame).phase = .frame ∧ (inPhase .frame).lType = 0) ∧
    ({ inPhase .frame with lType := 255 }.lType ≠ 0) ∧ (inPhase .interpretInit).phase = .interpretInit ∧
    (let s := { inPhase .interpret with ds := [0x40, 0x07], ip := 1 };
      s.phase = .interpret ∧ s.ip + 1 = s.ds.length ∧ s.cause = .none ∧
        decode .delta (s.ds.drop s.ip) = .ok (.unknown 0x07, [])) ∧
    (let s := { inPhase .interpret with ds := [0x40], ip := 1 }; s.dsLen ≤ s.ip ∧ s.cause = .none) ∧
    (let s := { inPhase .interpret with ds := [0x07], ip := 0, cause := .unknownOp }; ¬s.dsLen ≤ s.ip ∧ s.cause ≠ .none) := by
  decide +kernel

/-- The last byte of host memory. -/
theorem wit_DescrResult :
    let s := { inPhase .lzss with lSrc := 60, lStorage := 4, p := 2, din := [7] }
    s.mem.wf = true ∧ s.lSrc.toNat + (s.p + s.din.length) + 1 = s.cfg.hostMemSize := by decide +kernel

theorem wit_WritesOutsideHostMemoryFault :
    (let s := { inPhase .lzss with lSrc := 60, p := 4 }; s.cfg.hostMemSize = s.lSrc.toNat + (s.p + s.din.length)) ∧
    (let s := { inPhase .convert with lDst := 61 }; s.cfg.hostMemSize + 1 = s.lDst.toNat + 4 * s.pix + 4) := by decide +kernel

/-- DS unbounded, with room for one byte, and full. -/
theorem wit_LzLitResult :
    (inPhase .lzss).dict.wf = true ∧ (inPhase .lzss).cfg.dsCap = none ∧
    (let s := { inPhase .lzss with cfg := { small with dsCap := some 2 }, ds := [1] }; s.cfg.dsCap = some 2 ∧ s.ds.length + 1 = 2) ∧
    (let s := { inPhase .lzss with cfg := { small with dsCap := some 1 }, ds := [1] }; s.cfg.dsCap = some 1 ∧ 1 ≤ s.ds.length) := by
  decide +kernel

/-- The run starts at W, one byte behind it, and one byte ahead of it; DS is unbounded or fills up within the run. -/
theorem wit_LzRefResult :
    (inPhase .lzss).dict.wf = true ∧
    ((inPhase .lzss).w.toNat + 4096 - (0xFEE : DictIx).toNat) % 4096 = 0 ∧
    ((inPhase .lzss).w.toNat + 4096 - (0xFED : DictIx).toNat) % 4096 = 1 ∧
    ((inPhase .lzss).w.toNat + 4096 - (0xFEF : DictIx).toNat) % 4096 = 4095 ∧
    (inPhase .lzss).cfg.dsCap = none ∧
    (let s := { inPhase .lzss with cfg := { small with dsCap := some 4 } };
      s.cfg.dsCap = some 4 ∧ 4 < s.ds.length + ((2 : BitVec 4).toNat + 3)) := by decide +kernel

theorem wit_LzssStageStartsFresh :
    (let s := { inPhase .dupTest with lStorage := 1 }; s.agenda = [] ∧ s.phase = .dupTest ∧ s.lStorage ≠ 0 ∧ s.lOriginal = 0) ∧
    (let s := { inPhase .dupTest with lOriginal := 1 }; s.agenda = [] ∧ s.phase = .dupTest ∧ s.lStorage = 0 ∧ s.lOriginal ≠ 0) := by
  decide +kernel

theorem wit_LzssStageDecodes :
    let s := { inPhase .dupTest with lStorage := 3, mem := [(1, 0xEF), (2, 0xF1)] }
    Inv s ∧ s.agenda = [] ∧ s.phase = .dupTest ∧ (s.lStorage ≠ 0 ∨ s.lOriginal ≠ 0) ∧
      s.payload = [0x00, 0xEE, 0xEF] := by
  refine ⟨inv_of_check (by decide +kernel), ?_⟩
  decide +kernel

theorem wit_RawFrameResult :
    (let s := { inPhase .frame with ds := [1, 2, 3], fb := [(3, 9), (4, 9)] }; s.fb.wf = true ∧ s.ds.length < s.fbSize) ∧
    (let s := { inPhase .frame with ds := [1, 2, 3, 4] }; s.fb.wf = true ∧ s.ds.length = s.fbSize) := by decide +kernel

theorem wit_DeltaInitResult : ({ inPhase .frame with fb := [(3, 9), (4, 9)] }).fb.wf = true := by decide +kernel

/-- A COPY that ends at the end of the frame, and under CLIP one that passes it. -/
theorem wit_CopyResult :
    (let s := inPhase .interpret;
      s.fb.wf = true ∧ [(7 : Byte), 8].length = 2 * (1 : Word).toNat ∧
        s.cfg.oobPolicy = .stop ∧ 2 * (1 : Word).toNat + 2 * (1 : Word).toNat = s.fbSize) ∧
    (let s := { inPhase .interpret with cfg := { small with oobPolicy := .clip } };
      s.fb.wf = true ∧ [(7 : Byte), 8].length = 2 * (1 : Word).toNat ∧
        s.cfg.oobPolicy ≠ .stop ∧ s.fbSize < 2 * (2 : Word).toNat + 2 * (1 : Word).toNat) := by decide +kernel

theorem wit_FillResult :
    (let s := inPhase .interpret;
      s.fb.wf = true ∧ s.cfg.fillOrder = .stream ∧ s.cfg.oobPolicy = .stop ∧
        2 * (0 : Word).toNat + 2 * (2 : Word).toNat = s.fbSize) ∧
    (let s := { inPhase .interpret with cfg := { small with oobPolicy := .clip, fillOrder := .swapped } };
      s.fb.wf = true ∧ s.cfg.fillOrder ≠ .stream ∧ s.cfg.oobPolicy ≠ .stop ∧
        s.fbSize < 2 * (0xFFFFFFFF : Word).toNat + 2 * (0xFFFFFFFF : Word).toNat) := by decide +kernel

theorem wit_CopyFillStops :
    let s := inPhase .interpret
    s.cfg.oobPolicy = .stop ∧ s.fbSize + 2 = 2 * (3 : Word).toNat + 2 * (0 : Word).toNat := by decide +kernel

theorem wit_TagStops :
    (inPhase .interpret).cfg.op80Policy = .stop ∧
    ({ inPhase .interpret with cfg := { small with op80Policy := .refuse } }).cfg.op80Policy = .refuse := by decide +kernel

theorem wit_DeltaOperationsDoNotReadFrame :
    let s := { inPhase .interpret with fb := [(0, 1), (2, 3)] }
    s.fb.wf = true ∧ Memory.wf [(0, 9)] = true ∧ (got (exec (.copy (.full 0 1 [5, 6])) s)).isSome = true ∧
      (got (exec (.fill (.full 5 6 0 1)) s)).isSome = true ∧ (got (exec .op80 s)).isSome = true ∧
      (got (exec (.unknown 0) s)).isSome = true := by decide +kernel

/-- The last pixel of host memory. -/
theorem wit_ConverterResult :
    let s := { inPhase .convert with pix := 1 }
    s.mem.wf = true ∧ s.lDst.toNat + 4 * s.pix + 4 = s.cfg.hostMemSize := by decide +kernel

/-- Clauses in order: the end, a pixel one byte short, the key, its neighbour, and the last pixel of host memory. -/
theorem wit_PixelLoopConvertsNextPixel :
    ((inPhase .convert).agenda = [] ∧ (inPhase .convert).phase = .convert ∧ (inPhase .convert).freeFrame = none) ∧
    (let s := { inPhase .convert with pix := 2 }; s.npix ≤ s.pix) ∧
    (let s := { inPhase .convert with pix := 1, fbLen := 3 }; s.pix < s.npix ∧ s.fbLen ≤ 2 * s.pix + 1) ∧
    (let s := { inPhase .convert with pix := 1, fb := [(2, 0xE0), (3, 0x03)] };
      s.pix < s.npix ∧ 2 * s.pix + 1 < s.fbLen ∧
        (s.frameByte (2 * s.pix)).toNat + 256 * (s.frameByte (2 * s.pix + 1)).toNat = 992) ∧
    (let s := { inPhase .convert with pix := 1, fb := [(2, 0xDF), (3, 0x03)] };
      s.pix < s.npix ∧ 2 * s.pix + 1 < s.fbLen ∧
        (s.frameByte (2 * s.pix)).toNat + 256 * (s.frameByte (2 * s.pix + 1)).toNat ≠ 992) ∧
    (let s := { inPhase .convert with pix := 1 };
      s.pix < s.npix ∧ s.mem.wf = true ∧ s.lDst.toNat + 4 * s.pix + 4 = s.cfg.hostMemSize) := by decide +kernel

theorem wit_ChannelRange :
    let s := { inPhase .convert with pix := 1 }
    s.mem.wf = true ∧ (got (exec .cvtKey s)).isSome = true ∧ (got (exec .cvtPad s)).isSome = true ∧
      (got (exec (.cvtPix 1 31 31 31) s)).isSome = true := by decide +kernel

/-- Ranges that end at the end of memory and at each other, a frame that just fits, and a register block that touches both. -/
theorem wit_StartAccepted :
    (let s := { idleState with srcAddr := 52 };
      s.status.busy = false ∧ s.srcAddr.toNat + s.storageSize.toNat = s.dstAddr.toNat ∧
        s.dstAddr.toNat + 4 * (s.width.toNat * s.height.toNat) = s.cfg.hostMemSize ∧ s.cfg.regBase = none) ∧
    (let s := { idleState with cfg := { small with hostMemSize := 0x200, fbCap := 4, regBase := some 60 }, dstAddr := 52, srcAddr := 0x13C };
      s.status.busy = false ∧ s.dstAddr.toNat + 4 * (s.width.toNat * s.height.toNat) = 60 ∧ s.srcAddr.toNat = 60 + 0x100 ∧
        s.srcAddr.toNat + s.storageSize.toNat ≤ s.cfg.hostMemSize ∧ 2 * (s.width.toNat * s.height.toNat) = s.cfg.fbCap ∧
        s.cfg.regBase = some 60) := by decide +kernel

/-- The four causes, each one past what is accepted. -/
theorem wit_StartRejected :
    (let s := { idleState with srcAddr := 61 };
      s.status.busy = false ∧ s.cfg.hostMemSize + 1 = s.srcAddr.toNat + s.storageSize.toNat) ∧
    (let s := { idleState with dstAddr := 57 };
      s.status.busy = false ∧ s.srcAddr.toNat + s.storageSize.toNat ≤ s.cfg.hostMemSize ∧
        s.cfg.hostMemSize + 1 = s.dstAddr.toNat + 4 * (s.width.toNat * s.height.toNat)) ∧
    (let s := { idleState with srcAddr := 53 };
      s.status.busy = false ∧ s.srcAddr.toNat + s.storageSize.toNat = s.dstAddr.toNat + 1 ∧
        s.dstAddr.toNat + 4 * (s.width.toNat * s.height.toNat) ≤ s.cfg.hostMemSize ∧ 0 < s.storageSize.toNat ∧
        0 < s.width.toNat * s.height.toNat ∧ s.srcAddr.toNat < s.dstAddr.toNat + 4 * (s.width.toNat * s.height.toNat)) ∧
    (let s := { idleState with cfg := { small with fbCap := 3 } };
      s.status.busy = false ∧ s.srcAddr.toNat + s.storageSize.toNat ≤ s.dstAddr.toNat ∧
        s.dstAddr.toNat + 4 * (s.width.toNat * s.height.toNat) ≤ s.cfg.hostMemSize ∧
        s.cfg.fbCap + 1 = 2 * (s.width.toNat * s.height.toNat)) := by decide +kernel

theorem wit_BusyCommandsIgnored : (inPhase .convert).status.busy = true := by decide +kernel

theorem wit_NewSeqResult : idleState.status.busy = false := by decide +kernel

theorem wit_ClearStatusResult :
    (withMove (.regWrite 4 0x04 2) idleState).agenda = [.host (.regWrite 4 0x04 2)] ∧ (2 : Word).toNat / 2 % 2 = 1 := by
  decide +kernel

/-- The last address of the block in the payload, and its first address in the RGBA range. -/
theorem wit_CoveredCommandRefused :
    (let s := { idleState with cfg := { small with hostMemSize := 0x200, regBase := some 0x40 }, srcAddr := 0x13F };
      s.status.busy = false ∧ s.srcAddr.toNat + s.storageSize.toNat ≤ s.cfg.hostMemSize ∧
        s.dstAddr.toNat + 4 * (s.width.toNat * s.height.toNat) ≤ 0x40 ∧
        2 * (s.width.toNat * s.height.toNat) ≤ s.cfg.fbCap ∧ s.cfg.regBase = some 0x40 ∧ 0x40 ≤ 0x13F ∧ 0x13F < 0x40 + 0x100 ∧
        s.srcAddr.toNat ≤ 0x13F ∧ 0x13F < s.srcAddr.toNat + s.storageSize.toNat) ∧
    (let s := { idleState with cfg := { small with hostMemSize := 0x200, regBase := some 0x3F } };
      s.status.busy = false ∧ s.srcAddr.toNat + s.storageSize.toNat ≤ s.dstAddr.toNat ∧
        s.dstAddr.toNat + 4 * (s.width.toNat * s.height.toNat) ≤ s.cfg.hostMemSize ∧
        2 * (s.width.toNat * s.height.toNat) ≤ s.cfg.fbCap ∧ s.cfg.regBase = some 0x3F ∧ 0x3F ≤ 0x3F ∧ 0x3F < 0x3F + 0x100 ∧
        s.dstAddr.toNat ≤ 0x3F ∧ 0x3F < s.dstAddr.toNat + 4 * (s.width.toNat * s.height.toNat)) := by decide +kernel

theorem wit_RefSelectResult :
    (let s := { inPhase .refSelect with fb := [(0, 1), (4, 1)] };
      s.agenda = [] ∧ s.phase = .refSelect ∧ s.fb.wf = true ∧ s.prevValid = false) ∧
    (let s := { inPhase .refSelect with prevValid := true, prevFbSize := 5 };
      s.agenda = [] ∧ s.phase = .refSelect ∧ s.fb.wf = true ∧ s.prevFbSize = s.fbSize + 1) ∧
    (let s := { inPhase .refSelect with prevValid := true, prevFbSize := 4 };
      s.agenda = [] ∧ s.phase = .refSelect ∧ s.fb.wf = true ∧ s.prevValid = true ∧ s.prevFbSize = s.fbSize ∧
        s.freeFrame = none) ∧
    (let s := { inPhase .refSelect with prevValid := true, prevFbSize := 4, freeFrame := some 0, freeCount := 1 };
      s.agenda = [] ∧ s.phase = .refSelect ∧ s.fb.wf = true ∧ s.prevValid = true ∧ s.prevFbSize = s.fbSize ∧
        s.freeFrame ≠ none) := by decide +kernel

theorem wit_DuplicateResult :
    let s := inPhase .dupTest
    s.agenda = [] ∧ s.phase = .dupTest ∧ s.lStorage = 0 ∧ s.lOriginal = 0 := by decide +kernel

theorem wit_LengthCheckResult :
    (let s := { inPhase .lengthCheck with produced := 4, lOriginal := 4 };
      s.agenda = [] ∧ s.phase = .lengthCheck ∧ s.produced = s.lOriginal.toNat) ∧
    (let s := { inPhase .lengthCheck with produced := 0x100000000 };
      s.agenda = [] ∧ s.phase = .lengthCheck ∧ s.produced ≠ s.lOriginal.toNat) := by decide +kernel

theorem wit_CompleteResult :
    let s := { inPhase .complete with fbLen := 0x3FFFFFFFF, produced := 0x100000000, ds := [7], cause := .unknownOp }
    s.agenda = [] ∧ s.phase = .complete ∧ s.fbLen < 0x400000000 := by decide +kernel

/-- Every offset, and the write of all ones to the narrowest register. -/
theorem wit_ConfigRegistersReadBack :
    (∀ offset, offset ∈ [0x08, 0x0C, 0x10, 0x14, 0x18, 0x1C, 0x20] →
      let s := { inPhase .lzss with agenda := [.host (.regWrite 4 offset 0xFFFFFFFF), .host (.regRead 4 offset)] }
      s.agenda = .host (.regWrite 4 offset 0xFFFFFFFF) :: .host (.regRead 4 offset) :: []) ∧
    (0x1C, 0xFF) ∈ [(0x08, 0xFFFF), (0x0C, 0xFFFF), (0x10, 0xFFFFFFFF), (0x14, 0xFFFFFFFF), (0x18, 0xFFFFFFFF), (0x1C, 0xFF),
      (0x20, 0xFFFFFFFF)] ∧
    ({ inPhase .lzss with agenda := [.host (.regWrite 4 0x1C 0xFFFFFFFF), .host (.regRead 4 0x1C)] }).agenda =
      .host (.regWrite 4 0x1C 0xFFFFFFFF) :: .host (.regRead 4 0x1C) :: [] := by decide +kernel

theorem wit_CtrlWriteStoresIrqEn :
    ((withMove (.regWrite 4 0x00 0xFFFFFFFC) idleState).agenda = [.host (.regWrite 4 0x00 0xFFFFFFFC)] ∧
      (0xFFFFFFFC : Word).toNat % 4 = 0) ∧
    (got (step (withMove (.regWrite 4 0x00 7) (inPhase .lzss)))).map (·.irqEn) = some true ∧
    (got (step (withMove (.regWrite 4 0x00 3) idleState))).map (·.irqEn) = some false := by decide +kernel

/-- The first and the last register of each clause. -/
theorem wit_ReadOnlyAndReservedRegisters :
    (0x24 % 4 = 0 ∧ 0x24 < 0x100 ∧ 0x24 ≤ 0x24 ∧
      (withMove (.regWrite 4 0x24 1) idleState).agenda = [.host (.regWrite 4 0x24 1)]) ∧
    (0xFC % 4 = 0 ∧ 0xFC < 0x100 ∧ 0x24 ≤ 0xFC ∧ (withMove (.regWrite 4 0xFC 1) idleState).agenda = [.host (.regWrite 4 0xFC 1)]) ∧
    (0x40 ≤ 0x40 ∧ (withMove (.regRead 4 0x40) idleState).agenda = [.host (.regRead 4 0x40)]) ∧
    (0x40 ≤ 0xFC ∧ (withMove (.regRead 4 0xFC) idleState).agenda = [.host (.regRead 4 0xFC)]) := by decide +kernel

/-- Every clause, the first and the last offset of the last one, and a STATUS with fields set. -/
theorem wit_StatusReadReturnsFields :
    ∀ offset, offset ∈ [0x00, 0x04, 0x08, 0x0C, 0x10, 0x14, 0x18, 0x1C, 0x20, 0x24, 0x28, 0x2C, 0x30, 0x34, 0x38, 0x3C, 0x40,
        0xFC] →
      let s := withMove (.regRead 4 offset)
        { idleState with status := { Status.reset with stopCause := .frameOob, clipped := true } }
      s.agenda = [.host (.regRead 4 offset)] ∧ offset % 4 = 0 ∧ offset < 0x100 ∧ s.status.busy = false := by decide +kernel

/-- An offset of every clause, and one whose bits are all free. -/
theorem wit_BusyReadsKeepDefinedBits :
    ∀ offset, offset ∈ [0x00, 0x04, 0x08, 0x0C, 0x10, 0x14, 0x18, 0x1C, 0x20, 0x24, 0x3C, 0x40, 0xFC] →
      let s := withMove (.regRead 4 offset) (inPhase .lzss)
      s.agenda = [.host (.regRead 4 offset)] ∧ offset % 4 = 0 ∧ offset < 0x100 ∧ s.status.busy = true := by decide +kernel

/-- A narrow access, a misaligned one at the last address of the block, and the first address past it. -/
theorem wit_BadRegisterAccessStops :
    ((withMove (.regRead 2 0x00) idleState).agenda = [.host (.regRead 2 0x00)] ∧ (2 : Nat) ≠ 4) ∧
    ((withMove (.regWrite 4 0xFF 0) idleState).agenda = [.host (.regWrite 4 0xFF 0)] ∧ 0xFF < 0x100 ∧ 0xFF % 4 ≠ 0) ∧
    ((withMove (.regRead 4 0x100) idleState).agenda = [.host (.regRead 4 0x100)]) := by decide +kernel

/-- `irq` rises by a completion, by IRQ_EN and by a rejection, and falls by a STATUS write, by a CTRL write, by an accepted START and by a reset. -/
theorem wit_InterruptLevel :
    (let s := { inPhase .complete with irqEn := true }; s.irq = false ∧ (got (step s)).map (·.irq) = some true) ∧
    (let s := withMove (.regWrite 4 0x00 4) { idleState with status := { Status.reset with done := true } };
      s.irq = false ∧ (got (step s)).map (·.irq) = some true) ∧
    (let s := withMove (.regWrite 4 0x00 5) { idleState with srcAddr := 61 };
      s.irq = false ∧ s.status.done = false ∧ (got (step s)).map (fun t => (t.irq, t.status.rejected)) = some (true, true)) ∧
    (let s := withMove (.regWrite 4 0x04 2) { idleState with irqEn := true, status := { Status.reset with done := true } };
      s.irq = true ∧ (got (step s)).map (·.irq) = some false) ∧
    (let s := withMove (.regWrite 4 0x00 0) { idleState with irqEn := true, status := { Status.reset with done := true } };
      s.irq = true ∧ (got (step s)).map (·.irq) = some false) ∧
    (let s := withMove (.regWrite 4 0x00 5) { idleState with irqEn := true, status := { Status.reset with done := true } };
      s.irq = true ∧ (got (step s)).map (·.irq) = some false) ∧
    (let s := { idleState with agenda := [.reset], irqEn := true, status := { Status.reset with done := true } };
      s.irq = true ∧ (got (step s)).map (·.irq) = some false) := by decide +kernel

/-- The last byte of memory and the first past it, a byte of the register block, the bytes at and after the end of a range. -/
theorem wit_HostMemoryWrites :
    let s := { inPhase .convert with lStorage := 4, cfg := { small with regBase := some 8 } }
    let t := { inPhase .convert with lStorage := 4 }
    s.mem.wf = true ∧ t.mem.wf = true ∧ (withMove (.memWrite 64 1) t).agenda = [.host (.memWrite 64 1)] ∧
      t.cfg.hostMemSize ≤ 64 ∧ (s.cfg.regBase = some 8 ∧ 8 ≤ 8 ∧ 8 < 8 + 0x100) ∧
      (t.status.busy = true ∧ t.cfg.regBase = none ∧ t.lSrc.toNat ≤ 3 ∧ 3 < t.lSrc.toNat + t.lStorage.toNat) ∧
      (63 < t.cfg.hostMemSize ∧ 63 < t.lDst.toNat + 4 * (t.lWidth.toNat * t.lHeight.toNat)) ∧
      (t.lSrc.toNat + t.lStorage.toNat = 4 ∧ 4 < t.lDst.toNat) := by decide +kernel

/-- The last byte of memory in the RGBA range, the byte after the payload, the first address past memory, and the last address
of the register block. -/
theorem wit_HostMemoryReads :
    (let s := withMove (.memRead 63) { inPhase .convert with lStorage := 4 };
      s.agenda = [.host (.memRead 63)] ∧ Inv s ∧ 63 + 1 = s.cfg.hostMemSize ∧ s.cfg.regBase = none ∧
        s.status.busy = true ∧ s.inCommandRange 63 = true) ∧
    (let s := withMove (.memRead 4) { inPhase .convert with lStorage := 4 };
      s.agenda = [.host (.memRead 4)] ∧ Inv s ∧ 4 < s.cfg.hostMemSize ∧ s.cfg.regBase = none ∧ s.inCommandRange 4 = false) ∧
    (let s := withMove (.memRead 64) (inPhase .convert);
      s.agenda = [.host (.memRead 64)] ∧ Inv s ∧ s.cfg.hostMemSize = 64) ∧
    (let s := withMove (.memRead 0x107) { idleState with cfg := { small with hostMemSize := 0x108, regBase := some 8 } };
      s.agenda = [.host (.memRead 0x107)] ∧ Inv s ∧ 0x107 < s.cfg.hostMemSize ∧ s.cfg.regBase = some 8 ∧ 8 ≤ 0x107 ∧
        0x107 + 1 = 8 + 0x100) :=
  ⟨⟨by decide +kernel, inv_of_check (by decide +kernel), by decide +kernel⟩,
    ⟨by decide +kernel, inv_of_check (by decide +kernel), by decide +kernel⟩,
    ⟨by decide +kernel, inv_of_check (by decide +kernel), by decide +kernel⟩,
    ⟨by decide +kernel, inv_of_check (by decide +kernel), by decide +kernel⟩⟩

theorem wit_ResetEvent :
    (let s := { inPhase .convert with lStorage := 4, agenda := [.reset] };
      s.agenda = [.reset] ∧ Inv s ∧ s.status.busy = true ∧ s.inCommandRange 3 = true ∧
        s.inCommandRange 4 = false) ∧
    (let s := { inPhase .convert with
        lStorage := 4, agenda := [.reset], cfg := { small with op80Policy := .refuse }, freeFrame := some 0, freeCount := 1 };
      s.agenda = [.reset] ∧ Inv s ∧ s.status.busy = true ∧ s.inCommandRange 63 = true) ∧
    (let s := { idleState with agenda := [.reset] };
      s.agenda = [.reset] ∧ Inv s ∧ s.status.busy = false) :=
  ⟨⟨by decide +kernel, inv_of_check (by decide +kernel), by decide +kernel⟩,
    ⟨by decide +kernel, inv_of_check (by decide +kernel), by decide +kernel⟩,
    ⟨by decide +kernel, inv_of_check (by decide +kernel), by decide +kernel⟩⟩

theorem wit_BusyChangesOnlyByCommand :
    (let s := withMove (.regWrite 4 0x00 1) idleState;
      s.status.busy = false ∧ (got (step s)).map (·.status.busy) = some true) ∧
    (let s := inPhase .complete; s.status.busy = true ∧ (got (step s)).map (·.status.busy) = some false) ∧
    (let s := { inPhase .convert with agenda := [.reset] };
      s.status.busy = true ∧ (got (step s)).map (·.status.busy) = some false) := by decide +kernel

theorem wit_ConfigWritesDoNotDisturbCommand :
    (got (engineStep { inPhase .interpret with ds := [0x40, 1, 2, 0, 0, 0, 0, 1, 0, 0, 0] })).isSome = true := by decide +kernel

theorem wit_StepKeepsInv :
    Inv (inPhase .convert) ∧ (got (step (inPhase .convert))).map (·.pix) = some 1 :=
  ⟨inv_of_check (by decide +kernel), by decide +kernel⟩

/-- The bound is met with equality: nine output bytes for each of two input bytes. -/
theorem wit_StepKeepsOutputBound :
    let s := { inPhase .lzss with lStorage := 4, p := 2, din := [0xEE, 0xFF], fbit := 1, produced := 18, ds := List.replicate 18 0 }
    Inv s ∧ OutputBounded s ∧ (got (step s)).map (fun t => (t.p, t.produced)) = some (4, 36) :=
  ⟨inv_of_check (by decide +kernel),
    ⟨by decide +kernel, by decide +kernel, by decide +kernel, by decide +kernel, fun h => by cases h⟩, by decide +kernel⟩

theorem wit_CommandCompletes :
    (let s := { inPhase .refSelect with lStorage := 4 };
      Inv s ∧ s.agenda = [] ∧ s.cfg.op80Policy = .stop) ∧
    (let s := { inPhase .interpret with
        ds := [0x80], produced := 1, cfg := { small with op80Policy := .refuse } };
      Inv s ∧ s.agenda = [] ∧ s.cfg.op80Policy = .refuse) :=
  ⟨⟨inv_of_check (by decide +kernel), by decide +kernel⟩, ⟨inv_of_check (by decide +kernel), by decide +kernel⟩⟩

/-- A chunk of type 0 with a payload of three bytes, whose stream `FF 41 42` is one pixel of two. -/
def chunk : State := { inPhase .refSelect with lStorage := 3, lOriginal := 2, mem := [(0, 0xFF), (1, 0x42), (2, 0x44)] }

/-- A duplicate of a blank previous frame. -/
def duplicateChunk : State := { inPhase .refSelect with prevValid := true, prevFbSize := 4 }

/-- A duplicate of a previous frame without meaning, no byte of which is valid. -/
def refusedDuplicate : State :=
  { duplicateChunk with cfg := { small with op80Policy := .refuse }, freeFrame := some 0, freeCount := 5, fbLen := 0 }

/-- Where the engine alone takes a command in `k` steps. -/
def afterSteps (k : Nat) (s : State) : State := nextOf (Host.Core.run Sys2Proof.core k s)

theorem chunk_runs : CommandRun chunk (afterSteps 15 chunk) :=
  ⟨by decide +kernel, by decide +kernel, 15, next_nextOf (by decide +kernel), by decide +kernel⟩

theorem duplicate_runs : CommandRun duplicateChunk (afterSteps 6 duplicateChunk) :=
  ⟨by decide +kernel, by decide +kernel, 6, next_nextOf (by decide +kernel), by decide +kernel⟩

theorem refused_duplicate_runs : CommandRun refusedDuplicate (afterSteps 6 refusedDuplicate) :=
  ⟨by decide +kernel, by decide +kernel, 6, next_nextOf (by decide +kernel), by decide +kernel⟩

theorem wit_PayloadHoldsDescrambledBytes :
    Inv chunk ∧ CommandRun chunk (afterSteps 15 chunk) ∧ 0 < chunk.inputLen ∧ 2 < chunk.inputLen :=
  ⟨inv_of_check (by decide +kernel), chunk_runs, by decide +kernel, by decide +kernel⟩

theorem wit_RgbaHoldsConvertedFrame :
    Inv chunk ∧ CommandRun chunk (afterSteps 15 chunk) ∧ 0 < chunk.npix ∧ 1 < chunk.npix :=
  ⟨inv_of_check (by decide +kernel), chunk_runs, by decide +kernel, by decide +kernel⟩

/-- The first byte after the payload, and the last before the RGBA range. -/
theorem wit_CommandTouchesOnlyItsRanges :
    Inv chunk ∧ CommandRun chunk (afterSteps 15 chunk) ∧ (chunk.lSrc.toNat + chunk.inputLen = 3 ∧ 3 < chunk.lDst.toNat) ∧
      (chunk.lSrc.toNat + chunk.inputLen ≤ 55 ∧ 55 + 1 = chunk.lDst.toNat) :=
  ⟨inv_of_check (by decide +kernel), chunk_runs, by decide +kernel, by decide +kernel⟩

theorem wit_DuplicateRepeatsPreviousFrame :
    (Inv duplicateChunk ∧ CommandRun duplicateChunk (afterSteps 6 duplicateChunk) ∧
      (duplicateChunk.lStorage = 0 ∧ duplicateChunk.lOriginal = 0 ∧ duplicateChunk.prevValid = true ∧
        duplicateChunk.prevFbSize = duplicateChunk.fbSize ∧ duplicateChunk.freeFrame = none ∧ 1 < duplicateChunk.npix)) ∧
    (Inv refusedDuplicate ∧ CommandRun refusedDuplicate (afterSteps 6 refusedDuplicate) ∧
      (refusedDuplicate.lStorage = 0 ∧ refusedDuplicate.lOriginal = 0 ∧ refusedDuplicate.prevValid = true ∧
        refusedDuplicate.prevFbSize = refusedDuplicate.fbSize ∧ refusedDuplicate.freeFrame ≠ none)) :=
  ⟨⟨inv_of_check (by decide +kernel), duplicate_runs, by decide +kernel⟩,
    ⟨inv_of_check (by decide +kernel), refused_duplicate_runs, by decide +kernel⟩⟩

/-- Other contents of everything reset leaves open. -/
theorem wit_ResetContentsUnobserved :
    Inv chunk ∧ CommandRun chunk (afterSteps 15 chunk) ∧ chunk.prevValid = false ∧
      Inv { chunk with dict := [(0xFFF, 1)], fb := [(0, 7), (15, 7)], w := 0xFFF, r := 9, flags := 0xFF, fbit := 0 } ∧
      3 < chunk.fbSize :=
  ⟨inv_of_check (by decide +kernel), chunk_runs, by decide +kernel, inv_of_check (by decide +kernel), by decide +kernel⟩

end Sys2Proof.Tests
end

section
/-! SUPPORT. START on an idle block: what CHECK_RANGES answers for each cause, and what a rejection leaves behind
(44_command.md R141, 60_exceptions.md R164). -/

namespace Sys2Proof.Machine

/-! ### The causes of CHECK_RANGES, in code order -/

theorem checkRanges_srcRange {s : State} (hsrc : s.cfg.hostMemSize < s.lSrc.toNat + s.lStorage.toNat) :
    s.checkRanges = .srcRange :=
  if_pos hsrc

theorem checkRanges_dstRange {s : State} (hsrc : ¬ s.cfg.hostMemSize < s.lSrc.toNat + s.lStorage.toNat)
    (hdst : s.cfg.hostMemSize < s.lDst.toNat + 4 * s.npix) : s.checkRanges = .dstRange :=
  (if_neg hsrc).trans (if_pos hdst)

theorem checkRanges_overlap {s : State} (hsrc : ¬ s.cfg.hostMemSize < s.lSrc.toNat + s.lStorage.toNat)
    (hdst : ¬ s.cfg.hostMemSize < s.lDst.toNat + 4 * s.npix)
    (hover : 0 < s.lStorage.toNat ∧ 0 < s.npix ∧ s.lSrc.toNat < s.lDst.toNat + 4 * s.npix ∧
      s.lDst.toNat < s.lSrc.toNat + s.lStorage.toNat) : s.checkRanges = .overlap :=
  (if_neg hsrc).trans <| (if_neg hdst).trans (if_pos hover)

theorem checkRanges_frameSize {s : State} (hsrc : ¬ s.cfg.hostMemSize < s.lSrc.toNat + s.lStorage.toNat)
    (hdst : ¬ s.cfg.hostMemSize < s.lDst.toNat + 4 * s.npix)
    (hover : ¬ (0 < s.lStorage.toNat ∧ 0 < s.npix ∧ s.lSrc.toNat < s.lDst.toNat + 4 * s.npix ∧
      s.lDst.toNat < s.lSrc.toNat + s.lStorage.toNat))
    (hframe : s.cfg.fbCap < 2 * s.npix) : s.checkRanges = .frameSize := by
  have hfb : s.cfg.fbCap < s.fbSize := by rw [fbSize_eq_npix]; omega
  exact (if_neg hsrc).trans <| (if_neg hdst).trans <| (if_neg hover).trans (if_pos hfb)

/-! ### START on an idle block -/

/-- An idle block stores IRQ_EN and lets NEW_SEQ take effect before it checks the ranges (10_state.md R21, 60_exceptions.md
R166). -/
theorem exec_start_idle {s : State} (hbusy : s.status.busy = false) (newSeq irqEn : Bool) :
    exec (.start newSeq irqEn) s =
      issueStart { s with irqEn := irqEn, prevValid := s.prevValid && !newSeq } := by
  have hexec : exec (.start newSeq irqEn) s = execStart newSeq irqEn s := rfl
  rw [hexec, execStart, if_neg (by simp [hbusy])]
  cases newSeq <;> simp

theorem issueStart_rejected {s : State} {cause : RejectCause} (hcheck : (latch s).checkRanges = cause)
    (hcause : cause ≠ .none) : issueStart s = .next (rejectStart cause s) := by
  cases cause with
  | none => exact absurd rfl hcause
  | srcRange | dstRange | overlap | frameSize => simp only [issueStart, hcheck]

/-- Neither IRQ_EN nor PREV_VALID enters CHECK_RANGES, so the check may be made on the state the command finds. -/
theorem exec_start_rejected {s : State} {cause : RejectCause} (hbusy : s.status.busy = false)
    (hcheck : (latch s).checkRanges = cause) (hcause : cause ≠ .none) (newSeq irqEn : Bool) :
    exec (.start newSeq irqEn) s =
      .next (rejectStart cause { s with irqEn := irqEn, prevValid := s.prevValid && !newSeq }) :=
  (exec_start_idle hbusy newSeq irqEn).trans (issueStart_rejected hcheck hcause)

/-- Settles O30: each cause is what CHECK_RANGES answers, and any cause rejects the command. -/
theorem startRejected : Obligations.StartRejected := by
  unfold Obligations.StartRejected
  intro s newSeq irqEn cause src srcEnd dst npix dstEnd srcRange dstRange overlap frameSize hbusy hfirst
  rcases hfirst with ⟨rfl, hsrc⟩ | ⟨rfl, hsrc, hdst⟩ | ⟨rfl, hsrc, hdst, hover⟩ | ⟨rfl, hsrc, hdst, hover, hframe⟩
  · exact exec_start_rejected hbusy (checkRanges_srcRange hsrc) nofun newSeq irqEn
  · exact exec_start_rejected hbusy (checkRanges_dstRange hsrc hdst) nofun newSeq irqEn
  · exact exec_start_rejected hbusy (checkRanges_overlap hsrc hdst hover) nofun newSeq irqEn
  · exact exec_start_rejected hbusy (checkRanges_frameSize hsrc hdst hover hframe) nofun newSeq irqEn

end Sys2Proof.Machine
end

section
/-! SUPPORT. The register port: what a 32-bit access to an aligned offset does, what a CTRL write can be, and the words the
registers read as (10_state.md R20..R32, 20_memory.md R57). -/

namespace Sys2Proof.Machine

/-! ### A 32-bit access to an aligned offset -/

theorem accessError_none {width offset : Nat} :
    accessError width offset = none ↔ width = 4 ∧ offset % 4 = 0 ∧ offset < 0x100 := by
  unfold accessError
  by_cases hend : 0x100 ≤ offset
  · simp [hend]
  · by_cases hword : width = 4 ∧ offset % 4 = 0
    · simp [hend, hword]; omega
    · simp [hend, hword]; tauto

theorem step_regRead {s : State} {offset : Nat} {moves : List Turn}
    (hmove : s.agenda = .host (.regRead 4 offset) :: moves) (halign : offset % 4 = 0) (hend : offset < 0x100) :
    step s = .next (readReg offset { s with agenda := moves }) := by
  rw [step_of_host hmove, hostStep, accessError_none.mpr ⟨rfl, halign, hend⟩]; rfl

theorem step_regWrite {s : State} {offset : Nat} {v : Word} {moves : List Turn}
    (hmove : s.agenda = .host (.regWrite 4 offset v) :: moves) (halign : offset % 4 = 0) (hend : offset < 0x100) :
    step s = writeReg offset v { s with agenda := moves } := by
  rw [step_of_host hmove, hostStep, accessError_none.mpr ⟨rfl, halign, hend⟩]; rfl

/-- Only CTRL and STATUS writes are commands (30_encoding.md R87). -/
theorem writeReg_of_ge {offset : Nat} (h : 0x08 ≤ offset) (v : Word) (s : State) :
    writeReg offset v s = .next (storeReg offset v s) := by
  rw [writeReg, if_neg (by omega), if_neg (by omega)]

/-- The configuration registers end at 0x20 (10_state.md R20). -/
theorem storeReg_of_ge {offset : Nat} (h : 0x24 ≤ offset) (v : Word) (s : State) : storeReg offset v s = s := by
  unfold storeReg
  split
  case h_8 => rfl
  all_goals omega

/-- The registers end at 0x3C (10_state.md R20, R31). -/
theorem regWord_of_ge {offset : Nat} (h : 0x40 ≤ offset) (s : State) : s.regWord offset = 0 := by
  unfold State.regWord
  split
  case h_17 => rfl
  all_goals omega

theorem readReg_of_idle {s : State} (hbusy : s.status.busy = false) (offset : Nat) :
    readReg offset s = { s with rdata := s.regWord offset } :=
  if_neg (by simp [hbusy])

/-- A register with no free bits reads as it stands, busy or not (44_command.md R152). -/
theorem readReg_of_busyMask {offset : Nat} (hmask : busyMask offset = 0) (s : State) :
    readReg offset s = { s with rdata := s.regWord offset } :=
  if_neg (by simp [hmask])

theorem busyMask_of_ge {offset : Nat} (h : 0x40 ≤ offset) : busyMask offset = 0 := by
  rw [busyMask, if_neg (by omega), if_neg (by omega)]

/-- Settles O41: the write falls past the configuration registers and the read past all of them. -/
theorem readOnlyAndReservedRegisters : Obligations.ReadOnlyAndReservedRegisters := by
  unfold Obligations.ReadOnlyAndReservedRegisters
  intro s offset v moves halign hend
  constructor
  · intro hro hmove
    rw [step_regWrite hmove halign hend, writeReg_of_ge (by omega), storeReg_of_ge hro]
  · intro hreserved hmove
    rw [step_regRead hmove halign hend, readReg_of_busyMask (busyMask_of_ge hreserved), regWord_of_ge hreserved]

/-! ### The configuration registers -/

/-- A register of `k` bits reads as the low `k` bits of what was written. -/
theorem setWidth_setWidth_eq_and {k : Nat} (hk : k ≤ 32) (v : Word) :
    (v.setWidth k).setWidth 32 = v &&& BitVec.ofNat 32 (2 ^ k - 1) := by
  have hpow : 2 ^ k ≤ 2 ^ 32 := Nat.pow_le_pow_right (by omega) hk
  have hpos : 0 < 2 ^ k := Nat.two_pow_pos k
  apply BitVec.eq_of_toNat_eq
  rw [BitVec.toNat_and, BitVec.toNat_ofNat, Nat.mod_eq_of_lt (a := 2 ^ k - 1) (by omega),
    Nat.and_two_pow_sub_one_eq_mod, BitVec.toNat_setWidth, BitVec.toNat_setWidth]
  exact Nat.mod_eq_of_lt (lt_of_lt_of_le (Nat.mod_lt _ hpos) hpow)

/-- A write to a configuration register and the read after it are the register's own store and its word. -/
theorem step_store_then_read {s : State} {offset : Nat} {v : Word} {moves : List Turn}
    (hmove : s.agenda = .host (.regWrite 4 offset v) :: .host (.regRead 4 offset) :: moves)
    (halign : offset % 4 = 0) (hlow : 0x08 ≤ offset) (hhigh : offset ≤ 0x20)
    {t : State} (ht : storeReg offset v { s with agenda := .host (.regRead 4 offset) :: moves } = t)
    (hagenda : t.agenda = .host (.regRead 4 offset) :: moves) :
    step s = .next t ∧ step t = .next { t with agenda := moves, rdata := t.regWord offset } := by
  have hmask : busyMask offset = 0 := by rw [busyMask, if_neg (by omega), if_neg (by omega)]
  constructor
  · rw [step_regWrite hmove halign (by omega), writeReg_of_ge hlow, ht]
  · rw [step_regRead hagenda halign (by omega), readReg_of_busyMask hmask]; rfl

/-- Settles O39, register by register. -/
theorem configRegistersReadBack : Obligations.ConfigRegistersReadBack := by
  unfold Obligations.ConfigRegistersReadBack
  intro s offset mask v moves hreg hmove
  have hword : v = v &&& BitVec.ofNat 32 0xFFFFFFFF := (BitVec.and_allOnes (x := v)).symm
  simp only [List.mem_cons, Prod.mk.injEq, List.not_mem_nil, or_false] at hreg
  simp only [BitVec.ofNat_toNat]
  rcases hreg with ⟨rfl, rfl⟩ | ⟨rfl, rfl⟩ | ⟨rfl, rfl⟩ | ⟨rfl, rfl⟩ | ⟨rfl, rfl⟩ | ⟨rfl, rfl⟩ | ⟨rfl, rfl⟩ <;>
    obtain ⟨hwrite, hread⟩ := step_store_then_read hmove (by decide) (by decide) (by decide) rfl rfl <;>
    refine ⟨_, _, hwrite, rfl, hread, rfl, ?_⟩
  case inl | inr.inl => exact setWidth_setWidth_eq_and (k := 16) (by decide) v
  case inr.inr.inr.inr.inr.inl => exact setWidth_setWidth_eq_and (k := 8) (by decide) v
  all_goals exact hword

/-! ### The words of CTRL and STATUS -/

theorem ctrlWord_eq (irqEn : Bool) : ctrlWord irqEn = if irqEn then 4 else 0 := by
  cases irqEn <;> rfl

theorem stopCode_toNat (cause : StopCause) :
    (stopCode cause).toNat =
      (match cause with | .none => 0 | .unknownOp => 1 | .op80 => 2 | .truncatedOp => 3 | .frameOob => 4) := by
  cases cause <;> rfl

theorem rejectCode_toNat (cause : RejectCause) :
    (rejectCode cause).toNat =
      (match cause with | .none => 0 | .srcRange => 1 | .dstRange => 2 | .overlap => 3 | .frameSize => 4) := by
  cases cause <;> rfl

theorem getLsbD_of_toNat {v : Word} {k : Nat} {b : Bool} (h : v.toNat / 2 ^ k % 2 = b.toNat) : v.getLsbD k = b := by
  rw [getLsbD_eq_div, h]; cases b <;> rfl

/-- STATUS bits 7:0 and 16 are one flag each, bits 11:8 and 15:12 are the two codes, and bits 31:17 read 0 (10_state.md R22). -/
theorem statusWord_fields (f : Status) :
    (statusWord f).getLsbD 0 = f.busy ∧ (statusWord f).getLsbD 1 = f.done ∧ (statusWord f).getLsbD 2 = f.ignored ∧
      (statusWord f).getLsbD 3 = f.rejected ∧ (statusWord f).getLsbD 4 = f.dup ∧
      (statusWord f).getLsbD 5 = f.blankRef ∧ (statusWord f).getLsbD 6 = f.lenMismatch ∧
      (statusWord f).getLsbD 7 = f.dsOvf ∧ (statusWord f).getLsbD 16 = f.clipped ∧
      (statusWord f).toNat / 0x100 % 16 = (stopCode f.stopCause).toNat ∧
      (statusWord f).toNat / 0x1000 % 16 = (rejectCode f.rejectCause).toNat ∧ (statusWord f).toNat < 0x20000 := by
  have hstop := (stopCode f.stopCause).isLt
  have hreject := (rejectCode f.rejectCause).isLt
  have h0 := f.busy.toNat_lt
  have h1 := f.done.toNat_lt
  have h2 := f.ignored.toNat_lt
  have h3 := f.rejected.toNat_lt
  have h4 := f.dup.toNat_lt
  have h5 := f.blankRef.toNat_lt
  have h6 := f.lenMismatch.toNat_lt
  have h7 := f.dsOvf.toNat_lt
  have h16 := f.clipped.toNat_lt
  refine ⟨getLsbD_of_toNat ?_, getLsbD_of_toNat ?_, getLsbD_of_toNat ?_, getLsbD_of_toNat ?_, getLsbD_of_toNat ?_,
    getLsbD_of_toNat ?_, getLsbD_of_toNat ?_, getLsbD_of_toNat ?_, getLsbD_of_toNat ?_, ?_, ?_, ?_⟩
  all_goals rw [statusWord_toNat]; omega

/-- Settles O42: the read returns the register's word, and each word is its fields. -/
theorem statusReadReturnsFields : Obligations.StatusReadReturnsFields := by
  unfold Obligations.StatusReadReturnsFields
  intro s offset moves hmove halign hend hbusy
  have hread : step s = .next { s with agenda := moves, rdata := s.regWord offset } :=
    (step_regRead hmove halign hend).trans (congrArg _ (readReg_of_idle (s := { s with agenda := moves }) hbusy offset))
  have hwide : ∀ {k : Nat} (x : BitVec k), k ≤ 32 → (x.setWidth 32).toNat = x.toNat :=
    fun x hk => BitVec.toNat_setWidth_of_le hk
  refine ⟨_, hread, rfl, ?ctrl, ?status, ?width, ?height, ?_, ?_, ?_, ?chunkType, ?_, ?_, ?_, ?_, ?stopTag, ?_, ?_,
    ?fbLenHi, fun h => regWord_of_ge h s⟩
  case ctrl => rintro rfl; exact (congrArg BitVec.toNat (ctrlWord_eq s.irqEn)).trans (by cases s.irqEn <;> rfl)
  case status =>
    rintro rfl
    obtain ⟨f0, f1, f2, f3, f4, f5, f6, f7, f16, hstop, hreject, hreserved⟩ := statusWord_fields s.status
    exact ⟨f0.trans hbusy, f1, f2, f3, f4, f5, f6, f7, f16, hstop.trans (stopCode_toNat _),
      hreject.trans (rejectCode_toNat _), hreserved⟩
  case width => rintro rfl; exact hwide s.width (by decide)
  case height => rintro rfl; exact hwide s.height (by decide)
  case chunkType => rintro rfl; exact hwide s.chunkType (by decide)
  case stopTag => rintro rfl; exact hwide s.stopTag (by decide)
  case fbLenHi => rintro rfl; exact hwide s.fbLenHi (by decide)
  all_goals rintro rfl; rfl

/-! ### CTRL writes -/

theorem decode_ctrlWrite (v : Word) : decode .ctrlWrite (leBytes v) = (decodeCtrl v).map fun i => (i, []) := by
  simp only [leBytes, decode, le32_byteOf]
  cases decodeCtrl v <;> rfl

/-- What a CTRL write does, by its bits 1:0 (10_state.md R21, 30_encoding.md R87). -/
theorem writeCtrl_eq (v : Word) (s : State) :
    writeCtrl v s =
      if v.getLsbD 0 then execStart (v.getLsbD 1) (v.getLsbD 2) s
      else if v.getLsbD 1 then execNewSeq (v.getLsbD 2) s
      else .next { s with irqEn := v.getLsbD 2 } := by
  rw [writeCtrl, decode_ctrlWrite, decodeCtrl]
  by_cases hstart : v.getLsbD 0 = true
  · rw [if_pos hstart, if_pos hstart]; rfl
  · rw [if_neg hstart, if_neg hstart]
    by_cases hnew : v.getLsbD 1 = true
    · rw [if_pos hnew, if_pos hnew]; rfl
    · rw [if_neg hnew, if_neg hnew]; rfl

/-- What an idle block answers to a START: a rejection or an acceptance, or no meaning (44_command.md R141). -/
theorem issueStart_next {s t : State} (h : issueStart s = .next t) :
    (∃ cause, t = rejectStart cause s) ∨ t = acceptStart (latch s) := by
  by_cases hcheck : (latch s).checkRanges = .none
  · simp only [issueStart, hcheck] at h
    split at h <;> cases h
    exact .inr rfl
  · rw [issueStart_rejected rfl hcheck] at h
    cases h
    exact .inl ⟨_, rfl⟩

theorem execStart_irqEn {newSeq irqEn : Bool} {s t : State} (h : execStart newSeq irqEn s = .next t) :
    t.irqEn = irqEn := by
  unfold execStart at h
  split at h
  · cases h; rfl
  · rcases issueStart_next h with ⟨_, rfl⟩ | rfl <;> cases newSeq <;> rfl

/-- While BUSY = 1 a START only sets IGNORED and stores IRQ_EN (44_command.md R142). -/
theorem execStart_of_busy {s : State} (hbusy : s.status.busy = true) (newSeq irqEn : Bool) :
    execStart newSeq irqEn s = .next (ignoreCommand { s with irqEn := irqEn }) :=
  if_pos hbusy

theorem execNewSeq_next {irqEn : Bool} {s t : State} (h : execNewSeq irqEn s = .next t) :
    t.irqEn = irqEn ∧ t.status.busy = s.status.busy := by
  unfold execNewSeq at h
  split at h <;> cases h <;> exact ⟨rfl, rfl⟩

theorem writeCtrl_irqEn {v : Word} {s t : State} (h : writeCtrl v s = .next t) : t.irqEn = v.getLsbD 2 := by
  rw [writeCtrl_eq] at h
  split at h
  · exact execStart_irqEn h
  · split at h
    · exact (execNewSeq_next h).1
    · cases h; rfl

/-- Settles O40: each of the three CTRL writes stores bit 2, and the third does nothing else. -/
theorem ctrlWriteStoresIrqEn : Obligations.CtrlWriteStoresIrqEn := by
  unfold Obligations.CtrlWriteStoresIrqEn
  intro s v moves hmove
  have hstep : step s = writeCtrl v { s with agenda := moves } := step_regWrite hmove (by decide) (by decide)
  constructor
  · intro hnone
    have h0 : v.getLsbD 0 = false := getLsbD_of_toNat (by simp; omega)
    have h1 : v.getLsbD 1 = false := getLsbD_of_toNat (by simp; omega)
    rw [hstep, writeCtrl_eq, h0, h1]; rfl
  · intro t ht
    have hirq : t.irqEn = v.getLsbD 2 := writeCtrl_irqEn (hstep.symm.trans ht)
    exact ⟨hirq, hirq ▸ ctrlWord_eq t.irqEn⟩

/-! ### Reset -/

/-- Settles O48: every register word and every listed element is 0 by definition. -/
theorem resetValues : Obligations.ResetValues := by
  unfold Obligations.ResetValues
  refine ⟨fun offset => ?_, by decide⟩
  unfold State.regWord
  split <;> rfl

/-- Settles O52: the memories and streams are empty, no command runs and there is no previous frame. -/
theorem invariantsAtReset : Obligations.InvariantsAtReset := by
  unfold Obligations.InvariantsAtReset
  have hcounters : CountersOk State.reset :=
    { fbitLe := by decide, dsFits := nofun, dsLe := by decide, inputLe := nofun, dinLe := nofun, ipLe := nofun
      pixLe := nofun }
  have hframe : FrameOk State.reset := { prevFits := nofun, fits := nofun, full := nofun, meaning := fun _ => rfl }
  exact
    ⟨{ cfgOk := by decide, memoriesOk := ⟨rfl, rfl, rfl, rfl, rfl, rfl, rfl, rfl⟩, countersOk := hcounters
       commandOk := ⟨by decide, nofun⟩, frameOk := hframe },
     { dsLe := by decide, inputLe := nofun, soFar := nofun, atEnd := nofun, overflow := nofun }⟩

/-! ### The step -/

theorem engineStep_of_fetch {s : State} {source : Source} {bytes rest : List Byte} {i : Instr}
    (hf : fetch s = some (source, bytes)) (hd : decode source bytes = .ok (i, rest)) : engineStep s = exec i s := by
  simp only [engineStep, hf, runBytes, hd]

theorem step_of_engine {s : State} {moves : List Turn} (h : s.agenda = .engine :: moves) :
    step s = engineStep { s with agenda := moves } := by rw [step, h]

/-- Settles O7: neither the fetch nor the stage looks at the agenda, and a command write is decoded by the port. -/
theorem stepRunsDecodedInstruction : Obligations.StepRunsDecodedInstruction := by
  unfold Obligations.StepRunsDecodedInstruction
  intro s i rest moves
  refine ⟨fun source bytes hf hd => ⟨fun h => ?_, fun h => ?_⟩, fun v h hd => ?_, fun v h hd => ?_,
    fun hp => ⟨fun h => ?_, fun h => ?_⟩⟩
  · rw [step_of_agenda_nil h]; exact engineStep_of_fetch hf hd
  · rw [step_of_engine h]; exact engineStep_of_fetch hf hd
  · have hstep : step s = writeCtrl v { s with agenda := moves } := step_regWrite h (by decide) (by decide)
    rw [hstep, writeCtrl, hd]
  · have hstep : step s = runBytes .statusWrite (leBytes v) { s with agenda := moves } :=
      step_regWrite h (by decide) (by decide)
    rw [hstep, runBytes, hd]
  · rw [step_of_agenda_nil h]; exact engineStep_idle hp
  · rw [step_of_engine h]; exact engineStep_idle hp

end Sys2Proof.Machine
end

section
/-! SUPPORT. One engine step as a stage action or one decoded row, and which rows the engine runs in which stage
(44_command.md R143). -/

namespace Sys2Proof.Machine

theorem sourceOf_decodeDelta (tag : Byte) (tail : List Byte) : sourceOf (decodeDelta tag tail).1 = .delta := by
  rcases decodeDelta_cases tag tail with ⟨_, hd⟩ | ⟨_, hd⟩ | ⟨_, hd⟩ | ⟨_, hd⟩ <;> rw [hd]
  · rcases decodeCopy_cases tail with ⟨hc, _⟩ | ⟨_, _, _, _, hc, _⟩ <;> rw [hc] <;> rfl
  · rcases decodeFill_cases tail with ⟨hc, _⟩ | ⟨_, _, _, _, _, hc, _⟩ <;> rw [hc] <;> rfl
  · rfl
  · rfl

theorem sourceOf_decodeCtrl {v : Word} {i : Instr} (h : decodeCtrl v = .ok i) : sourceOf i = .ctrlWrite := by
  unfold decodeCtrl at h
  split at h
  · cases h; rfl
  · split at h <;> cases h
    rfl

/-- The decoder answers rows of the source it was given, and no others. -/
theorem sourceOf_of_decode {source : Source} {bytes rest : List Byte} {i : Instr}
    (h : decode source bytes = .ok (i, rest)) : sourceOf i = source := by
  unfold decode at h
  split at h
  case h_10 tag tail =>
    have hfst : (decodeDelta tag tail).1 = i := congrArg Prod.fst (Except.ok.inj h)
    rw [← hfst]; exact sourceOf_decodeDelta tag tail
  case h_12 => cases h; split <;> rfl
  case h_14 => cases h; unfold decodePixel; split <;> rfl
  case h_17 =>
    split at h <;> cases h
    exact sourceOf_decodeCtrl ‹_›
  all_goals cases h
  all_goals rfl

/-- The stage that reads a source; the host's register writes are read in none. -/
def stageOf : Source → Option Phase
  | .payload => some .lzss
  | .flagByte => some .lzss
  | .token _ => some .lzss
  | .delta => some .interpret
  | .chunkType => some .frame
  | .pixel => some .convert
  | .ctrlWrite => none
  | .statusWrite => none

theorem stageOf_tokenSource (s : State) : stageOf s.tokenSource = some .lzss := by
  unfold State.tokenSource; split <;> rfl

theorem stageOf_of_fetch {s : State} {source : Source} {bytes : List Byte} (h : fetch s = some (source, bytes)) :
    stageOf source = some s.phase := by
  cases hp : s.phase <;> simp only [fetch, hp] at h
  case lzss =>
    unfold fetchLzss at h
    split at h
    · cases h
    · split at h <;> cases h
      · rfl
      · exact stageOf_tokenSource s
  case frame => cases h; rfl
  case interpret => unfold fetchDelta at h; split at h <;> cases h; rfl
  case convert => unfold fetchPixel at h; split at h <;> cases h; rfl
  all_goals cases h

/-- One engine step is a stage's action, or one row of the opcode table that the stage reads. -/
theorem engineStep_next {s t : State} (h : engineStep s = .next t) :
    (fetch s = none ∧ t = nextStage s) ∨
    ∃ source bytes i rest, fetch s = some (source, bytes) ∧ decode source bytes = .ok (i, rest) ∧
      stageOf (sourceOf i) = some s.phase ∧ exec i s = .next t := by
  cases hf : fetch s with
  | none => left; simp only [engineStep, hf] at h; cases h; exact ⟨rfl, rfl⟩
  | some f =>
    obtain ⟨source, bytes⟩ := f
    cases hd : decode source bytes with
    | error e => simp only [engineStep, hf, runBytes, hd] at h; cases h
    | ok d =>
      obtain ⟨i, rest⟩ := d
      refine .inr ⟨source, bytes, i, rest, rfl, hd, ?_, (engineStep_of_fetch hf hd).symm.trans h⟩
      rw [sourceOf_of_decode hd]; exact stageOf_of_fetch hf

/-- Tag 0x80 stops the interpretation, or leaves it free (42_frame_delta.md R119, 60_exceptions.md R179). -/
theorem execOp80_next {s t : State} (h : execOp80 s = .next t) :
    (s.cfg.op80Policy = .stop ∧ t = stopAt .op80 s) ∨ (s.cfg.op80Policy = .refuse ∧ t = refuseCommand s) := by
  unfold execOp80 at h
  split at h <;> cases h
  · exact .inl ⟨by assumption, rfl⟩
  · exact .inr ⟨by assumption, rfl⟩

theorem execOp80_of_stop {s : State} (hpol : s.cfg.op80Policy = .stop) : execOp80 s = .next (stopAt .op80 s) := by
  rw [execOp80, hpol]

theorem execOp80_of_refuse {s : State} (hpol : s.cfg.op80Policy = .refuse) : execOp80 s = .next (refuseCommand s) := by
  rw [execOp80, hpol]

/-- What COPY and FILL have in common: `vs` goes to the frame from `d` on, unless its `c` bytes pass the frame under
OOB_POLICY = STOP (42_frame_delta.md R117, R118, R122). -/
def writeOp (d c len : Nat) (vs : List Byte) (s : State) : Result :=
  if s.outOfFrame d c then .next (stopAt .frameOob s) else .next (finishOp len (fbWriteList d vs s))

theorem exec_copy_full (d n : Word) (data : List Byte) (s : State) :
    exec (.copy (.full d n data)) s = writeOp (scaled d) (scaled n) (9 + scaled n) data s := rfl

theorem exec_fill_full (p0 p1 : Byte) (d n : Word) (s : State) :
    exec (.fill (.full p0 p1 d n)) s =
      writeOp (scaled d) (scaled n) 11
        (fillBytes (fillPattern s.cfg.fillOrder p0 p1).1 (fillPattern s.cfg.fillOrder p0 p1).2 n.toNat) s := rfl

end Sys2Proof.Machine
end

section
/-! SUPPORT. Who sets and clears BUSY (10_state.md R22, R32). -/

namespace Sys2Proof.Machine

/-! ### The engine -/

theorem copyRun_busy (n : Nat) (s : State) : (copyRun n s).status.busy = s.status.busy := by
  rw [copyRun_frame]

theorem fbWriteList_busy (a : Nat) (vs : List Byte) (s : State) :
    (fbWriteList a vs s).status.busy = s.status.busy := by
  rw [fbWriteList_frame]

theorem writeOp_busy {d c len : Nat} {vs : List Byte} {s t : State} (h : writeOp d c len vs s = .next t) :
    t.status.busy = s.status.busy := by
  unfold writeOp at h
  split at h <;> cases h
  · rfl
  · exact fbWriteList_busy d vs s

/-- No row that the engine runs touches BUSY. -/
theorem exec_engine_busy {i : Instr} {p : Phase} {s t : State} (hi : stageOf (sourceOf i) = some p)
    (h : exec i s = .next t) : t.status.busy = s.status.busy := by
  cases i with
  | descr x => obtain ⟨_, rfl⟩ := execDescr_next.mp h; rfl
  | lzFlags f => cases h; rfl
  | lzLit c => cases h; rfl
  | lzRef off lenCode => cases h; exact copyRun_busy _ { consume 2 s with r := off }
  | lzRefPartial b0 => cases h; rfl
  | copy form =>
    cases form with
    | full d n data => exact writeOp_busy h
    | truncated tail => cases h; rfl
  | fill form =>
    cases form with
    | full p0 p1 d n => exact writeOp_busy h
    | truncated tail => cases h; rfl
  | op80 => rcases execOp80_next h with ⟨_, rfl⟩ | ⟨_, rfl⟩ <;> rfl
  | unknown tag => cases h; rfl
  | rawFrame => cases h; rfl
  | deltaInit ty => cases h; rfl
  | cvtKey | cvtPix | cvtPad => obtain ⟨_, rfl⟩ := writePixel_next.mp h; rfl
  | start | newSeq | clearStatus => cases hi

/-- Of the stages only COMPLETE touches BUSY (44_command.md R148). -/
theorem nextStage_busy (s : State) :
    (nextStage s).status.busy = s.status.busy ∨ (s.phase = .complete ∧ nextStage s = complete s) := by
  unfold nextStage
  split
  case h_2 => left; unfold refSelect; split <;> rfl
  case h_3 => left; unfold dupTest; split <;> rfl
  case h_10 hp => right; exact ⟨hp, rfl⟩
  all_goals left; rfl

theorem engineStep_busy {s t : State} (h : engineStep s = .next t) :
    t.status.busy = s.status.busy ∨ (s.phase = .complete ∧ t = complete s) := by
  rcases engineStep_next h with ⟨_, rfl⟩ | ⟨_, _, i, _, _, _, hi, hexec⟩
  · exact nextStage_busy s
  · exact .inl (exec_engine_busy hi hexec)

/-! ### The host -/

theorem getD_accessError_next {width offset : Nat} {r : Result} {t : State}
    (h : (accessError width offset).getD r = .next t) :
    accessError width offset = none ∧ r = .next t := by
  unfold accessError at h ⊢
  split at h
  · cases h
  · split at h
    · rw [if_neg ‹_›, if_pos ‹_›]; exact ⟨rfl, h⟩
    · cases h

theorem getD_memError_next {s t : State} {a : Nat} {r : Result} (h : (s.memError a).getD r = .next t) :
    r = .next t := by
  unfold State.memError at h
  split at h
  · split at h
    · cases h
    · exact h
  · cases h

theorem readReg_status (offset : Nat) (s : State) : (readReg offset s).status = s.status := by
  unfold readReg; split <;> rfl

theorem storeReg_status (offset : Nat) (v : Word) (s : State) : (storeReg offset v s).status = s.status := by
  unfold storeReg; split <;> rfl

theorem writeCtrl_busy {v : Word} {s t : State} (h : writeCtrl v s = .next t) :
    t.status.busy = s.status.busy ∨ (s.status.busy = false ∧ v.getLsbD 0 = true) := by
  rw [writeCtrl_eq] at h
  by_cases hstart : v.getLsbD 0 = true
  · rw [if_pos hstart] at h
    cases hbusy : s.status.busy with
    | false => exact .inr ⟨rfl, hstart⟩
    | true => rw [execStart_of_busy hbusy] at h; cases h; exact .inl hbusy
  · rw [if_neg hstart] at h
    split at h
    · exact .inl (execNewSeq_next h).2
    · cases h; exact .inl rfl

theorem writeReg_busy {offset : Nat} {v : Word} {s t : State} (h : writeReg offset v s = .next t) :
    t.status.busy = s.status.busy ∨ (s.status.busy = false ∧ offset = 0x00 ∧ v.getLsbD 0 = true) := by
  unfold writeReg at h
  split at h
  · rename_i hoffset
    exact (writeCtrl_busy h).imp_right fun ⟨hbusy, hstart⟩ => ⟨hbusy, hoffset, hstart⟩
  · split at h
    · cases h; exact .inl rfl
    · cases h; exact .inl (congrArg Status.busy (storeReg_status offset v s))

/-- A host access never clears BUSY, and sets it only by a CTRL write with bit 0 = 1 (44_command.md R141). -/
theorem hostStep_busy {access : HostAccess} {s t : State} (h : hostStep access s = .next t) :
    t.status.busy = s.status.busy ∨
      (s.status.busy = false ∧ ∃ v, access = .regWrite 4 0x00 v ∧ v.getLsbD 0 = true) := by
  cases access with
  | regRead width offset =>
    obtain ⟨_, hnext⟩ := getD_accessError_next h
    cases hnext
    exact .inl (congrArg Status.busy (readReg_status offset s))
  | regWrite width offset v =>
    obtain ⟨hnone, hnext⟩ := getD_accessError_next h
    obtain ⟨rfl, _, _⟩ := accessError_none.mp hnone
    refine (writeReg_busy hnext).imp_right ?_
    rintro ⟨hbusy, rfl, hstart⟩
    exact ⟨hbusy, v, rfl, hstart⟩
  | memRead a =>
    have hnext := getD_memError_next h
    unfold readMem at hnext
    split at hnext <;> cases hnext <;> exact .inl rfl
  | memWrite a v =>
    have hnext := getD_memError_next h
    unfold writeMem at hnext
    split at hnext <;> cases hnext
    exact .inl rfl

theorem resetStep_busy {s t : State} (h : resetStep s = .next t) : t.status.busy = false := by
  unfold resetStep at h
  split at h <;> cases h <;> rfl

/-- What every move does to BUSY: nothing, but for COMPLETE, a START on an idle block, and a reset. -/
theorem step_busy {s t : State} (h : step s = .next t) :
    t.status.busy = s.status.busy ∨
    (s.phase = .complete ∧ t.phase = .idle ∧ t.status.done = true ∧ t.status.busy = false) ∨
    (s.status.busy = false ∧ ∃ moves v, s.agenda = .host (.regWrite 4 0x00 v) :: moves ∧ v.getLsbD 0 = true) ∨
    (t.status.busy = false ∧ ∃ moves, s.agenda = .reset :: moves) := by
  have hengine : ∀ {s' : State}, s'.phase = s.phase → s'.status = s.status → engineStep s' = .next t →
      t.status.busy = s.status.busy ∨
        (s.phase = .complete ∧ t.phase = .idle ∧ t.status.done = true ∧ t.status.busy = false) := by
    intro s' hphase hstatus hs'
    rcases engineStep_busy hs' with hb | ⟨hp, rfl⟩
    · exact .inl (hstatus ▸ hb)
    · exact .inr ⟨hphase ▸ hp, rfl, rfl, rfl⟩
  match hmove : s.agenda with
  | [] =>
    rw [step_of_agenda_nil hmove] at h
    exact (hengine rfl rfl h).imp_right .inl
  | .engine :: moves =>
    rw [step_of_engine hmove] at h
    exact (hengine (s' := { s with agenda := moves }) rfl rfl h).imp_right .inl
  | .host access :: moves =>
    rw [step_of_host hmove] at h
    rcases hostStep_busy h with hb | ⟨hb, v, rfl, hstart⟩
    · exact .inl hb
    · exact .inr (.inr (.inl ⟨hb, moves, v, rfl, hstart⟩))
  | .reset :: moves =>
    rw [step_of_reset hmove] at h
    exact .inr (.inr (.inr ⟨resetStep_busy h, moves, rfl⟩))

/-- Settles O50, by the cases of `step_busy`. -/
theorem busyChangesOnlyByCommand : Obligations.BusyChangesOnlyByCommand := by
  unfold Obligations.BusyChangesOnlyByCommand
  intro s t h
  rcases step_busy h with hsame | ⟨hp, ht, hdone, hfall⟩ | ⟨hidle, hstart⟩ | ⟨hfall, hreset⟩
  · rw [hsame]; exact ⟨fun h0 h1 => absurd (h0.symm.trans h1) nofun, fun h1 h0 => absurd (h0.symm.trans h1) nofun⟩
  · exact ⟨fun _ hrise => absurd (hfall.symm.trans hrise) nofun, fun _ _ => .inr ⟨hp, ht, hdone⟩⟩
  · exact ⟨fun _ _ => hstart, fun hbusy => absurd (hidle.symm.trans hbusy) nofun⟩
  · exact ⟨fun _ hrise => absurd (hfall.symm.trans hrise) nofun, fun _ _ => .inl hreset⟩

end Sys2Proof.Machine
end

section
/-! SUPPORT. What reset leaves open is not observed (10_state.md R42): a command is run from two states that differ in the LZSS
state and in FB alone. The LZSS stage starts from its own initialisation (41_lzss.md R96) and nothing reads FB past the frame, so
the two runs take the same steps. -/

namespace Sys2Proof.Machine

/-! ### Two frames that agree -/

/-- Two memories in canonical form that hold the same frame of `size` bytes. -/
structure SameFrame (size : Nat) (m n : Memory) : Prop where
  wfLeft  : m.wf = true
  wfRight : n.wf = true
  read    : ∀ a, a < size → n.read a = m.read a

theorem SameFrame.write {size : Nat} {m n : Memory} (h : SameFrame size m n) (a : Nat) (v : Byte) :
    SameFrame size (m.write a v) (n.write a v) where
  wfLeft := Memory.wf_write h.wfLeft a v
  wfRight := Memory.wf_write h.wfRight a v
  read k hk := by rw [Memory.read_write h.wfLeft, Memory.read_write h.wfRight, h.read k hk]

theorem SameFrame.writeList {size : Nat} {m n : Memory} (h : SameFrame size m n) (a : Nat) (vs : List Byte) :
    SameFrame size (m.writeList a vs) (n.writeList a vs) where
  wfLeft := Memory.wf_writeList h.wfLeft a vs
  wfRight := Memory.wf_writeList h.wfRight a vs
  read k hk := by rw [Memory.read_writeList h.wfLeft, Memory.read_writeList h.wfRight, h.read k hk]

theorem SameFrame.zeroRange {size : Nat} {m n : Memory} (h : SameFrame size m n) (lo hi : Nat) :
    SameFrame size (m.zeroRange lo hi) (n.zeroRange lo hi) where
  wfLeft := Memory.wf_zeroRange h.wfLeft lo hi
  wfRight := Memory.wf_zeroRange h.wfRight lo hi
  read k hk := by rw [Memory.read_zeroRange h.wfLeft, Memory.read_zeroRange h.wfRight, h.read k hk]

/-- The blank canvas is the same whatever stood there (44_command.md R145). -/
theorem sameFrame_blank {m n : Memory} (hm : m.wf = true) (hn : n.wf = true) (size : Nat) :
    SameFrame size (m.zeroRange 0 size) (n.zeroRange 0 size) where
  wfLeft := Memory.wf_zeroRange hm 0 size
  wfRight := Memory.wf_zeroRange hn 0 size
  read k hk := by
    rw [Memory.read_zeroRange hm, Memory.read_zeroRange hn, if_pos ⟨Nat.zero_le k, hk⟩, if_pos ⟨Nat.zero_le k, hk⟩]

/-! ### The state with other open contents -/

/-- The LZSS state that 10_state.md R42 leaves open after reset: DICT, W, R, FLAGS and FBIT (R33). -/
structure LzssState where
  dict  : Memory
  w     : DictIx
  r     : DictIx
  flags : Byte
  fbit  : Nat

def State.lzssState (s : State) : LzssState := ⟨s.dict, s.w, s.r, s.flags, s.fbit⟩

/-- The state with another LZSS state and another FB. -/
def State.withOpen (z : LzssState) (m : Memory) (s : State) : State :=
  { s with dict := z.dict, w := z.w, r := z.r, flags := z.flags, fbit := z.fbit, fb := m }

@[simp] theorem withOpen_phase (z : LzssState) (m : Memory) (s : State) : (s.withOpen z m).phase = s.phase := rfl

/-- Where a command does not observe that the open contents are `z` and `m`: in the LZSS stage `z` is what the state holds anyway,
and `m` holds the same frame, of which FB_LEN says how much is read. -/
structure Unobserved (s : State) (z : LzssState) (m : Memory) : Prop where
  lzss  : s.phase = .lzss → z = s.lzssState
  frame : SameFrame s.fbSize s.fb m
  fits  : s.fbLen ≤ s.fbSize

/-- A move that leaves the frame alone. -/
theorem Unobserved.of_same_frame {s t : State} {z z' : LzssState} {m : Memory} (h : Unobserved s z m)
    (hfb : t.fb = s.fb) (hlen : t.fbLen = s.fbLen) (hsize : t.fbSize = s.fbSize)
    (hz : t.phase = .lzss → z' = t.lzssState) : Unobserved t z' m :=
  ⟨hz, by rw [hsize, hfb]; exact h.frame, by rw [hlen, hsize]; exact h.fits⟩

/-! ### What is fetched -/

theorem pixelBytes_withOpen {s : State} {z : LzssState} {m : Memory} (h : Unobserved s z m) :
    (s.withOpen z m).pixelBytes = s.pixelBytes := by
  have hbyte : ∀ a, a < s.fbLen → (s.withOpen z m).frameByte a = s.frameByte a := by
    intro a ha
    cases hfree : s.freeFrame with
    | none =>
      rw [frameByte_of_none (s := s.withOpen z m) hfree, frameByte_of_none hfree]
      exact h.frame.read a (lt_of_lt_of_le ha h.fits)
    | some k => simp only [State.frameByte, State.withOpen, hfree]
  show (if 2 * s.pix + 1 < s.fbLen then
    [(s.withOpen z m).frameByte (2 * s.pix), (s.withOpen z m).frameByte (2 * s.pix + 1)] else []) = s.pixelBytes
  unfold State.pixelBytes
  split
  · rename_i hvalid
    rw [hbyte _ (by omega), hbyte _ hvalid]
  · rfl

theorem fetch_withOpen {s : State} {z : LzssState} {m : Memory} (h : Unobserved s z m) :
    fetch (s.withOpen z m) = fetch s := by
  cases hp : s.phase <;> simp only [fetch, withOpen_phase, hp]
  case lzss => rw [h.lzss hp]; rfl
  case frame => rfl
  case interpret => rfl
  case convert => unfold fetchPixel; rw [pixelBytes_withOpen h]; rfl

/-! ### The rows -/

theorem copyRun_with_fb (n : Nat) (s : State) (m : Memory) :
    copyRun n { s with fb := m } = { copyRun n s with fb := m } := by
  induction n generalizing s with
  | zero => rfl
  | succ n ih => exact ih (copyOne s)

theorem copyRun_fb (n : Nat) (s : State) : (copyRun n s).fb = s.fb := by rw [copyRun_frame]

theorem copyRun_fbLen (n : Nat) (s : State) : (copyRun n s).fbLen = s.fbLen := by rw [copyRun_frame]

theorem copyRun_fbSize (n : Nat) (s : State) : (copyRun n s).fbSize = s.fbSize := by rw [copyRun_frame]; rfl

/-- The rows of the LZSS stage neither read nor write FB. -/
theorem exec_lzss_with_fb {i : Instr} {s t : State} (hi : stageOf (sourceOf i) = some .lzss) (he : exec i s = .next t)
    (m : Memory) :
    exec i { s with fb := m } = .next { t with fb := m } ∧ t.fb = s.fb ∧ t.fbLen = s.fbLen ∧ t.fbSize = s.fbSize := by
  cases i with
  | descr x =>
    obtain ⟨hle, rfl⟩ := execDescr_next.mp he
    exact ⟨execDescr_next.mpr ⟨hle, rfl⟩, rfl, rfl, rfl⟩
  | lzFlags f => cases he; exact ⟨rfl, rfl, rfl, rfl⟩
  | lzLit c => cases he; exact ⟨rfl, rfl, rfl, rfl⟩
  | lzRef off lenCode =>
    cases he
    have hrun := copyRun_with_fb (refLen lenCode) { consume 2 s with r := off } m
    exact ⟨congrArg (fun u => Host.Outcome.next (nextToken u)) hrun, copyRun_fb _ _, copyRun_fbLen _ _,
      copyRun_fbSize _ _⟩
  | lzRefPartial b0 => cases he; exact ⟨rfl, rfl, rfl, rfl⟩
  | copy | fill | op80 | unknown | rawFrame | deltaInit | cvtKey | cvtPix | cvtPad | start | newSeq | clearStatus =>
    cases hi

theorem fbWriteList_withOpen {s : State} {z : LzssState} {m : Memory} (h : SameFrame s.fbSize s.fb m) (a : Nat)
    (vs : List Byte) :
    ∃ m', fbWriteList a vs (s.withOpen z m) = (fbWriteList a vs s).withOpen z m' ∧
      SameFrame s.fbSize (fbWriteList a vs s).fb m' := by
  induction vs generalizing a s m with
  | nil => exact ⟨m, rfl, h⟩
  | cons v vs ih =>
    by_cases hin : a < s.fbSize
    · have h1 : fbWrite a v s = { s with fb := s.fb.write a v } := if_pos hin
      have h2 : fbWrite a v (s.withOpen z m) = (fbWrite a v s).withOpen z (m.write a v) :=
        (if_pos hin).trans (by rw [h1]; rfl)
      rw [fbWriteList, fbWriteList, h2, h1]
      exact ih (s := { s with fb := s.fb.write a v }) (h.write a v) (a + 1)
    · have h1 : fbWrite a v s = { s with status := { s.status with clipped := true } } := if_neg hin
      have h2 : fbWrite a v (s.withOpen z m) = (fbWrite a v s).withOpen z m :=
        (if_neg hin).trans (by rw [h1]; rfl)
      rw [fbWriteList, fbWriteList, h2, h1]
      exact ih (s := { s with status := { s.status with clipped := true } }) h (a + 1)

theorem fbWriteList_fbLen (a : Nat) (vs : List Byte) (s : State) : (fbWriteList a vs s).fbLen = s.fbLen := by
  rw [fbWriteList_frame]

theorem fbWriteList_phase (a : Nat) (vs : List Byte) (s : State) : (fbWriteList a vs s).phase = s.phase := by
  rw [fbWriteList_frame]

/-- COPY and FILL write the same bytes to both frames. -/
theorem writeOp_withOpen {s t : State} {z : LzssState} {m : Memory} (h : Unobserved s z m)
    (hp : s.phase = .interpret) {d c len : Nat} {vs : List Byte} (he : writeOp d c len vs s = .next t) :
    ∃ m', writeOp d c len vs (s.withOpen z m) = .next (t.withOpen z m') ∧ Unobserved t z m' := by
  unfold writeOp at he
  by_cases hout : s.outOfFrame d c = true
  · rw [if_pos hout] at he
    cases he
    exact ⟨m, if_pos hout, h.of_same_frame rfl rfl rfl h.lzss⟩
  · rw [if_neg hout] at he
    cases he
    obtain ⟨m', hrun, hsame⟩ := fbWriteList_withOpen (z := z) h.frame d vs
    have hsize : (fbWriteList d vs s).fbSize = s.fbSize := fbWriteList_fbSize d vs s
    refine ⟨m', (if_neg hout).trans (congrArg (fun u => Host.Outcome.next (finishOp len u)) hrun), ?_, ?_, ?_⟩
    · intro hl
      rw [finishOp_phase, fbWriteList_phase, hp] at hl
      cases hl
    · exact hsize.symm ▸ hsame
    · exact le_of_eq_of_le (fbWriteList_fbLen d vs s) (le_of_le_of_eq h.fits hsize.symm)

/-- A row that the engine runs does the same whatever the open contents. -/
theorem exec_withOpen {i : Instr} {s t : State} {z : LzssState} {m : Memory} (h : Unobserved s z m)
    (hi : stageOf (sourceOf i) = some s.phase) (he : exec i s = .next t) :
    ∃ z' m', exec i (s.withOpen z m) = .next (t.withOpen z' m') ∧ Unobserved t z' m' := by
  have hlzss : stageOf (sourceOf i) = some .lzss →
      ∃ z' m', exec i (s.withOpen z m) = .next (t.withOpen z' m') ∧ Unobserved t z' m' := by
    intro hil
    have hp : s.phase = .lzss := Option.some.inj (hi.symm.trans hil)
    obtain ⟨hrun, hfb, hlen, hsize⟩ := exec_lzss_with_fb hil he m
    rw [h.lzss hp]
    exact ⟨t.lzssState, m, hrun, h.of_same_frame hfb hlen hsize fun _ => rfl⟩
  cases i with
  | descr | lzFlags | lzLit | lzRef | lzRefPartial => exact hlzss rfl
  | copy form =>
    cases form with
    | full d n data => exact ⟨z, writeOp_withOpen h (Option.some.inj hi).symm he⟩
    | truncated tail => cases he; exact ⟨z, m, rfl, h.of_same_frame rfl rfl rfl h.lzss⟩
  | fill form =>
    cases form with
    | full p0 p1 d n => exact ⟨z, writeOp_withOpen h (Option.some.inj hi).symm he⟩
    | truncated tail => cases he; exact ⟨z, m, rfl, h.of_same_frame rfl rfl rfl h.lzss⟩
  | op80 =>
    rcases execOp80_next he with ⟨hpol, rfl⟩ | ⟨hpol, rfl⟩
    · exact ⟨z, m, execOp80_of_stop (s := s.withOpen z m) hpol, h.of_same_frame rfl rfl rfl h.lzss⟩
    · exact ⟨z, m, execOp80_of_refuse (s := s.withOpen z m) hpol, h.of_same_frame rfl rfl rfl h.lzss⟩
  | unknown tag => cases he; exact ⟨z, m, rfl, h.of_same_frame rfl rfl rfl h.lzss⟩
  | rawFrame =>
    cases he
    exact ⟨z, (m.writeList 0 (s.ds.take (min s.dsLen s.fbSize))).zeroRange (min s.dsLen s.fbSize) s.fbSize, rfl, nofun,
      (h.frame.writeList 0 _).zeroRange _ _, Nat.min_le_right ..⟩
  | deltaInit ty =>
    cases he
    refine ⟨z, if ty = 2 then m else m.zeroRange 0 s.fbSize, rfl, nofun, ?_, Nat.le_refl _⟩
    show SameFrame s.fbSize (if ty = 2 then s.fb else s.fb.zeroRange 0 s.fbSize) _
    split
    · exact h.frame
    · exact h.frame.zeroRange 0 s.fbSize
  | cvtKey | cvtPix | cvtPad =>
    obtain ⟨hle, rfl⟩ := writePixel_next.mp he
    exact ⟨z, m, writePixel_next.mpr ⟨hle, rfl⟩, h.of_same_frame rfl rfl rfl h.lzss⟩
  | start | newSeq | clearStatus => cases hi

/-! ### The stages -/

/-- The blank canvas makes FB's contents unobserved (44_command.md R145). -/
theorem refSelect_blank_withOpen {s : State} {m : Memory} (hblank : s.needsBlank = true) (hs : s.fb.wf = true)
    (hm : m.wf = true) (z : LzssState) :
    ∃ m', refSelect (s.withOpen z m) = (refSelect s).withOpen z m' ∧ Unobserved (refSelect s) z m' := by
  have hsel {u : State} (hu : u.needsBlank = true) : refSelect u =
      { u with
        fb := u.fb.zeroRange 0 u.fbSize, fbLen := u.fbSize, freeFrame := none
        status := { u.status with blankRef := true }, phase := .dupTest } := if_pos hu
  rw [hsel hblank, hsel (u := s.withOpen z m) hblank]
  exact ⟨m.zeroRange 0 s.fbSize, rfl, nofun, sameFrame_blank hs hm s.fbSize, Nat.le_refl _⟩

theorem refSelect_withOpen {s : State} {z : LzssState} {m : Memory} (h : Unobserved s z m) :
    ∃ m', refSelect (s.withOpen z m) = (refSelect s).withOpen z m' ∧ Unobserved (refSelect s) z m' := by
  by_cases hblank : s.needsBlank = true
  · exact refSelect_blank_withOpen hblank h.frame.wfLeft h.frame.wfRight z
  · have hsel {u : State} (hu : ¬ u.needsBlank = true) : refSelect u =
        { keepReference u with status := { u.status with blankRef := false }, phase := .dupTest } := if_neg hu
    rw [hsel hblank, hsel (u := s.withOpen z m) hblank]
    exact ⟨m, rfl, h.of_same_frame rfl rfl rfl nofun⟩

/-- A duplicate runs no LZSS stage; every other chunk starts it afresh (41_lzss.md R96, 44_command.md R146). -/
theorem dupTest_withOpen {s : State} {z : LzssState} {m : Memory} (h : Unobserved s z m) :
    ∃ z', dupTest (s.withOpen z m) = (dupTest s).withOpen z' m ∧ Unobserved (dupTest s) z' m := by
  by_cases hdup : s.isDuplicate = true
  · have hs : dupTest s = duplicate s := if_pos hdup
    have hu : dupTest (s.withOpen z m) = (duplicate s).withOpen z m := if_pos hdup
    rw [hs, hu]
    exact ⟨z, rfl, h.of_same_frame rfl rfl rfl nofun⟩
  · have hs : dupTest s =
        { lzssInit { s with status := { s.status with dup := false, clipped := false } } with phase := .lzss } :=
      if_neg hdup
    have hu : dupTest (s.withOpen z m) = (dupTest s).withOpen (dupTest s).lzssState m :=
      (if_neg hdup).trans (by rw [hs]; rfl)
    rw [hu, hs]
    exact ⟨_, rfl, h.of_same_frame rfl rfl rfl fun _ => rfl⟩

theorem nextStage_withOpen {s : State} {z : LzssState} {m : Memory} (h : Unobserved s z m) :
    ∃ z' m', nextStage (s.withOpen z m) = (nextStage s).withOpen z' m' ∧ Unobserved (nextStage s) z' m' := by
  cases hp : s.phase <;> simp only [nextStage, withOpen_phase, hp]
  case refSelect => exact ⟨z, refSelect_withOpen h⟩
  case dupTest =>
    obtain ⟨z', hnext, hz'⟩ := dupTest_withOpen h
    exact ⟨z', m, hnext, hz'⟩
  case idle | frame => exact ⟨z, m, rfl, h⟩
  all_goals exact ⟨z, m, rfl, h.of_same_frame rfl rfl rfl nofun⟩

/-! ### The run -/

theorem engineStep_withOpen {s t : State} {z : LzssState} {m : Memory} (h : Unobserved s z m)
    (he : engineStep s = .next t) :
    ∃ z' m', engineStep (s.withOpen z m) = .next (t.withOpen z' m') ∧ Unobserved t z' m' := by
  rcases engineStep_next he with ⟨hf, rfl⟩ | ⟨source, bytes, i, rest, hf, hd, hi, hexec⟩
  · obtain ⟨z', m', hnext, hopen⟩ := nextStage_withOpen h
    refine ⟨z', m', ?_, hopen⟩
    rw [engineStep, fetch_withOpen h, hf]
    exact congrArg Host.Outcome.next hnext
  · rw [engineStep_of_fetch ((fetch_withOpen h).trans hf) hd]
    exact exec_withOpen h hi hexec

theorem run_withOpen {k : Nat} {s t : State} {z : LzssState} {m : Memory} (h : Unobserved s z m)
    (hagenda : s.agenda = []) (hrun : Host.Core.run Sys2Proof.core k s = .next t) :
    ∃ z' m', Host.Core.run Sys2Proof.core k (s.withOpen z m) = .next (t.withOpen z' m') ∧ Unobserved t z' m' := by
  induction k generalizing s z m with
  | zero => cases hrun; exact ⟨z, m, rfl, h⟩
  | succ k ih =>
    rw [run_engine hagenda] at hrun
    cases he : engineStep s with
    | next u =>
      rw [he] at hrun
      obtain ⟨z', m', hstep, hu⟩ := engineStep_withOpen h he
      obtain ⟨z'', m'', hrest, ht⟩ := ih hu ((engineStep_agenda he).trans hagenda) hrun
      refine ⟨z'', m'', ?_, ht⟩
      rw [run_engine (s := s.withOpen z m) hagenda, hstep]
      exact hrest
    | fault f => rw [he] at hrun; cases hrun
    | refused r => rw [he] at hrun; cases hrun

/-- From REF_SELECT with a blank canvas on, a run does not observe the open contents it starts with. -/
theorem run_blank_withOpen {k : Nat} {s t : State} {m : Memory} (hphase : s.phase = .refSelect)
    (hblank : s.needsBlank = true) (hagenda : s.agenda = []) (hs : s.fb.wf = true) (hm : m.wf = true)
    (hrun : Host.Core.run Sys2Proof.core (k + 1) s = .next t) (z : LzssState) :
    ∃ z' m', Host.Core.run Sys2Proof.core (k + 1) (s.withOpen z m) = .next (t.withOpen z' m') ∧
      Unobserved t z' m' := by
  obtain ⟨m₁, hselect, hopen⟩ := refSelect_blank_withOpen hblank hs hm z
  have hstep : engineStep s = .next (refSelect s) := engineStep_refSelect hphase
  have hstep' : engineStep (s.withOpen z m) = .next ((refSelect s).withOpen z m₁) :=
    hselect ▸ engineStep_refSelect (s := s.withOpen z m) hphase
  rw [run_engine hagenda, hstep] at hrun
  rw [run_engine (s := s.withOpen z m) hagenda, hstep']
  exact run_withOpen hopen ((engineStep_agenda hstep).trans hagenda) hrun

theorem sameHostSide_fbSize {s t : State} (h : sameHostSide s t) : t.fbSize = s.fbSize := by
  unfold sameHostSide at h
  rw [h]; rfl

/-- Settles O60: with no previous frame REF_SELECT blanks the canvas, and from there on the open contents are unobserved. -/
theorem resetContentsUnobserved : Obligations.ResetContentsUnobserved := by
  unfold Obligations.ResetContentsUnobserved
  rintro s t dict fb w r flags fbit hinv ⟨hphase, hagenda, k, hrun, hidle⟩ hprev hinv'
  have hblank : s.needsBlank = true := by rw [State.needsBlank, hprev]; rfl
  have hsize : t.fbSize = s.fbSize :=
    sameHostSide_fbSize (engineRun_of_run hagenda hrun ▸ engineRun_keeps_host_side k s)
  cases k with
  | zero => cases hrun; exact absurd (hphase.symm.trans hidle) nofun
  | succ k =>
    obtain ⟨z, m, hrun', hopen⟩ := run_blank_withOpen (m := fb) hphase hblank hagenda hinv.memoriesOk.fbWf
      hinv'.memoriesOk.fbWf hrun ⟨dict, w, r, flags, fbit⟩
    exact ⟨t.withOpen z m, ⟨hphase, hagenda, k + 1, hrun', hidle⟩, rfl,
      fun a ha => hopen.frame.read a (hsize.symm ▸ ha)⟩

end Sys2Proof.Machine
end

section
/-! SUPPORT. The stops of the register port and of the host memory port (20_memory.md R50, R51, R55): addresses past
HOST_MEM_SIZE, ranges that meet the register block, and register accesses that are no aligned word. -/

namespace Sys2Proof.Machine

/-! ### Writes past HOST_MEM_SIZE -/

theorem hostWrite_of_gt {a : Nat} {vs : List Byte} {s : State} (h : s.cfg.hostMemSize < a + vs.length) :
    hostWrite a vs s = .fault .noSuchHostAddress := if_neg (by omega)

theorem execDescr_of_ge {s : State} (h : s.cfg.hostMemSize ≤ s.lSrc.toNat + s.payloadPos) (x : Byte) :
    execDescr x s = .fault .noSuchHostAddress := by
  simp only [execDescr]
  rw [hostWrite_of_gt (Nat.lt_succ_of_le h)]

theorem writePixel_of_gt {s : State} (h : s.cfg.hostMemSize < s.lDst.toNat + 4 * s.pix + 4) (r g b a : Byte) :
    writePixel r g b a s = .fault .noSuchHostAddress := by
  rw [writePixel, hostWrite_of_gt (vs := [r, g, b, a]) h]

/-- Settles O12: DESCR is one write and every converter row is one `writePixel`, and neither passes HOST_MEM_SIZE. -/
theorem writesOutsideHostMemoryFault : Obligations.WritesOutsideHostMemoryFault := by
  unfold Obligations.WritesOutsideHostMemoryFault
  intro s
  refine ⟨fun x h => execDescr_of_ge h x, ?_⟩
  rintro i (rfl | rfl | ⟨u, r, g, b, rfl⟩) h <;> exact writePixel_of_gt h _ _ _ _

/-! ### Register accesses that are no aligned word -/

theorem accessError_of_ge {offset : Nat} (h : 0x100 ≤ offset) (width : Nat) :
    accessError width offset = some (.fault .noSuchRegister) := if_pos h

theorem accessError_of_bad {width offset : Nat} (hend : offset < 0x100) (hbad : width ≠ 4 ∨ offset % 4 ≠ 0) :
    accessError width offset = some (.refused .badRegisterAccess) := by
  rw [accessError, if_neg (by omega), if_neg (by omega)]

/-- An access that may not happen answers its error, whether it is a read or a write. -/
theorem step_of_accessError {s : State} {width offset : Nat} {v : Word} {moves : List Turn} {r : Result}
    (hmove : s.agenda = .host (.regRead width offset) :: moves ∨ s.agenda = .host (.regWrite width offset v) :: moves)
    (herr : accessError width offset = some r) : step s = r := by
  rcases hmove with hmove | hmove <;> rw [step_of_host hmove, hostStep, herr] <;> rfl

/-- Settles O44: below 0x100 the width and the alignment are looked at, past it nothing else is. -/
theorem badRegisterAccessStops : Obligations.BadRegisterAccessStops := by
  unfold Obligations.BadRegisterAccessStops
  intro s width offset v moves hmove
  exact ⟨fun hend hbad => step_of_accessError hmove (accessError_of_bad hend hbad),
    fun hend => step_of_accessError hmove (accessError_of_ge hend width)⟩

/-! ### Ranges that meet the register block -/

theorem meetsRegisterBlock_iff {s : State} {base : Nat} (hbase : s.cfg.regBase = some base) {lo hi : Nat} :
    s.meetsRegisterBlock lo hi = true ↔ lo < hi ∧ lo < base + 0x100 ∧ base < hi := by
  simp only [State.meetsRegisterBlock, hbase, Bool.and_eq_true, decide_eq_true_eq, and_assoc]

/-- A range meets the register block when it has one of its addresses (20_memory.md R51, log 14). -/
theorem meetsRegisterBlock_of_mem {s : State} {base lo hi a : Nat} (hbase : s.cfg.regBase = some base)
    (hlo : lo ≤ a) (hhi : a < hi) (hfrom : base ≤ a) (hto : a < base + 0x100) : s.meetsRegisterBlock lo hi = true :=
  (meetsRegisterBlock_iff hbase).mpr ⟨by omega, by omega, by omega⟩

/-- The register block takes the 0x100 addresses from REG_BASE on (20_memory.md R51). -/
theorem inRegisterBlock_iff {s : State} {a : Nat} :
    s.inRegisterBlock a = true ↔ ∃ base, s.cfg.regBase = some base ∧ base ≤ a ∧ a < base + 0x100 := by
  cases hbase : s.cfg.regBase with
  | none => simp [State.inRegisterBlock, State.meetsRegisterBlock, hbase]
  | some base =>
    rw [State.inRegisterBlock, meetsRegisterBlock_iff hbase]
    simp only [Option.some.injEq, exists_eq_left']
    omega

/-! ### Host accesses to memory -/

theorem hostHas_iff {s : State} {a : Nat} : s.hostHas a = true ↔ a < s.cfg.hostMemSize := decide_eq_true_iff

theorem memError_of_ge {s : State} {a : Nat} (h : s.cfg.hostMemSize ≤ a) :
    s.memError a = some (.fault .noSuchHostAddress) :=
  if_neg (mt hostHas_iff.mp (Nat.not_lt.mpr h))

theorem memError_of_register {s : State} {a : Nat} (ha : a < s.cfg.hostMemSize) (hreg : s.inRegisterBlock a = true) :
    s.memError a = some (.refused .badRegisterAccess) :=
  (if_pos (hostHas_iff.mpr ha)).trans (if_pos hreg)

theorem memError_none {s : State} {a : Nat} (ha : a < s.cfg.hostMemSize) (hreg : ¬ s.inRegisterBlock a = true) :
    s.memError a = none :=
  (if_pos (hostHas_iff.mpr ha)).trans (if_neg hreg)

/-! ### START over the register block -/

theorem issueStart_covers {s : State} (hcheck : (latch s).checkRanges = .none)
    (hcover : (latch s).coversRegisters = true) : issueStart s = .refused .coversRegisterBlock := by
  simp only [issueStart, hcheck, hcover, if_true]

/-- Settles O34: CHECK_RANGES passes on the values to be latched, and the shared address makes one of the ranges meet the
block. -/
theorem coveredCommandRefused : Obligations.CoveredCommandRefused := by
  unfold Obligations.CoveredCommandRefused
  intro s newSeq irqEn base a src srcEnd dst npix dstEnd hbusy hsrc hdst hapart hframe hbase hfrom hto hshared
  rw [exec_start_idle hbusy]
  apply issueStart_covers
  · refine checkRanges_none.mpr ⟨hsrc, hdst, ?_, ?_⟩
    · show ¬ (0 < s.storageSize.toNat ∧ 0 < npix ∧ src < dstEnd ∧ dst < srcEnd)
      omega
    · show npix * 2 ≤ s.cfg.fbCap
      omega
  · refine Bool.or_eq_true_iff.mpr ?_
    rcases hshared with ⟨hlo, hhi⟩ | ⟨hlo, hhi⟩
    · exact .inl (meetsRegisterBlock_of_mem (s := latch _) hbase hlo hhi hfrom hto)
    · exact .inr (meetsRegisterBlock_of_mem (s := latch _) hbase hlo hhi hfrom hto)

end Sys2Proof.Machine
end

section
/-! SUPPORT. What one engine step can do in each stage that runs rows of the opcode table, said once: a token of the LZSS stage,
an operation of INTERPRET, a pixel of CONVERT (41_lzss.md R98, 42_frame_delta.md R114, 43_color.md R131); and what it does to
host memory (20_memory.md R50). -/

namespace Sys2Proof.Machine

/-! ### A token of the LZSS stage -/

/-- A flag byte or a token of `k` input bytes has run: it takes its bytes and emits at most nine for each (41_lzss.md R105). -/
structure TokenRun (k : Nat) (s t : State) : Prop where
  frame  : t = { s with
    p := s.p + k, din := s.din.drop k, fbit := t.fbit, flags := t.flags, r := t.r, w := t.w, dict := t.dict
    ds := t.ds, produced := t.produced, status := { s.status with dsOvf := t.status.dsOvf } }
  fbitLe : s.fbit ≤ 8 → t.fbit ≤ 8
  dictWf : s.dict.wf = true → t.dict.wf = true
  dictIn : s.dict.below 4096 = true → t.dict.below 4096 = true
  dsFits : (∀ cap, s.cfg.dsCap = some cap → s.ds.length ≤ cap) → ∀ cap, s.cfg.dsCap = some cap → t.ds.length ≤ cap
  emits  : ∃ n, n ≤ 9 * k ∧ t.produced = s.produced + n ∧ t.ds.length ≤ s.ds.length + n

theorem tokenRun_flags (f : Byte) (s : State) : TokenRun 1 s { consume 1 s with flags := f, fbit := 0 } where
  frame  := rfl
  fbitLe _ := Nat.zero_le 8
  dictWf := id
  dictIn := id
  dsFits := id
  emits  := ⟨0, by omega, rfl, Nat.le_refl _⟩

theorem tokenRun_literal {s : State} (hbit : s.fbit ≠ 8) (c : Byte) :
    TokenRun 1 s (nextToken (emit c (consume 1 s))) where
  frame    := rfl
  fbitLe h := by show s.fbit + 1 ≤ 8; omega
  dictWf h := Memory.wf_write h _ _
  dictIn h := Memory.below_write h s.w.isLt _
  dsFits h := emit_ds_fits (s := consume 1 s) h
  emits    := ⟨1, by omega, rfl, emit_ds_length c (consume 1 s)⟩

theorem tokenRun_partial (s : State) : TokenRun 1 s (consume 1 s) where
  frame  := rfl
  fbitLe := id
  dictWf := id
  dictIn := id
  dsFits := id
  emits  := ⟨0, by omega, rfl, Nat.le_refl _⟩

theorem refLen_le (lenCode : BitVec 4) : refLen lenCode ≤ 18 := by
  have := lenCode.isLt
  unfold refLen
  omega

theorem tokenRun_ref {s : State} (hbit : s.fbit ≠ 8) (off : DictIx) {len : Nat} (hlen : len ≤ 18) :
    TokenRun 2 s (nextToken (copyRun len { consume 2 s with r := off })) where
  frame    := by rw [copyRun_frame]; rfl
  fbitLe h := by rw [copyRun_frame]; show s.fbit + 1 ≤ 8; omega
  dictWf h := copyRun_dict_wf h
  dictIn h := copyRun_dict_below h
  dsFits h := copyRun_ds_fits (s := { consume 2 s with r := off }) h
  emits    := ⟨len, by omega, by rw [copyRun_frame]; rfl, copyRun_ds_length _ _⟩

/-- One engine step of the LZSS stage: the end, one byte descrambled inside the token that needs it, or that token. -/
theorem engineStep_lzss_next {s t : State} (hp : s.phase = .lzss) (h : engineStep s = .next t) :
    (s.inputLen ≤ s.p ∧ t = endLzss s) ∨
    (¬ s.inputLen ≤ s.p ∧ s.din.length < s.tokenLength ∧
      execDescr (s.hostRead (s.lSrc.toNat + s.payloadPos)) s = .next t) ∨
    (¬ s.inputLen ≤ s.p ∧ s.tokenLength ≤ s.din.length ∧ TokenRun s.tokenLength s t) := by
  rcases engineStep_lzss hp with ⟨hend, he⟩ | ⟨hin, hneed, he⟩ | ⟨hin, hlen, _, f, rest, hdin, he⟩ |
    ⟨hin, hlen, hbit, _, c, rest, hdin, he⟩ | ⟨hlast, hlen, _, _, b, rest, hdin, he⟩ |
    ⟨hin, hlen, hbit, _, b0, b1, rest, hdin, he⟩ <;> rw [he] at h
  · cases h; exact .inl ⟨hend, rfl⟩
  · exact .inr (.inl ⟨hin, hneed, h⟩)
  all_goals
    cases h
    refine .inr (.inr ⟨by omega, by simp [hlen, hdin], ?_⟩)
    rw [hlen]
  · exact tokenRun_flags f s
  · exact tokenRun_literal hbit c
  · exact tokenRun_partial s
  · exact tokenRun_ref hbit _ (refLen_le _)

/-! ### An operation of INTERPRET -/

/-- A frame-delta operation has run at a tag inside the stream: it writes inside the frame only, and it moves IP on, inside the
stream, or sets CAUSE (42_frame_delta.md R114, R116). -/
structure OperationRun (s t : State) : Prop where
  frame   : t = { s with
    fb := t.fb, ip := t.ip, ops := t.ops, cause := t.cause, freeFrame := t.freeFrame, freeCount := t.freeCount
    status := { s.status with clipped := t.status.clipped } }
  fbWf    : s.fb.wf = true → t.fb.wf = true
  fbIn    : ∀ n, s.fbSize ≤ n → s.fb.below n = true → t.fb.below n = true
  ipLe    : t.ip ≤ s.dsLen
  goesOn  : t.cause = .none → s.ip < t.ip
  meaning : s.cfg.op80Policy = .stop → t.freeFrame = s.freeFrame

theorem operationRun_stop {s : State} (hip : s.ip < s.dsLen) {cause : StopCause} (hcause : cause ≠ .none) :
    OperationRun s (stopAt cause s) where
  frame   := rfl
  fbWf    := id
  fbIn _ _ := id
  ipLe    := Nat.le_of_lt hip
  goesOn h := absurd h hcause
  meaning _ := rfl

theorem operationRun_refuse {s : State} (hip : s.ip < s.dsLen) (hpol : s.cfg.op80Policy = .refuse) :
    OperationRun s (refuseCommand s) where
  frame    := rfl
  fbWf     := id
  fbIn _ _ := id
  ipLe     := (refuseCommand_ends s).left
  goesOn h := by
    obtain ⟨_, hend, _⟩ := refuseCommand_ends s
    rw [hend h]; exact hip
  meaning h := absurd (h.symm.trans hpol) nofun

/-- COPY and FILL: the write and the step past their bytes, or stop 4 (42_frame_delta.md R117, R118, R122). -/
theorem operationRun_write {s t : State} {d c len : Nat} {vs : List Byte} (hlen : 0 < len)
    (hend : s.ip + len ≤ s.dsLen) (h : writeOp d c len vs s = .next t) : OperationRun s t := by
  unfold writeOp at h
  split at h <;> cases h
  · exact operationRun_stop (by omega) nofun
  · exact
      { frame     := by rw [fbWriteList_frame]; rfl
        fbWf      := fbWriteList_wf
        fbIn _ hn h := fbWriteList_below h hn
        ipLe      := by rw [fbWriteList_frame]; exact hend
        goesOn _  := by rw [fbWriteList_frame]; show s.ip < s.ip + len; omega
        meaning _ := by rw [fbWriteList_frame]; rfl }

/-- One engine step of INTERPRET: the end, or an operation at a tag inside the stream. -/
theorem engineStep_interpret_next {s t : State} (hp : s.phase = .interpret) (h : engineStep s = .next t) :
    t = endInterpret s ∨ (s.ip < s.dsLen ∧ s.cause = .none ∧ OperationRun s t) := by
  rcases engineStep_interpret hp with ⟨_, he⟩ | ⟨⟨hip, hcause⟩, hop⟩
  · rw [he] at h; cases h; exact .inl rfl
  · refine .inr ⟨hip, hcause, ?_⟩
    rcases hop with ⟨tail, _, he⟩ | ⟨d, n, data, _, hend, he⟩ | ⟨tail, _, he⟩ | ⟨p0, p1, d, n, hend, he⟩ |
      ⟨tail, _, he⟩ | ⟨tag, tail, _, _, he⟩ <;> rw [he] at h
    · cases h; exact operationRun_stop hip nofun
    · exact operationRun_write (len := 9 + scaled n) (by omega) (by omega) h
    · cases h; exact operationRun_stop hip nofun
    · exact operationRun_write (len := 11) (by omega) hend h
    · rcases execOp80_next h with ⟨_, rfl⟩ | ⟨hpol, rfl⟩
      · exact operationRun_stop hip nofun
      · exact operationRun_refuse hip hpol
    · cases h; exact operationRun_stop hip nofun

/-! ### A pixel of CONVERT -/

/-- One engine step of CONVERT: the end, or the four bytes of a pixel of the frame. -/
theorem engineStep_convert_next {s t : State} (hp : s.phase = .convert) (h : engineStep s = .next t) :
    (¬ s.pix < s.npix ∧ t = endConvert s) ∨
    (s.pix < s.npix ∧ ∃ r g b a, writePixel r g b a s = .next t) := by
  rcases engineStep_convert hp with ⟨hend, he⟩ | ⟨hin, r, g, b, a, he⟩ <;> rw [he] at h
  · cases h; exact .inl ⟨hend, rfl⟩
  · exact .inr ⟨hin, r, g, b, a, h⟩

/-! ### Host memory -/

/-- Writing a list of bytes leaves every address outside it alone, whatever the form of the memory. -/
theorem Memory.read_writeList_other (m : Memory) {a k : Nat} (vs : List Byte) (hk : k < a ∨ a + vs.length ≤ k) :
    Memory.read (Memory.writeList m a vs) k = Memory.read m k := by
  induction vs generalizing m a with
  | nil => rfl
  | cons v vs ih =>
    rw [List.length_cons] at hk
    rw [Memory.writeList, ih _ (by omega), Memory.read_write_other m v (by omega)]

theorem payloadPos_lt {s : State} (hin : ¬ s.inputLen ≤ s.p) (hneed : s.din.length < s.tokenLength) :
    s.payloadPos < s.inputLen := by
  have := tokenLength_fits hin
  unfold State.payloadPos
  omega

/-- No stage action writes host memory. -/
theorem nextStage_mem (s : State) : (nextStage s).mem = s.mem := by
  unfold nextStage
  split
  case h_2 => unfold refSelect; split <;> rfl
  case h_3 => unfold dupTest; split <;> rfl
  all_goals rfl

/-- The engine writes host memory in two places only: DESCR a byte of the payload, the converter a pixel of the RGBA range
(20_memory.md R50). -/
theorem engineStep_mem {s t : State} (h : engineStep s = .next t) :
    t.mem = s.mem ∨
    (∃ n y, n < s.inputLen ∧ t.mem = s.mem.write (s.lSrc.toNat + n) y) ∨
    (∃ i r g b a, i < s.npix ∧ t.mem = s.mem.writeList (s.lDst.toNat + 4 * i) [r, g, b, a]) := by
  have hstage : engineStep s = .next (nextStage s) → t.mem = s.mem := by
    intro he; rw [he] at h; cases h; exact nextStage_mem s
  cases hp : s.phase
  case lzss =>
    rcases engineStep_lzss_next hp h with ⟨_, rfl⟩ | ⟨hin, hneed, hdescr⟩ | ⟨_, _, htoken⟩
    · exact .inl rfl
    · obtain ⟨_, rfl⟩ := execDescr_next.mp hdescr
      exact .inr (.inl ⟨s.payloadPos, _, payloadPos_lt hin hneed, rfl⟩)
    · rw [htoken.frame]; exact .inl rfl
  case frame =>
    rw [engineStep_frame hp] at h
    split at h <;> cases h <;> exact .inl rfl
  case interpret =>
    rcases engineStep_interpret_next hp h with rfl | ⟨_, _, hop⟩
    · exact .inl rfl
    · rw [hop.frame]; exact .inl rfl
  case convert =>
    rcases engineStep_convert_next hp h with ⟨_, rfl⟩ | ⟨hin, r, g, b, a, hpix⟩
    · exact .inl rfl
    · obtain ⟨_, rfl⟩ := writePixel_next.mp hpix
      exact .inr (.inr ⟨s.pix, r, g, b, a, hin, rfl⟩)
  all_goals exact .inl (hstage (by rw [engineStep]; simp only [fetch, hp]))

/-- The address is in neither range of the latched command (20_memory.md R50). -/
def State.outsideRanges (s : State) (a : Nat) : Prop :=
  (a < s.lSrc.toNat ∨ s.lSrc.toNat + s.inputLen ≤ a) ∧ (a < s.lDst.toNat ∨ s.lDst.toNat + 4 * s.npix ≤ a)

theorem engineStep_keeps_outside {s t : State} (h : engineStep s = .next t) {a : Nat} (ha : s.outsideRanges a) :
    t.mem.read a = s.mem.read a := by
  obtain ⟨hsrc, hdst⟩ := ha
  rcases engineStep_mem h with hm | ⟨n, y, hn, hm⟩ | ⟨i, r, g, b, x, hi, hm⟩ <;> rw [hm]
  · exact Memory.read_write_other _ _ (by omega)
  · exact Memory.read_writeList_other _ _ (by simp only [List.length_cons, List.length_nil]; omega)

theorem sameHostSide_outsideRanges {s t : State} (h : sameHostSide s t) (a : Nat) :
    t.outsideRanges a ↔ s.outsideRanges a := by
  unfold sameHostSide at h
  rw [h]; rfl

theorem run_keeps_outside {k : Nat} {s t : State} (hagenda : s.agenda = [])
    (hrun : Host.Core.run Sys2Proof.core k s = .next t) {a : Nat} (ha : s.outsideRanges a) :
    t.mem.read a = s.mem.read a := by
  induction k generalizing s with
  | zero => cases hrun; rfl
  | succ k ih =>
    rw [run_engine hagenda] at hrun
    cases he : engineStep s with
    | next u =>
      rw [he] at hrun
      have hu : u.outsideRanges a := (sameHostSide_outsideRanges (engineStep_keeps_host_side he) a).mpr ha
      exact (ih ((engineStep_agenda he).trans hagenda) hrun hu).trans (engineStep_keeps_outside he ha)
    | fault f => rw [he] at hrun; cases hrun
    | refused r => rw [he] at hrun; cases hrun

/-- Settles O58: each step of the run writes inside the ranges, which no step moves. -/
theorem commandTouchesOnlyItsRanges : Obligations.CommandTouchesOnlyItsRanges := by
  unfold Obligations.CommandTouchesOnlyItsRanges
  rintro s t _ ⟨_, hagenda, k, hrun, _⟩ a hsrc hdst
  exact run_keeps_outside hagenda hrun ⟨hsrc, hdst⟩

end Sys2Proof.Machine
end

section
/-! SUPPORT. The engine keeps the invariant: one lemma per stage of a command (44_command.md R143). -/

namespace Sys2Proof.Machine

/-! ### The parts of the invariant while a command runs -/

/-- BUSY and the latched command stay as they are from one stage to the next. -/
theorem CommandOk.of_running {s t : State} (h : CommandOk s) (hs : s.phase ≠ .idle) (ht : t.phase ≠ .idle)
    (hbusy : t.status.busy = s.status.busy) (hranges : t.checkRanges = s.checkRanges) : CommandOk t where
  busyIff    := by rw [hbusy, h.busyIff]; exact iff_of_true hs ht
  rangesOk _ := hranges.trans (h.rangesOk hs)

/-- A frame that is valid to its end has no bytes past FB_LEN to speak of. -/
theorem frameFits_of_full {s : State} (hlen : s.fbLen = s.fbSize) : s.frameFits s.fbSize :=
  ⟨le_of_eq hlen, fun _ hle hlt => by omega⟩

/-- The reference is selected and the whole frame is valid (42_frame_delta.md R113). -/
theorem frameOk_of_full {s : State} (hp : s.phase.beforeRef = false) (hlen : s.fbLen = s.fbSize)
    (hmeaning : s.cfg.op80Policy = .stop → s.freeFrame = none) : FrameOk s where
  prevFits h := absurd (h.symm.trans hp) nofun
  fits _     := frameFits_of_full hlen
  full _     := hlen
  meaning    := hmeaning

/-- The reference is selected and the frame stays as it is. -/
theorem FrameOk.of_fits {s t : State} (h : FrameOk s) (hs : s.phase.beforeRef = false)
    (ht : t.phase.beforeRef = false) (hfull : t.phase.interpreting = true → s.phase.interpreting = true)
    (hframe : t = { t with cfg := s.cfg, fb := s.fb, fbLen := s.fbLen, lWidth := s.lWidth, lHeight := s.lHeight
                           freeFrame := s.freeFrame }) : FrameOk t := by
  have hfits := h.fits hs
  have hmeaning := h.meaning
  rw [hframe]
  exact
    { prevFits := fun hb => absurd (hb.symm.trans ht) nofun
      fits := fun _ => hfits, full := fun hi => h.full (hfull hi), meaning := hmeaning }

/-! ### REF_SELECT and the duplicate test -/

theorem inv_refSelect {s : State} (h : Inv s) (hp : s.phase = .refSelect) : Inv (refSelect s) := by
  have hrun : s.phase ≠ .idle := by rw [hp]; nofun
  unfold refSelect
  split
  · exact
      { cfgOk := h.cfgOk
        memoriesOk := { h.memoriesOk with
          fbWf := Memory.wf_zeroRange h.memoriesOk.fbWf _ _, fbIn := Memory.below_zeroRange h.memoriesOk.fbIn _ _ }
        countersOk := { h.countersOk with inputLe := nofun, dinLe := nofun, ipLe := nofun, pixLe := nofun }
        commandOk := h.commandOk.of_running hrun nofun rfl rfl
        frameOk := frameOk_of_full rfl rfl fun _ => rfl }
  · rename_i hkeep
    simp only [State.needsBlank, Bool.or_eq_true, Bool.not_eq_true', decide_eq_true_eq, not_or, Bool.not_eq_false,
      not_not, ne_eq] at hkeep
    obtain ⟨hvalid, hsize⟩ := hkeep
    have hfits : s.frameFits s.fbSize := hsize ▸ h.frameOk.prevFits (by rw [hp]; rfl) hvalid
    exact
      { cfgOk := h.cfgOk
        memoriesOk := { h.memoriesOk with }
        countersOk := { h.countersOk with inputLe := nofun, dinLe := nofun, ipLe := nofun, pixLe := nofun }
        commandOk := h.commandOk.of_running hrun nofun rfl rfl
        frameOk :=
          { prevFits := nofun, fits := fun _ => hfits, full := nofun
            meaning := fun hpol => by
              show s.freeFrame.map _ = none
              rw [h.frameOk.meaning hpol]; rfl } }

theorem inv_dupTest {s : State} (h : Inv s) (hp : s.phase = .dupTest) : Inv (dupTest s) := by
  have hrun : s.phase ≠ .idle := by rw [hp]; nofun
  have href : s.phase.beforeRef = false := by rw [hp]; rfl
  unfold dupTest
  split
  · exact
      { cfgOk := h.cfgOk
        memoriesOk := { h.memoriesOk with }
        countersOk := { h.countersOk with
          dsFits := fun _ _ => Nat.zero_le _, dsLe := Nat.zero_le _
          inputLe := nofun, dinLe := nofun, ipLe := nofun, pixLe := fun _ => Nat.zero_le _ }
        commandOk := h.commandOk.of_running hrun nofun rfl rfl
        frameOk := h.frameOk.of_fits href rfl nofun rfl }
  · exact
      { cfgOk := h.cfgOk
        memoriesOk := { h.memoriesOk with dictWf := rfl, dictIn := rfl }
        countersOk :=
          { fbitLe := Nat.le_refl 8, dsFits := fun _ _ => Nat.zero_le _, dsLe := Nat.zero_le _
            inputLe := fun _ => Nat.zero_le _, dinLe := fun _ => Nat.zero_le _, ipLe := nofun, pixLe := nofun }
        commandOk := h.commandOk.of_running hrun nofun rfl rfl
        frameOk := h.frameOk.of_fits href rfl nofun rfl }

/-! ### The LZSS stage -/

theorem inv_endLzss {s : State} (h : Inv s) (hp : s.phase = .lzss) : Inv (endLzss s) where
  cfgOk := h.cfgOk
  memoriesOk := { h.memoriesOk with }
  countersOk := { h.countersOk with inputLe := nofun, dinLe := nofun, ipLe := nofun, pixLe := nofun }
  commandOk := h.commandOk.of_running (by rw [hp]; nofun) nofun rfl rfl
  frameOk := h.frameOk.of_fits (by rw [hp]; rfl) rfl nofun rfl

/-- A descrambled byte belongs to the token that asked for it (41_lzss.md R101, log 6). -/
theorem inv_descr {s t : State} (h : Inv s) (hin : ¬ s.inputLen ≤ s.p) (hneed : s.din.length < s.tokenLength)
    {x : Byte} (he : execDescr x s = .next t) : Inv t := by
  obtain ⟨hexists, rfl⟩ := execDescr_next.mp he
  have hwaiting (y : Byte) : (s.din ++ [y]).length = s.din.length + 1 := by simp
  have hfits := tokenLength_fits hin
  exact
    { cfgOk := h.cfgOk
      memoriesOk := { h.memoriesOk with
        memWf := Memory.wf_write h.memoriesOk.memWf _ _
        memIn := Memory.below_write h.memoriesOk.memIn hexists _ }
      countersOk := { h.countersOk with
        inputLe := fun _ => by show s.p + (s.din ++ [_]).length ≤ s.inputLen; rw [hwaiting]; omega
        dinLe := fun _ => by show (s.din ++ [_]).length ≤ s.tokenLength; rw [hwaiting]; omega }
      commandOk := { h.commandOk with }
      frameOk := { h.frameOk with } }

/-- A token takes all the bytes that waited for it. -/
theorem inv_token {s t : State} (h : Inv s) (hp : s.phase = .lzss) (hin : ¬ s.inputLen ≤ s.p)
    (ht : TokenRun s.tokenLength s t) : Inv t := by
  obtain ⟨n, _, hproduced, hds⟩ := ht.emits
  have hfits := tokenLength_fits hin
  have hdrop : s.din.drop s.tokenLength = [] := List.drop_eq_nil_of_le (h.countersOk.dinLe hp)
  have hdin : t.din = [] := by rw [ht.frame]; exact hdrop
  have hcounters : CountersOk t :=
    { fbitLe := ht.fbitLe h.countersOk.fbitLe
      dsFits := by
        have hcfg : t.cfg = s.cfg := by rw [ht.frame]
        rw [hcfg]; exact ht.dsFits h.countersOk.dsFits
      dsLe := by have := h.countersOk.dsLe; omega
      inputLe := fun _ => by rw [hdin, ht.frame]; exact hfits
      dinLe := fun _ => by rw [hdin]; exact Nat.zero_le _
      ipLe := by rw [ht.frame]; intro hl; exact absurd (hp.symm.trans hl) nofun
      pixLe := by rw [ht.frame]; exact h.countersOk.pixLe }
  have hmemories : MemoriesOk t := by
    have hdictWf := ht.dictWf h.memoriesOk.dictWf
    have hdictIn := ht.dictIn h.memoriesOk.dictIn
    rw [ht.frame]
    exact { h.memoriesOk with dictWf := hdictWf, dictIn := hdictIn }
  exact
    { cfgOk := by rw [ht.frame]; exact h.cfgOk
      memoriesOk := hmemories
      countersOk := hcounters
      commandOk := by rw [ht.frame]; exact { h.commandOk with }
      frameOk := by rw [ht.frame]; exact { h.frameOk with } }

theorem inv_lengthCheck {s : State} (h : Inv s) (hp : s.phase = .lengthCheck) : Inv (lengthCheck s) where
  cfgOk := h.cfgOk
  memoriesOk := { h.memoriesOk with }
  countersOk := { h.countersOk with inputLe := nofun, dinLe := nofun, ipLe := nofun, pixLe := nofun }
  commandOk := h.commandOk.of_running (by rw [hp]; nofun) nofun rfl rfl
  frameOk := h.frameOk.of_fits (by rw [hp]; rfl) rfl nofun rfl

/-! ### The frame -/

/-- The frame of a running command fits the frame buffer (60_exceptions.md R164). -/
theorem Inv.fbSize_le {s : State} (h : Inv s) (hrun : s.phase ≠ .idle) : s.fbSize ≤ s.cfg.fbCap := by
  obtain ⟨_, _, _, hsize⟩ := checkRanges_none.mp (h.commandOk.rangesOk hrun)
  exact hsize

theorem inv_rawFrame {s t : State} (h : Inv s) (hp : s.phase = .frame) (he : execRawFrame s = .next t) : Inv t := by
  cases he
  have hrun : s.phase ≠ .idle := by rw [hp]; nofun
  have hcap := h.fbSize_le hrun
  have hwf : (s.fb.writeList 0 (s.ds.take (min s.dsLen s.fbSize))).wf = true :=
    Memory.wf_writeList h.memoriesOk.fbWf _ _
  have hin : (s.fb.writeList 0 (s.ds.take (min s.dsLen s.fbSize))).below s.cfg.fbCap = true :=
    Memory.below_writeList h.memoriesOk.fbIn _ (by simp only [List.length_take]; omega)
  exact
    { cfgOk := h.cfgOk
      memoriesOk := { h.memoriesOk with
        fbWf := Memory.wf_zeroRange hwf _ _, fbIn := Memory.below_zeroRange hin _ _ }
      countersOk := { h.countersOk with
        inputLe := nofun, dinLe := nofun, ipLe := nofun, pixLe := fun _ => Nat.zero_le _ }
      commandOk := h.commandOk.of_running hrun nofun rfl rfl
      frameOk :=
        { prevFits := nofun
          fits := fun _ => ⟨Nat.min_le_right .., fun a hlo hhi =>
            (Memory.read_zeroRange hwf _ _ a).trans (if_pos ⟨hlo, hhi⟩)⟩
          full := nofun
          meaning := fun _ => rfl } }

theorem inv_deltaInit {s t : State} (h : Inv s) (hp : s.phase = .frame) {ty : Byte}
    (he : execDeltaInit ty s = .next t) : Inv t := by
  cases he
  obtain ⟨hwf, hin⟩ : (if ty = 2 then s.fb else s.fb.zeroRange 0 s.fbSize).wf = true ∧
      (if ty = 2 then s.fb else s.fb.zeroRange 0 s.fbSize).below s.cfg.fbCap = true := by
    split
    · exact ⟨h.memoriesOk.fbWf, h.memoriesOk.fbIn⟩
    · exact ⟨Memory.wf_zeroRange h.memoriesOk.fbWf _ _, Memory.below_zeroRange h.memoriesOk.fbIn _ _⟩
  have hmeaning (hpol : s.cfg.op80Policy = .stop) : (if ty = 2 then s.freeFrame else none) = none := by
    split
    · exact h.frameOk.meaning hpol
    · rfl
  exact
    { cfgOk := h.cfgOk
      memoriesOk := { h.memoriesOk with fbWf := hwf, fbIn := hin }
      countersOk := { h.countersOk with inputLe := nofun, dinLe := nofun, ipLe := nofun, pixLe := nofun }
      commandOk := h.commandOk.of_running (by rw [hp]; nofun) nofun rfl rfl
      frameOk := frameOk_of_full rfl rfl hmeaning }

theorem inv_beginInterpret {s : State} (h : Inv s) (hp : s.phase = .interpretInit) : Inv (beginInterpret s) where
  cfgOk := h.cfgOk
  memoriesOk := { h.memoriesOk with }
  countersOk := { h.countersOk with
    inputLe := nofun, dinLe := nofun, ipLe := fun _ => Nat.zero_le _, pixLe := nofun }
  commandOk := h.commandOk.of_running (by rw [hp]; nofun) nofun rfl rfl
  frameOk := h.frameOk.of_fits (by rw [hp]; rfl) rfl (fun _ => by rw [hp]; rfl) rfl

/-- An operation writes inside the frame, which stays valid to its end. -/
theorem inv_operation {s t : State} (h : Inv s) (hp : s.phase = .interpret) (ht : OperationRun s t) : Inv t := by
  have hcap := h.fbSize_le (by rw [hp]; nofun)
  have hfbWf := ht.fbWf h.memoriesOk.fbWf
  have hfbIn := ht.fbIn _ hcap h.memoriesOk.fbIn
  have hip := ht.ipLe
  have hmeaning (hpol : s.cfg.op80Policy = .stop) : t.freeFrame = none :=
    (ht.meaning hpol).trans (h.frameOk.meaning hpol)
  rw [ht.frame]
  exact
    { cfgOk := h.cfgOk
      memoriesOk := { h.memoriesOk with fbWf := hfbWf, fbIn := hfbIn }
      countersOk := { h.countersOk with ipLe := fun _ => hip }
      commandOk := { h.commandOk with }
      frameOk := frameOk_of_full (congrArg Phase.beforeRef hp) (h.frameOk.full (by rw [hp]; rfl)) hmeaning }

theorem inv_endInterpret {s : State} (h : Inv s) (hp : s.phase = .interpret) : Inv (endInterpret s) where
  cfgOk := h.cfgOk
  memoriesOk := { h.memoriesOk with }
  countersOk := { h.countersOk with
    inputLe := nofun, dinLe := nofun, ipLe := nofun, pixLe := fun _ => Nat.zero_le _ }
  commandOk := h.commandOk.of_running (by rw [hp]; nofun) nofun rfl rfl
  frameOk := h.frameOk.of_fits (by rw [hp]; rfl) rfl nofun rfl

/-! ### CONVERT and COMPLETE -/

theorem inv_pixel {s t : State} (h : Inv s) (hin : s.pix < s.npix) {r g b a : Byte}
    (he : writePixel r g b a s = .next t) : Inv t := by
  obtain ⟨hexists, rfl⟩ := writePixel_next.mp he
  exact
    { cfgOk := h.cfgOk
      memoriesOk := { h.memoriesOk with
        memWf := Memory.wf_writeList h.memoriesOk.memWf _ _
        memIn := Memory.below_writeList h.memoriesOk.memIn _ hexists }
      countersOk := { h.countersOk with pixLe := fun _ => hin }
      commandOk := { h.commandOk with }
      frameOk := { h.frameOk with } }

theorem inv_endConvert {s : State} (h : Inv s) (hp : s.phase = .convert) : Inv (endConvert s) where
  cfgOk := h.cfgOk
  memoriesOk := { h.memoriesOk with }
  countersOk := { h.countersOk with inputLe := nofun, dinLe := nofun, ipLe := nofun, pixLe := nofun }
  commandOk := h.commandOk.of_running (by rw [hp]; nofun) nofun rfl rfl
  frameOk := h.frameOk.of_fits (by rw [hp]; rfl) rfl nofun rfl

/-- COMPLETE makes the command's frame the previous one (44_command.md R148). -/
theorem inv_complete {s : State} (h : Inv s) (hp : s.phase = .complete) : Inv (complete s) where
  cfgOk := h.cfgOk
  memoriesOk := { h.memoriesOk with oldMemWf := rfl, oldMemIn := rfl }
  countersOk := { h.countersOk with inputLe := nofun, dinLe := nofun, ipLe := nofun, pixLe := nofun }
  commandOk := ⟨iff_of_false nofun fun hrun => hrun rfl, fun hrun => absurd rfl hrun⟩
  frameOk :=
    { prevFits := fun _ _ => h.frameOk.fits (by rw [hp]; rfl), fits := nofun, full := nofun
      meaning := h.frameOk.meaning }

/-! ### Every stage -/

theorem engineStep_keeps_inv {s t : State} (h : Inv s) (he : engineStep s = .next t) : Inv t := by
  cases hp : s.phase with
  | idle => rw [engineStep_idle hp] at he; cases he; exact h
  | refSelect => rw [engineStep_refSelect hp] at he; cases he; exact inv_refSelect h hp
  | dupTest => rw [engineStep_dupTest hp] at he; cases he; exact inv_dupTest h hp
  | lzss =>
    rcases engineStep_lzss_next hp he with ⟨_, rfl⟩ | ⟨hin, hneed, hdescr⟩ | ⟨hin, _, htoken⟩
    · exact inv_endLzss h hp
    · exact inv_descr h hin hneed hdescr
    · exact inv_token h hp hin htoken
  | lengthCheck => rw [engineStep_lengthCheck hp] at he; cases he; exact inv_lengthCheck h hp
  | frame =>
    rw [engineStep_frame hp] at he
    split at he
    · exact inv_rawFrame h hp he
    · exact inv_deltaInit h hp he
  | interpretInit => rw [engineStep_interpretInit hp] at he; cases he; exact inv_beginInterpret h hp
  | interpret =>
    rcases engineStep_interpret_next hp he with rfl | ⟨_, _, hop⟩
    · exact inv_endInterpret h hp
    · exact inv_operation h hp hop
  | convert =>
    rcases engineStep_convert_next hp he with ⟨_, rfl⟩ | ⟨hin, r, g, b, a, hpix⟩
    · exact inv_endConvert h hp
    · exact inv_pixel h hin hpix
  | complete => rw [engineStep_complete hp] at he; cases he; exact inv_complete h hp

end Sys2Proof.Machine
end

section
/-! SUPPORT. The host and the platform keep the invariant: register accesses, commands, the host's own memory accesses, and reset
(20_memory.md R56, R57, 44_command.md R141..R150, 70_reset_and_hazards.md R180). -/

namespace Sys2Proof.Machine

/-! ### What the invariant does not speak of -/

/-- Only the host's side of the block, its result registers and flags have changed; BUSY stands, and PREV_VALID at most fell. -/
structure PortOnly (s t : State) : Prop where
  busy : t.status.busy = s.status.busy
  prev : t.prevValid = true → s.prevValid = true
  rest : t = { s with
    irqEn := t.irqEn, status := t.status, width := t.width, height := t.height, srcAddr := t.srcAddr
    storageSize := t.storageSize, originalSize := t.originalSize, chunkType := t.chunkType, dstAddr := t.dstAddr
    lzOutCount := t.lzOutCount, dsLenReg := t.dsLenReg, stopPos := t.stopPos, stopTag := t.stopTag
    opsDone := t.opsDone, prevValid := t.prevValid, agenda := t.agenda, rdata := t.rdata, mdata := t.mdata
    freeCount := t.freeCount }

theorem PortOnly.inv {s t : State} (hpo : PortOnly s t) (h : Inv s) : Inv t := by
  obtain ⟨hbusy, hprev, hrest⟩ := hpo
  rw [hrest]
  exact
    { cfgOk := h.cfgOk
      memoriesOk := { h.memoriesOk with }
      countersOk := { h.countersOk with }
      commandOk := { h.commandOk with busyIff := hbusy ▸ h.commandOk.busyIff }
      frameOk := { h.frameOk with prevFits := fun hp hv => h.frameOk.prevFits hp (hprev hv) } }

theorem inv_with_agenda {s : State} (h : Inv s) (moves : List Turn) : Inv { s with agenda := moves } :=
  PortOnly.inv (s := s) ⟨rfl, id, rfl⟩ h

/-! ### Registers -/

theorem portOnly_readReg (offset : Nat) (s : State) : PortOnly s (readReg offset s) := by
  unfold readReg
  split <;> exact ⟨rfl, id, rfl⟩

theorem portOnly_storeReg (offset : Nat) (v : Word) (s : State) : PortOnly s (storeReg offset v s) := by
  unfold storeReg
  split <;> exact ⟨rfl, id, rfl⟩

/-! ### Commands -/

theorem CommandOk.idle_of_not_busy {s : State} (h : CommandOk s) (hbusy : s.status.busy = false) :
    s.phase = .idle := by
  by_contra hrun
  exact absurd (hbusy.symm.trans (h.busyIff.mpr hrun)) nofun

/-- An accepted START passed CHECK_RANGES with the values it latches, and finds the previous frame as it was (44_command.md
R141). -/
theorem inv_acceptStart {s : State} (h : Inv s) (hbusy : s.status.busy = false)
    (hcheck : (latch s).checkRanges = .none) : Inv (acceptStart (latch s)) where
  cfgOk := h.cfgOk
  memoriesOk := { h.memoriesOk with oldMemWf := h.memoriesOk.memWf, oldMemIn := h.memoriesOk.memIn }
  countersOk := { h.countersOk with inputLe := nofun, dinLe := nofun, ipLe := nofun, pixLe := nofun }
  commandOk := ⟨iff_of_true rfl nofun, fun _ => hcheck⟩
  frameOk :=
    { prevFits := fun _ => h.frameOk.prevFits (by rw [h.commandOk.idle_of_not_busy hbusy]; rfl)
      fits := nofun, full := nofun, meaning := h.frameOk.meaning }

theorem inv_issueStart {s t : State} (h : Inv s) (hbusy : s.status.busy = false) (he : issueStart s = .next t) :
    Inv t := by
  by_cases hcheck : (latch s).checkRanges = .none
  · simp only [issueStart, hcheck] at he
    split at he <;> cases he
    exact inv_acceptStart h hbusy hcheck
  · rw [issueStart_rejected rfl hcheck] at he
    cases he
    exact PortOnly.inv (s := s) ⟨rfl, id, rfl⟩ h

theorem inv_start {s t : State} (h : Inv s) {newSeq irqEn : Bool} (he : execStart newSeq irqEn s = .next t) :
    Inv t := by
  cases hbusy : s.status.busy with
  | true =>
    rw [execStart_of_busy hbusy] at he
    cases he
    exact PortOnly.inv (s := s) ⟨rfl, id, rfl⟩ h
  | false =>
    have hissue := (exec_start_idle hbusy newSeq irqEn).symm.trans he
    have hstored : PortOnly s { s with irqEn := irqEn, prevValid := s.prevValid && !newSeq } :=
      ⟨rfl, fun hv => (Bool.and_eq_true_iff.mp hv).1, rfl⟩
    exact inv_issueStart (hstored.inv h) hbusy hissue

theorem portOnly_newSeq {s t : State} {irqEn : Bool} (he : execNewSeq irqEn s = .next t) : PortOnly s t := by
  unfold execNewSeq at he
  split at he <;> cases he
  · exact ⟨rfl, id, rfl⟩
  · exact ⟨rfl, nofun, rfl⟩

theorem inv_writeCtrl {s t : State} (h : Inv s) {v : Word} (he : writeCtrl v s = .next t) : Inv t := by
  rw [writeCtrl_eq] at he
  split at he
  · exact inv_start h he
  · split at he
    · exact (portOnly_newSeq he).inv h
    · cases he
      exact PortOnly.inv (s := s) ⟨rfl, id, rfl⟩ h

theorem inv_writeReg {s t : State} (h : Inv s) {offset : Nat} {v : Word} (he : writeReg offset v s = .next t) :
    Inv t := by
  unfold writeReg at he
  split at he
  · exact inv_writeCtrl h he
  · split at he
    · cases he
      exact PortOnly.inv (s := s) ⟨rfl, id, rfl⟩ h
    · cases he
      exact (portOnly_storeReg offset v s).inv h

/-! ### The host's own memory accesses -/

theorem portOnly_readMem {s t : State} {a : Nat} (he : readMem a s = .next t) : PortOnly s t := by
  unfold readMem at he
  split at he <;> cases he <;> exact ⟨rfl, id, rfl⟩

theorem inv_writeMem {s t : State} (h : Inv s) {a : Nat} (ha : a < s.cfg.hostMemSize) {v : Byte}
    (he : writeMem a v s = .next t) : Inv t := by
  unfold writeMem at he
  split at he <;> cases he
  exact
    { cfgOk := h.cfgOk
      memoriesOk := { h.memoriesOk with
        memWf := Memory.wf_write h.memoriesOk.memWf _ _, memIn := Memory.below_write h.memoriesOk.memIn ha _ }
      countersOk := { h.countersOk with }
      commandOk := { h.commandOk with }
      frameOk := { h.frameOk with } }

/-- An access that goes through is at an address of host memory (20_memory.md R50, log 21). -/
theorem hostHas_of_memError {s t : State} {a : Nat} {r : Result} (h : (s.memError a).getD r = .next t) :
    a < s.cfg.hostMemSize := by
  by_contra hout
  rw [memError_of_ge (Nat.not_lt.mp hout)] at h
  cases h

theorem hostStep_keeps_inv {s t : State} (h : Inv s) {access : HostAccess} (he : hostStep access s = .next t) :
    Inv t := by
  cases access with
  | regRead width offset =>
    obtain ⟨_, hread⟩ := getD_accessError_next he
    cases hread
    exact (portOnly_readReg offset s).inv h
  | regWrite width offset v => exact inv_writeReg h (getD_accessError_next he).2
  | memRead a => exact (portOnly_readMem (getD_memError_next he)).inv h
  | memWrite a v => exact inv_writeMem h (hostHas_of_memError he) (getD_memError_next he)

/-! ### Reset -/

/-- The state after reset has no stream, no frame and no command (10_state.md R41). -/
theorem inv_resetWith {cfg : Config} {mem : Memory} (hcfg : cfg.ok = true) (hwf : mem.wf = true)
    (hin : mem.below cfg.hostMemSize = true) : Inv (State.resetWith cfg mem) where
  cfgOk := hcfg
  memoriesOk := ⟨hwf, hin, rfl, rfl, rfl, rfl, rfl, rfl⟩
  countersOk :=
    { fbitLe := Nat.le_refl 8, dsFits := fun _ _ => Nat.zero_le _, dsLe := Nat.le_refl 0
      inputLe := nofun, dinLe := nofun, ipLe := nofun, pixLe := nofun }
  commandOk := ⟨iff_of_false nofun fun hrun => hrun rfl, fun hrun => absurd rfl hrun⟩
  frameOk := { prevFits := nofun, fits := nofun, full := nofun, meaning := fun _ => rfl }

/-- The ranges of a command that passed CHECK_RANGES are in host memory (60_exceptions.md R164). -/
theorem inCommandRange_lt {s : State} (hranges : s.checkRanges = .none) {a : Nat}
    (ha : s.inCommandRange a = true) : a < s.cfg.hostMemSize := by
  obtain ⟨hsrc, hdst, _, _⟩ := checkRanges_none.mp hranges
  simp only [State.inCommandRange, State.inPayload, State.inRgba, Bool.or_eq_true, Bool.and_eq_true,
    decide_eq_true_eq] at ha
  omega

/-- The bytes that a reset in the middle of a command leaves stand in the command's ranges (70_reset_and_hazards.md R184). -/
theorem mixMemory_ok {s : State} (hranges : s.checkRanges = .none) (hwf : s.mem.wf = true)
    (hin : s.mem.below s.cfg.hostMemSize = true) (new : Memory) :
    (mixMemory s new).wf = true ∧ (mixMemory s new).below s.cfg.hostMemSize = true := by
  unfold mixMemory
  refine List.foldlRecOn (motive := fun m => Memory.wf m = true ∧ Memory.below m s.cfg.hostMemSize = true) _ _
    ⟨hwf, hin⟩ fun m hm c _ => ?_
  split
  · rename_i hc
    exact ⟨Memory.wf_write hm.1 _ _, Memory.below_write hm.2 (inCommandRange_lt hranges hc) _⟩
  · exact hm

theorem resetStep_keeps_inv {s t : State} (h : Inv s) (he : resetStep s = .next t) : Inv t := by
  unfold resetStep at he
  split at he <;> cases he
  · rename_i hbusy
    obtain ⟨hwf, hin⟩ := mixMemory_ok (h.commandOk.rangesOk (h.commandOk.busyIff.mp hbusy)) h.memoriesOk.memWf
      h.memoriesOk.memIn (finishCommand s).mem
    exact PortOnly.inv (s := State.resetWith s.cfg _) ⟨rfl, id, rfl⟩ (inv_resetWith h.cfgOk hwf hin)
  · exact PortOnly.inv (s := State.resetWith s.cfg _) ⟨rfl, id, rfl⟩
      (inv_resetWith h.cfgOk h.memoriesOk.memWf h.memoriesOk.memIn)

/-! ### Every move -/

/-- Settles O53: the move is the engine's, the host's or the platform's, and taking it off the agenda is nothing to the
invariant. -/
theorem stepKeepsInv : Obligations.StepKeepsInv := by
  unfold Obligations.StepKeepsInv
  intro s t h he
  match hmove : s.agenda with
  | [] => exact engineStep_keeps_inv h (step_of_agenda_nil hmove ▸ he)
  | .engine :: moves => exact engineStep_keeps_inv (inv_with_agenda h moves) (step_of_engine hmove ▸ he)
  | .host access :: moves => exact hostStep_keeps_inv (inv_with_agenda h moves) (step_of_host hmove ▸ he)
  | .reset :: moves => exact resetStep_keeps_inv (inv_with_agenda h moves) (step_of_reset hmove ▸ he)

end Sys2Proof.Machine
end

section
/-! SUPPORT. A running command ends (70_reset_and_hazards.md R197): the engine never stops in a state of the invariant, and each
of its steps takes the command nearer to its end. -/

namespace Sys2Proof.Machine

/-! ### The engine never stops -/

theorem writeOp_goes_on (d c len : Nat) (vs : List Byte) (s : State) : ∃ t, writeOp d c len vs s = .next t := by
  unfold writeOp
  split <;> exact ⟨_, rfl⟩

theorem engineStep_goes_on {s : State} (h : Inv s) : ∃ t, engineStep s = .next t := by
  cases hp : s.phase with
  | idle => exact ⟨_, engineStep_idle hp⟩
  | refSelect => exact ⟨_, engineStep_refSelect hp⟩
  | dupTest => exact ⟨_, engineStep_dupTest hp⟩
  | lzss =>
    obtain ⟨hsrc, _⟩ := checkRanges_none.mp (h.commandOk.rangesOk (by rw [hp]; nofun))
    rcases engineStep_lzss hp with ⟨_, he⟩ | ⟨hin, hneed, he⟩ | ⟨_, _, _, f, rest, _, he⟩ |
      ⟨_, _, _, _, c, rest, _, he⟩ | ⟨_, _, _, _, b, rest, _, he⟩ | ⟨_, _, _, _, b0, b1, rest, _, he⟩
    case inr.inl =>
      have hpos : s.payloadPos < s.lStorage.toNat := payloadPos_lt hin hneed
      exact ⟨_, he.trans (execDescr_next.mpr ⟨by omega, rfl⟩)⟩
    all_goals exact ⟨_, he⟩
  | lengthCheck => exact ⟨_, engineStep_lengthCheck hp⟩
  | frame =>
    rw [engineStep_frame hp]
    split <;> exact ⟨_, rfl⟩
  | interpretInit => exact ⟨_, engineStep_interpretInit hp⟩
  | interpret =>
    rcases engineStep_interpret hp with ⟨_, he⟩ | ⟨_, hop⟩
    · exact ⟨_, he⟩
    · rcases hop with ⟨tail, _, he⟩ | ⟨d, n, data, _, _, he⟩ | ⟨tail, _, he⟩ | ⟨p0, p1, d, n, _, he⟩ |
        ⟨tail, _, he⟩ | ⟨tag, tail, _, _, he⟩ <;> rw [he]
      · exact ⟨_, rfl⟩
      · exact writeOp_goes_on (scaled d) (scaled n) (9 + scaled n) data s
      · exact ⟨_, rfl⟩
      · exact writeOp_goes_on (scaled d) (scaled n) 11 _ s
      · unfold execOp80; split <;> exact ⟨_, rfl⟩
      · exact ⟨_, rfl⟩
  | convert =>
    obtain ⟨_, hdst, _⟩ := checkRanges_none.mp (h.commandOk.rangesOk (by rw [hp]; nofun))
    rcases engineStep_convert hp with ⟨_, he⟩ | ⟨hin, r, g, b, a, he⟩
    · exact ⟨_, he⟩
    · exact ⟨_, he.trans (writePixel_of_le (by omega))⟩
  | complete => exact ⟨_, engineStep_complete hp⟩

/-! ### The steps that are left -/

/-- A bound on the engine's steps to the end of the command: an input byte of the LZSS stage is descrambled, belongs to at most
one token and gives at most nine bytes of stream (41_lzss.md R105), and an operation takes at least one byte of the stream. -/
def State.stepsLeft (s : State) : Nat :=
  match s.phase with
  | .idle => 0
  | .refSelect => 11 * s.inputLen + s.npix + 9
  | .dupTest => 11 * s.inputLen + s.npix + 8
  | .lzss => 11 * (s.inputLen - s.p) - s.din.length + s.dsLen + s.npix + 7
  | .lengthCheck => s.dsLen + s.npix + 6
  | .frame => s.dsLen + s.npix + 5
  | .interpretInit => s.dsLen + s.npix + 4
  | .interpret => (if s.cause = .none then s.dsLen - s.ip else 0) + s.npix + 3
  | .convert => s.npix - s.pix + 2
  | .complete => 1

theorem stepsLeft_lzss {s : State} (hp : s.phase = .lzss) :
    s.stepsLeft = 11 * (s.inputLen - s.p) - s.din.length + s.dsLen + s.npix + 7 := by
  simp only [State.stepsLeft, hp]

theorem stepsLeft_interpret {s : State} (hp : s.phase = .interpret) :
    s.stepsLeft = (if s.cause = .none then s.dsLen - s.ip else 0) + s.npix + 3 := by
  simp only [State.stepsLeft, hp]

theorem stepsLeft_convert {s : State} (hp : s.phase = .convert) : s.stepsLeft = s.npix - s.pix + 2 := by
  simp only [State.stepsLeft, hp]

theorem stepsLeft_le_commandBound (s : State) : s.stepsLeft ≤ s.commandBound := by
  unfold State.stepsLeft State.commandBound
  split
  case h_8 => split <;> omega
  all_goals omega

theorem stepsLeft_refSelect_lt {s : State} (hp : s.phase = .refSelect) :
    (refSelect s).stepsLeft < s.stepsLeft := by
  have hnow : s.stepsLeft = 11 * s.inputLen + s.npix + 9 := by simp only [State.stepsLeft, hp]
  have hnext : (refSelect s).stepsLeft = 11 * s.inputLen + s.npix + 8 := by unfold refSelect; split <;> rfl
  omega

theorem stepsLeft_dupTest_lt {s : State} (hp : s.phase = .dupTest) : (dupTest s).stepsLeft < s.stepsLeft := by
  have hnext : (dupTest s).stepsLeft ≤ 11 * s.inputLen + s.npix + 7 := by
    unfold dupTest
    split
    · show s.npix - 0 + 2 ≤ _; omega
    · exact Nat.le_of_eq (show 11 * (s.inputLen - 0) - 0 + 0 + s.npix + 7 = _ by omega)
  have hnow : s.stepsLeft = 11 * s.inputLen + s.npix + 8 := by simp only [State.stepsLeft, hp]
  omega

/-- A descrambled byte waits for its token. -/
theorem stepsLeft_descr_lt {s t : State} (hp : s.phase = .lzss) (hin : ¬ s.inputLen ≤ s.p)
    (hneed : s.din.length < s.tokenLength) {x : Byte} (he : execDescr x s = .next t) : t.stepsLeft < s.stepsLeft := by
  obtain ⟨_, ht⟩ := execDescr_next.mp he
  have hpt : t.phase = .lzss := by rw [ht]; exact hp
  have hfits := tokenLength_fits hin
  rw [stepsLeft_lzss hpt, stepsLeft_lzss hp, ht]
  show 11 * (s.inputLen - s.p) - (s.din ++ [_]).length + s.dsLen + s.npix + 7 < _
  rw [List.length_append, List.length_singleton]
  omega

/-- What a token takes from the input is more than what it adds to the stream. -/
theorem stepsLeft_token_lt {s t : State} (hp : s.phase = .lzss) (hin : ¬ s.inputLen ≤ s.p)
    (hwait : s.din.length ≤ s.tokenLength) (ht : TokenRun s.tokenLength s t) : t.stepsLeft < s.stepsLeft := by
  obtain ⟨n, hn, _, hds⟩ := ht.emits
  have hfits := tokenLength_fits hin
  have hpos := tokenLength_pos s
  have hpt : t.phase = .lzss := by rw [ht.frame]; exact hp
  have hnext : t.stepsLeft =
      11 * (s.inputLen - (s.p + s.tokenLength)) - (s.din.drop s.tokenLength).length + t.ds.length + s.npix + 7 := by
    rw [stepsLeft_lzss hpt, ht.frame]; rfl
  rw [hnext, stepsLeft_lzss hp, List.length_drop]
  unfold State.dsLen
  omega

/-- An operation moves IP on, or it is the last one. -/
theorem stepsLeft_operation_lt {s t : State} (hp : s.phase = .interpret) (hip : s.ip < s.dsLen)
    (hcause : s.cause = .none) (ht : OperationRun s t) : t.stepsLeft < s.stepsLeft := by
  have hpt : t.phase = .interpret := by rw [ht.frame]; exact hp
  have hnext : t.stepsLeft = (if t.cause = .none then s.dsLen - t.ip else 0) + s.npix + 3 := by
    rw [stepsLeft_interpret hpt, ht.frame]; rfl
  rw [hnext, stepsLeft_interpret hp, if_pos hcause]
  split
  · rename_i hgo
    have := ht.goesOn hgo
    omega
  · omega

theorem engineStep_stepsLeft {s t : State} (h : Inv s) (hrun : s.phase ≠ .idle) (he : engineStep s = .next t) :
    t.stepsLeft < s.stepsLeft := by
  cases hp : s.phase with
  | idle => exact absurd hp hrun
  | refSelect => rw [engineStep_refSelect hp] at he; cases he; exact stepsLeft_refSelect_lt hp
  | dupTest => rw [engineStep_dupTest hp] at he; cases he; exact stepsLeft_dupTest_lt hp
  | lzss =>
    rcases engineStep_lzss_next hp he with ⟨_, rfl⟩ | ⟨hin, hneed, hdescr⟩ | ⟨hin, _, htoken⟩
    · rw [stepsLeft_lzss hp]
      show s.dsLen + s.npix + 6 < _
      omega
    · exact stepsLeft_descr_lt hp hin hneed hdescr
    · exact stepsLeft_token_lt hp hin (h.countersOk.dinLe hp) htoken
  | lengthCheck =>
    rw [engineStep_lengthCheck hp] at he; cases he
    simp only [State.stepsLeft, hp]
    exact Nat.lt_succ_self _
  | frame =>
    rw [engineStep_frame hp] at he
    split at he <;> cases he <;> simp only [State.stepsLeft, hp]
    · show s.npix - 0 + 2 < _; omega
    · exact Nat.lt_succ_self _
  | interpretInit =>
    rw [engineStep_interpretInit hp] at he; cases he
    simp only [State.stepsLeft, hp]
    exact Nat.lt_succ_self _
  | interpret =>
    rcases engineStep_interpret_next hp he with rfl | ⟨hip, hcause, hop⟩
    · rw [stepsLeft_interpret hp]
      show s.npix - 0 + 2 < _
      omega
    · exact stepsLeft_operation_lt hp hip hcause hop
  | convert =>
    rcases engineStep_convert_next hp he with ⟨_, rfl⟩ | ⟨hin, r, g, b, a, hpix⟩
    · rw [stepsLeft_convert hp]
      show 1 < _
      omega
    · obtain ⟨_, ht⟩ := writePixel_next.mp hpix
      have hpt : t.phase = .convert := by rw [ht]; exact hp
      rw [stepsLeft_convert hpt, stepsLeft_convert hp, ht]
      show s.npix - (s.pix + 1) + 2 < _
      omega
  | complete =>
    rw [engineStep_complete hp] at he; cases he
    simp only [State.stepsLeft, hp]
    exact Nat.one_pos

/-! ### The run to the end -/

theorem stepsLeft_pos {s : State} (hrun : s.phase ≠ .idle) : 0 < s.stepsLeft := by
  unfold State.stepsLeft
  split
  case h_1 hp => exact absurd hp hrun
  all_goals omega

theorem run_ends {k : Nat} {s : State} (h : Inv s) (hagenda : s.agenda = []) (hk : s.stepsLeft ≤ k) :
    ∃ t, Host.Core.run Sys2Proof.core k s = .next t ∧ t.phase = .idle := by
  induction k generalizing s with
  | zero =>
    refine ⟨s, rfl, ?_⟩
    by_contra hrun
    have := stepsLeft_pos hrun
    omega
  | succ k ih =>
    by_cases hp : s.phase = .idle
    · exact ⟨s, run_idle hagenda hp _, hp⟩
    · obtain ⟨u, he⟩ := engineStep_goes_on h
      have hless := engineStep_stepsLeft h hp he
      rw [run_engine hagenda, he]
      exact ih (engineStep_keeps_inv h he) ((engineStep_agenda he).trans hagenda) (by omega)

/-- The engine alone ends a command within its bound (70_reset_and_hazards.md R197). -/
theorem run_commandBound_ends {s : State} (h : Inv s) (hagenda : s.agenda = []) :
    ∃ t, Host.Core.run Sys2Proof.core s.commandBound s = .next t ∧ t.phase = .idle :=
  run_ends h hagenda (stepsLeft_le_commandBound s)

end Sys2Proof.Machine
end

section
/-! SUPPORT. The engine does not look at the host's side of the block (10_state.md R34, 44_command.md R151), so a command ends the
same whatever moves are still to come; and what a host read of a byte answers (20_memory.md R62). -/

namespace Sys2Proof.Machine

/-! ### The host's side -/

/-- The registers that only the host writes, its coming moves, and what it has read: the engine neither reads nor writes them. -/
structure HostSide where
  irqEn        : Bool
  width        : Half
  height       : Half
  srcAddr      : Word
  storageSize  : Word
  originalSize : Word
  chunkType    : Byte
  dstAddr      : Word
  agenda       : List Turn
  rdata        : Word
  mdata        : Byte

def State.hostSide (s : State) : HostSide where
  irqEn        := s.irqEn
  width        := s.width
  height       := s.height
  srcAddr      := s.srcAddr
  storageSize  := s.storageSize
  originalSize := s.originalSize
  chunkType    := s.chunkType
  dstAddr      := s.dstAddr
  agenda       := s.agenda
  rdata        := s.rdata
  mdata        := s.mdata

/-- The state with another host's side. -/
def State.withHostSide (z : HostSide) (s : State) : State :=
  { s with
    irqEn := z.irqEn, width := z.width, height := z.height, srcAddr := z.srcAddr, storageSize := z.storageSize
    originalSize := z.originalSize, chunkType := z.chunkType, dstAddr := z.dstAddr, agenda := z.agenda
    rdata := z.rdata, mdata := z.mdata }

@[simp] theorem withHostSide_phase (z : HostSide) (s : State) : (s.withHostSide z).phase = s.phase := rfl

theorem copyRun_withHostSide (n : Nat) (z : HostSide) (s : State) :
    copyRun n (s.withHostSide z) = (copyRun n s).withHostSide z := by
  induction n generalizing s with
  | zero => rfl
  | succ n ih => exact ih (copyOne s)

theorem fbWriteList_withHostSide (a : Nat) (vs : List Byte) (z : HostSide) (s : State) :
    fbWriteList a vs (s.withHostSide z) = (fbWriteList a vs s).withHostSide z := by
  induction vs generalizing a s with
  | nil => rfl
  | cons v vs ih =>
    have hwrite : fbWrite a v (s.withHostSide z) = (fbWrite a v s).withHostSide z := by
      unfold fbWrite
      rw [apply_ite (State.withHostSide z)]
      rfl
    rw [fbWriteList, fbWriteList, hwrite]
    exact ih (a + 1) (fbWrite a v s)

theorem writeOp_withHostSide {d c len : Nat} {vs : List Byte} {s t : State} (h : writeOp d c len vs s = .next t)
    (z : HostSide) : writeOp d c len vs (s.withHostSide z) = .next (t.withHostSide z) := by
  unfold writeOp at h
  split at h <;> rename_i hout <;> cases h
  · exact if_pos hout
  · exact (if_neg hout).trans
      (congrArg (fun u => Host.Outcome.next (finishOp len u)) (fbWriteList_withHostSide d vs z s))

/-- A row that the engine runs does the same whatever the host's side. -/
theorem exec_withHostSide {i : Instr} {p : Phase} {s t : State} (hi : stageOf (sourceOf i) = some p)
    (h : exec i s = .next t) (z : HostSide) : exec i (s.withHostSide z) = .next (t.withHostSide z) := by
  cases i with
  | descr x =>
    obtain ⟨hle, rfl⟩ := execDescr_next.mp h
    exact execDescr_next.mpr ⟨hle, rfl⟩
  | lzRef off lenCode =>
    cases h
    exact congrArg (fun u => Host.Outcome.next (nextToken u))
      (copyRun_withHostSide (refLen lenCode) z { consume 2 s with r := off })
  | copy form =>
    cases form with
    | full d n data => exact writeOp_withHostSide h z
    | truncated tail => cases h; rfl
  | fill form =>
    cases form with
    | full p0 p1 d n => exact writeOp_withHostSide h z
    | truncated tail => cases h; rfl
  | op80 =>
    rcases execOp80_next h with ⟨hpol, rfl⟩ | ⟨hpol, rfl⟩
    · exact execOp80_of_stop (s := s.withHostSide z) hpol
    · exact execOp80_of_refuse (s := s.withHostSide z) hpol
  | cvtKey | cvtPix | cvtPad =>
    obtain ⟨hle, rfl⟩ := writePixel_next.mp h
    exact writePixel_next.mpr ⟨hle, rfl⟩
  | lzFlags | lzLit | lzRefPartial | unknown | rawFrame | deltaInit => cases h; rfl
  | start | newSeq | clearStatus => cases hi

theorem fetch_withHostSide (z : HostSide) (s : State) : fetch (s.withHostSide z) = fetch s := rfl

theorem nextStage_withHostSide (z : HostSide) (s : State) :
    nextStage (s.withHostSide z) = (nextStage s).withHostSide z := by
  cases hp : s.phase <;> simp only [nextStage, withHostSide_phase, hp]
  case refSelect => unfold refSelect; rw [apply_ite (State.withHostSide z)]; rfl
  case dupTest => unfold dupTest; rw [apply_ite (State.withHostSide z)]; rfl
  all_goals rfl

/-- The engine's step is the same whatever the host's side. -/
theorem engineStep_withHostSide {s t : State} (h : engineStep s = .next t) (z : HostSide) :
    engineStep (s.withHostSide z) = .next (t.withHostSide z) := by
  rcases engineStep_next h with ⟨hf, rfl⟩ | ⟨source, bytes, i, rest, hf, hd, hi, hexec⟩
  · rw [engineStep, fetch_withHostSide, hf]
    exact congrArg Host.Outcome.next (nextStage_withHostSide z s)
  · rw [engineStep_of_fetch ((fetch_withHostSide z s).trans hf) hd]
    exact exec_withHostSide hi hexec z

/-- The engine's own run to the end of the command is the machine's with no other moves to come (log 10). -/
theorem engineRun_withHostSide {k : Nat} {s t : State} (hagenda : s.agenda = [])
    (hrun : Host.Core.run Sys2Proof.core k s = .next t) (z : HostSide) :
    engineRun k (s.withHostSide z) = t.withHostSide z := by
  induction k generalizing s with
  | zero => cases hrun; rfl
  | succ k ih =>
    rw [engineRun]
    by_cases hp : s.phase = .idle
    · rw [run_idle hagenda hp] at hrun
      cases hrun
      exact if_pos hp
    · rw [if_neg (show ¬ (s.withHostSide z).phase = .idle from hp)]
      rw [run_engine hagenda] at hrun
      cases he : engineStep s with
      | next u =>
        rw [he] at hrun
        rw [engineStep_withHostSide he z]
        exact ih ((engineStep_agenda he).trans hagenda) hrun
      | fault f => rw [he] at hrun; cases hrun
      | refused r => rw [he] at hrun; cases hrun

/-- Where the new bytes of 20_memory.md R62 come from: the command's end, whatever moves are still to come. -/
theorem finishCommand_mem_of_run {s t : State} (moves : List Turn)
    (hrun : Host.Core.run Sys2Proof.core s.commandBound { s with agenda := [] } = .next t) :
    (finishCommand { s with agenda := moves }).mem = t.mem := by
  have hend : finishCommand { s with agenda := moves } = t.withHostSide { s.hostSide with agenda := moves } :=
    engineRun_withHostSide (s := { s with agenda := [] }) rfl hrun { s.hostSide with agenda := moves }
  rw [hend]; rfl

/-! ### A host read of a byte -/

theorem readMem_of_defined {s : State} {a : Nat} (h : s.status.busy = false ∨ s.inCommandRange a = false) :
    readMem a s = .next { s with mdata := s.mem.read a } := by
  have hout : ¬ (s.status.busy && s.inCommandRange a) = true := by rcases h with h | h <;> simp [h]
  exact if_neg hout

theorem readMem_of_running {s : State} {a : Nat} (hbusy : s.status.busy = true)
    (hrange : s.inCommandRange a = true) :
    readMem a s =
      .next { s with
        mdata := chooseByte (Config.busyReadIsNew s.freeCount) s.oldMem (finishCommand s).mem a
        freeCount := s.freeCount + 1 } :=
  if_pos (by rw [hbusy, hrange]; rfl)

theorem chooseByte_cases (isNew : Bool) (old new : Memory) (a : Nat) :
    chooseByte isNew old new a = old.read a ∨ chooseByte isNew old new a = new.read a := by
  cases isNew
  · exact .inl rfl
  · exact .inr rfl

/-- Settles O47: what stops the access is looked at first; in the ranges of a running command the engine's run, which ends, gives
the new byte. -/
theorem hostMemoryReads : Obligations.HostMemoryReads := by
  unfold Obligations.HostMemoryReads
  intro s a moves hmove h isRegister
  have hstep : step s = (State.memError { s with agenda := moves } a).getD (readMem a { s with agenda := moves }) :=
    step_of_host hmove
  refine ⟨fun hout => ?_, fun ha hreg => ?_, fun ha hreg hdefined => ?_, fun ha hreg hbusy hrange => ?_⟩
  · rw [hstep, memError_of_ge (s := { s with agenda := moves }) hout]; rfl
  · rw [hstep, memError_of_register (s := { s with agenda := moves }) ha (inRegisterBlock_iff.mpr hreg)]; rfl
  · rw [hstep, memError_none (s := { s with agenda := moves }) ha (mt inRegisterBlock_iff.mp hreg)]
    exact readMem_of_defined (s := { s with agenda := moves }) hdefined
  · obtain ⟨t, hrun, hidle⟩ := run_commandBound_ends (inv_with_agenda h []) rfl
    rw [hstep, memError_none (s := { s with agenda := moves }) ha (mt inRegisterBlock_iff.mp hreg)]
    refine ⟨t, _, hrun, hidle, readMem_of_running (s := { s with agenda := moves }) hbusy hrange, ?_, rfl⟩
    have hchoice := chooseByte_cases (Config.busyReadIsNew s.freeCount) s.oldMem
      (finishCommand { s with agenda := moves }).mem a
    rwa [← finishCommand_mem_of_run moves hrun]

end Sys2Proof.Machine
end

section
/-! SUPPORT. The encodings of 30_encoding.md both ways: what the decoder answers for the bytes of each row, and which bytes each
answer stands for. -/

namespace Sys2Proof

open Sys2Proof.Machine

/-! ### The decoder on the bytes of a row -/

theorem decodeCopy_of_short {tail : List Byte}
    (h : tail.length < 8 ∨ tail.length < 8 + scaled (le32At (tail.drop 4))) :
    decodeCopy tail = (.copy (.truncated tail), []) := by
  unfold decodeCopy
  by_cases hfields : tail.length < 8
  · exact if_pos hfields
  · rw [if_neg hfields]; exact if_pos (h.resolve_left hfields)

theorem decodeCopy_of_long {tail : List Byte} (h : 8 + scaled (le32At (tail.drop 4)) ≤ tail.length) :
    decodeCopy tail =
      (.copy (.full (le32At tail) (le32At (tail.drop 4)) ((tail.drop 8).take (scaled (le32At (tail.drop 4))))),
        (tail.drop 8).drop (scaled (le32At (tail.drop 4)))) := by
  unfold decodeCopy
  rw [if_neg (by omega)]
  exact if_neg (by omega)

theorem decodeFill_of_short {tail : List Byte} (h : tail.length < 10) :
    decodeFill tail = (.fill (.truncated tail), []) := if_pos h

theorem decodeFill_of_long {tail : List Byte} (h : 10 ≤ tail.length) :
    decodeFill tail =
      (.fill (.full (tail.getD 0 0) (tail.getD 1 0) (le32At (tail.drop 2)) (le32At (tail.drop 6))), tail.drop 10) :=
  if_neg (by omega)

theorem decodeCopy_full {n : Word} {data : List Byte} (h : data.length = scaled n) (d : Word) (rest : List Byte) :
    decodeCopy (leBytes d ++ leBytes n ++ data ++ rest) = (.copy (.full d n data), rest) := by
  have hd : le32At (leBytes d ++ leBytes n ++ data ++ rest) = d := le32_byteOf d
  have hn : le32At ((leBytes d ++ leBytes n ++ data ++ rest).drop 4) = n := le32_byteOf n
  have hdata : (leBytes d ++ leBytes n ++ data ++ rest).drop 8 = data ++ rest := rfl
  rw [decodeCopy_of_long (by rw [hn]; simp [h]; omega), hd, hn, hdata, List.take_left' h, List.drop_left' h]

theorem decodeFill_full (p0 p1 : Byte) (d n : Word) (rest : List Byte) :
    decodeFill (p0 :: p1 :: (leBytes d ++ leBytes n) ++ rest) = (.fill (.full p0 p1 d n), rest) := by
  have hd : le32At ((p0 :: p1 :: (leBytes d ++ leBytes n) ++ rest).drop 2) = d := le32_byteOf d
  have hn : le32At ((p0 :: p1 :: (leBytes d ++ leBytes n) ++ rest).drop 6) = n := le32_byteOf n
  rw [decodeFill_of_long (by simp; omega), hd, hn]
  rfl

theorem decodeDelta_copy (tail : List Byte) : decodeDelta 0x20 tail = decodeCopy tail := rfl

theorem decodeDelta_fill (tail : List Byte) : decodeDelta 0x40 tail = decodeFill tail := rfl

theorem decodeDelta_op80 (tail : List Byte) : decodeDelta 0x80 tail = (.op80, tail) := rfl

theorem unknownTag_iff {tag : Byte} : unknownTag tag = true ↔ tag ≠ 0x20 ∧ tag ≠ 0x40 ∧ tag ≠ 0x80 := by
  simp only [unknownTag, Bool.and_eq_true, bne_iff_ne, and_assoc]

theorem decodeDelta_unknown {tag : Byte} (h : unknownTag tag = true) (tail : List Byte) :
    decodeDelta tag tail = (.unknown tag, tail) := by
  obtain ⟨hcopy, hfill, hop80⟩ := unknownTag_iff.mp h
  rw [decodeDelta, if_neg hcopy, if_neg hfill, if_neg hop80]

theorem decode_pixel_append (raw : Half) (rest : List Byte) :
    decode .pixel (encodePixel raw ++ rest) = .ok (decodePixel raw, rest) := by
  show Except.ok (decodePixel (le16 (raw.extractLsb' 0 8) (raw.extractLsb' 8 8)), rest) = _
  rw [le16_encodePixel]

/-- An ordinary pixel is read by its fields (30_encoding.md R83). -/
theorem decodePixel_pixelOf {unused : BitVec 1} {red green blue : BitVec 5}
    (h : pixelOf unused red green blue ≠ keyPixel) :
    decodePixel (pixelOf unused red green blue) = .cvtPix unused red green blue := by
  rw [decodePixel, if_neg h, unusedField_pixelOf, redField_pixelOf, greenField_pixelOf, blueField_pixelOf]

theorem decode_ctrlWrite_append {v : Word} {i : Instr} (h : decodeCtrl v = .ok i) (rest : List Byte) :
    decode .ctrlWrite (leBytes v ++ rest) = .ok (i, rest) := by
  simp only [leBytes, List.cons_append, List.nil_append, decode, le32_byteOf, h]

theorem decode_statusWrite_append (v : Word) (rest : List Byte) :
    decode .statusWrite (leBytes v ++ rest) = .ok (decodeStatus v, rest) := by
  simp only [leBytes, List.cons_append, List.nil_append, decode, le32_byteOf]

theorem decodeCtrl_start (newSeq irqEn : Bool) :
    decodeCtrl (commandWord irqEn newSeq true) = .ok (.start newSeq irqEn) := by
  obtain ⟨h0, h1, h2⟩ := commandWord_bits irqEn newSeq true
  rw [decodeCtrl, if_pos h0, h1, h2]

theorem decodeCtrl_newSeq (irqEn : Bool) : decodeCtrl (commandWord irqEn true false) = .ok (.newSeq irqEn) := by
  obtain ⟨h0, h1, h2⟩ := commandWord_bits irqEn true false
  rw [decodeCtrl, if_neg (by rw [h0]; nofun), if_pos h1, h2]

theorem decodeStatus_commandWord (done ignored : Bool) :
    decodeStatus (commandWord ignored done false) = .clearStatus done ignored := by
  obtain ⟨_, h1, h2⟩ := commandWord_bits ignored done false
  rw [decodeStatus, h1, h2]

/-! ### Encoding, then decoding -/

/-- A delimited instruction is read from its own bytes, whatever follows them. -/
theorem decode_encode_append {i : Instr} (hwf : i.wf = true) (hend : i.delimited = true) (rest : List Byte) :
    decode (sourceOf i) (encode i ++ rest) = .ok (i, rest) := by
  cases i with
  | descr x => rfl
  | lzFlags f => rfl
  | lzLit c => rfl
  | lzRef off lenCode =>
    show Except.ok (Instr.lzRef (refOffset _ _) (refLenCode _), rest) = _
    rw [refOffset_encode, refLenCode_encode]
  | lzRefPartial b0 => cases hend
  | copy form =>
    cases form with
    | full d n data =>
      exact congrArg Except.ok (decodeCopy_full (of_decide_eq_true hwf) d rest)
    | truncated tail => cases hend
  | fill form =>
    cases form with
    | full p0 p1 d n => exact congrArg Except.ok (decodeFill_full p0 p1 d n rest)
    | truncated tail => cases hend
  | op80 => rfl
  | unknown tag => exact congrArg Except.ok (decodeDelta_unknown hwf rest)
  | rawFrame => rfl
  | deltaInit ty =>
    have hty : ty ≠ 0 := bne_iff_ne.mp hwf
    show Except.ok (if ty = 0 then Instr.rawFrame else .deltaInit ty, rest) = _
    rw [if_neg hty]
  | cvtKey => exact decode_pixel_append keyPixel rest
  | cvtPix unused red green blue =>
    exact (decode_pixel_append _ rest).trans (by rw [decodePixel_pixelOf (bne_iff_ne.mp hwf)])
  | cvtPad => cases hend
  | start newSeq irqEn => exact decode_ctrlWrite_append (decodeCtrl_start newSeq irqEn) rest
  | newSeq irqEn => exact decode_ctrlWrite_append (decodeCtrl_newSeq irqEn) rest
  | clearStatus done ignored =>
    exact (decode_statusWrite_append _ rest).trans (by rw [decodeStatus_commandWord])

/-- A cut-off form is read from its own bytes at the end of their stream. -/
theorem decode_encode_cut_off {i : Instr} (hwf : i.wf = true) (hcut : i.delimited = false) :
    decode (sourceOf i) (encode i) = .ok (i, []) := by
  cases i with
  | lzRefPartial b0 => rfl
  | copy form =>
    cases form with
    | full d n data => cases hcut
    | truncated tail =>
      have hshort : tail.length < 8 ∨ tail.length < 8 + scaled (le32At (tail.drop 4)) := by
        simpa [Instr.wf, CopyForm.wf] using hwf
      exact congrArg Except.ok (decodeCopy_of_short hshort)
  | fill form =>
    cases form with
    | full p0 p1 d n => cases hcut
    | truncated tail => exact congrArg Except.ok (decodeFill_of_short (of_decide_eq_true hwf))
  | cvtPad => rfl
  | _ => cases hcut

/-- Settles O1: a delimited row is read whatever follows it, so also at the end of its stream; the others end their stream. -/
theorem decodeEncodeAgree : Obligations.DecodeEncodeAgree := by
  unfold Obligations.DecodeEncodeAgree
  refine fun i hwf => ⟨?_, decode_encode_append hwf⟩
  cases hend : i.delimited with
  | true => simpa using decode_encode_append hwf hend []
  | false => exact decode_encode_cut_off hwf hend

/-! ### Decoding, then encoding -/

/-- The two halves of O2 that speak of the bytes: what is decoded is well-formed, and it is the bytes in front of the rest. -/
def DecodedFrom (bytes : List Byte) (d : Instr × List Byte) : Prop :=
  d.1.wf = true ∧ encode d.1 ++ d.2 = bytes

theorem decodeCopy_from (tail : List Byte) : DecodedFrom (0x20 :: tail) (decodeCopy tail) := by
  rcases decodeCopy_cases tail with ⟨hc, hshort⟩ | ⟨d, n, data, rest, hc, hlen, htail⟩ <;> rw [hc]
  · exact ⟨by simpa [Instr.wf, CopyForm.wf] using hshort, List.append_nil _⟩
  · exact ⟨decide_eq_true hlen, by rw [htail]; rfl⟩

theorem decodeFill_from (tail : List Byte) : DecodedFrom (0x40 :: tail) (decodeFill tail) := by
  rcases decodeFill_cases tail with ⟨hc, hshort⟩ | ⟨p0, p1, d, n, rest, hc, htail⟩ <;> rw [hc]
  · exact ⟨decide_eq_true hshort, List.append_nil _⟩
  · exact ⟨rfl, by rw [htail]; rfl⟩

theorem decodeDelta_from (tag : Byte) (tail : List Byte) : DecodedFrom (tag :: tail) (decodeDelta tag tail) := by
  rcases decodeDelta_cases tag tail with ⟨rfl, hd⟩ | ⟨rfl, hd⟩ | ⟨rfl, hd⟩ | ⟨hunknown, hd⟩ <;> rw [hd]
  · exact decodeCopy_from tail
  · exact decodeFill_from tail
  · exact ⟨rfl, rfl⟩
  · exact ⟨hunknown, rfl⟩

theorem decodePixel_wf (raw : Half) : (decodePixel raw).wf = true := by
  unfold decodePixel
  split
  · rfl
  · rename_i hkey
    show (pixelOf _ _ _ _ != keyPixel) = true
    rw [pixelOf_fields]
    exact bne_iff_ne.mpr hkey

theorem encode_decodePixel (raw : Half) : encode (decodePixel raw) = encodePixel raw := by
  unfold decodePixel
  split
  · rename_i hkey; rw [hkey]; rfl
  · exact congrArg encodePixel (pixelOf_fields raw)

theorem decodeCtrl_wf {v : Word} {i : Instr} (h : decodeCtrl v = .ok i) : i.wf = true := by
  unfold decodeCtrl at h
  split at h
  · cases h; rfl
  · split at h <;> cases h
    rfl

/-- The sources whose bytes all have a meaning: all but the register writes, whose reserved bits are ignored. -/
theorem decodedFrom_of_decode {source : Source} {bytes : List Byte} {d : Instr × List Byte}
    (hctrl : source ≠ .ctrlWrite) (hstatus : source ≠ .statusWrite) (h : decode source bytes = .ok d) :
    DecodedFrom bytes d := by
  match source, bytes with
  | .payload, x :: rest => cases h; exact ⟨rfl, rfl⟩
  | .flagByte, f :: rest => cases h; exact ⟨rfl, rfl⟩
  | .token true, c :: rest => cases h; exact ⟨rfl, rfl⟩
  | .token false, b0 :: b1 :: rest =>
    cases h
    exact ⟨rfl, congrArg (· ++ rest) (encodeRef_decode b0 b1)⟩
  | .token false, [b0] => cases h; exact ⟨rfl, rfl⟩
  | .delta, tag :: tail =>
    have hd : decodeDelta tag tail = d := Except.ok.inj h
    exact hd ▸ decodeDelta_from tag tail
  | .chunkType, ty :: rest =>
    cases h
    by_cases hty : ty = 0
    · subst hty; exact ⟨rfl, rfl⟩
    · rw [if_neg hty]; exact ⟨bne_iff_ne.mpr hty, rfl⟩
  | .pixel, b0 :: b1 :: rest =>
    cases h
    exact ⟨decodePixel_wf _, by rw [encode_decodePixel, encodePixel_le16]; rfl⟩
  | .pixel, [b] => cases h; exact ⟨rfl, rfl⟩
  | .pixel, [] => cases h; exact ⟨rfl, rfl⟩
  | .ctrlWrite, _ => exact absurd rfl hctrl
  | .statusWrite, _ => exact absurd rfl hstatus
  | .payload, [] | .flagByte, [] | .token true, [] | .token false, [] | .delta, [] | .chunkType, [] => cases h

theorem wf_of_decode_ctrlWrite {bytes : List Byte} {d : Instr × List Byte} (h : decode .ctrlWrite bytes = .ok d) :
    d.1.wf = true := by
  match bytes with
  | b0 :: b1 :: b2 :: b3 :: rest =>
    simp only [decode] at h
    cases hi : decodeCtrl (le32 b0 b1 b2 b3) with
    | ok i => rw [hi] at h; cases h; exact decodeCtrl_wf hi
    | error e => rw [hi] at h; cases h
  | [] | [_] | [_, _] | [_, _, _] => cases h

theorem wf_of_decode_statusWrite {bytes : List Byte} {d : Instr × List Byte} (h : decode .statusWrite bytes = .ok d) :
    d.1.wf = true := by
  match bytes with
  | b0 :: b1 :: b2 :: b3 :: rest => cases h; rfl
  | [] | [_] | [_, _] | [_, _, _] => cases h

theorem wf_of_decode {source : Source} {bytes : List Byte} {d : Instr × List Byte}
    (h : decode source bytes = .ok d) : d.1.wf = true := by
  by_cases hctrl : source = .ctrlWrite
  · subst hctrl; exact wf_of_decode_ctrlWrite h
  · by_cases hstatus : source = .statusWrite
    · subst hstatus; exact wf_of_decode_statusWrite h
    · exact (decodedFrom_of_decode hctrl hstatus h).1

/-- Settles O2: source by source; only a register write has bits that its instruction does not hold. -/
theorem decodedBytesReencode : Obligations.DecodedBytesReencode := by
  unfold Obligations.DecodedBytesReencode
  exact fun source bytes rest i h =>
    ⟨wf_of_decode h, sourceOf_of_decode h, fun hctrl hstatus => (decodedFrom_of_decode hctrl hstatus h).2⟩

/-! ### The operands of a frame-delta operation -/

/-- A field of the stream, by its place. -/
theorem le32At_drop (ds : List Byte) (k : Nat) :
    le32At (ds.drop k) = le32 (ds.getD k 0) (ds.getD (k + 1) 0) (ds.getD (k + 2) 0) (ds.getD (k + 3) 0) := by
  simp [le32At, List.getD_eq_getElem?_getD]

theorem getD_drop (ds : List Byte) (k j : Nat) : (ds.drop k).getD j 0 = ds.getD (k + j) 0 := by
  simp [List.getD_eq_getElem?_getD]

theorem getD_take {ds : List Byte} {n j : Nat} (h : j < n) : (ds.take n).getD j 0 = ds.getD j 0 := by
  simp [List.getD_eq_getElem?_getD, h]

theorem decode_delta_drop {ds : List Byte} {ip : Nat} (h : ip < ds.length) :
    decode .delta (ds.drop ip) = .ok (decodeDelta (ds.getD ip 0) (ds.drop (ip + 1))) := by
  rw [List.drop_eq_getElem_cons h, List.getD_eq_getElem ds 0 h]; rfl

/-- Settles O5: the tag picks the operation, and its fields stand at fixed places behind it. -/
theorem deltaOperationsAreRead : Obligations.DeltaOperationsAreRead := by
  unfold Obligations.DeltaOperationsAreRead
  intro ds ip hip b copyCount
  have hcopyD : le32At (ds.drop (ip + 1)) = le32 (b 1) (b 2) (b 3) (b 4) := le32At_drop ds (ip + 1)
  have hcopyN : le32At ((ds.drop (ip + 1)).drop 4) = le32 (b 5) (b 6) (b 7) (b 8) := by
    rw [List.drop_drop]; exact le32At_drop ds (ip + 5)
  have hfillD : le32At ((ds.drop (ip + 1)).drop 2) = le32 (b 3) (b 4) (b 5) (b 6) := by
    rw [List.drop_drop]; exact le32At_drop ds (ip + 3)
  have hfillN : le32At ((ds.drop (ip + 1)).drop 6) = le32 (b 7) (b 8) (b 9) (b 10) := by
    rw [List.drop_drop]; exact le32At_drop ds (ip + 7)
  have hlen : (ds.drop (ip + 1)).length = ds.length - (ip + 1) := List.length_drop
  have hcount : scaled (le32At ((ds.drop (ip + 1)).drop 4)) = copyCount := by rw [hcopyN]; rfl
  refine ⟨(decodeDelta (b 0) (ds.drop (ip + 1))).1, (decodeDelta (b 0) (ds.drop (ip + 1))).2, decode_delta_drop hip,
    fun htag hcut => ?_, fun htag hwhole => ?_, fun htag hcut => ?_, fun htag hwhole => ?_, fun htag => ?_,
    fun hcopy hfill hop80 => ?_⟩
  · rw [htag, decodeDelta_copy, decodeCopy_of_short (by rw [hcount]; omega)]
  · have hlong : 8 + scaled (le32At ((ds.drop (ip + 1)).drop 4)) ≤ (ds.drop (ip + 1)).length := by rw [hcount]; omega
    rw [htag, decodeDelta_copy, decodeCopy_of_long hlong, hcount, hcopyD, hcopyN]
    rw [List.drop_drop]
    refine ⟨_, rfl, ?_, fun j hj => ?_, List.drop_drop⟩
    · rw [List.length_take, List.length_drop]; omega
    · rw [getD_take hj, getD_drop]; exact congrArg (ds.getD · 0) (by omega)
  · rw [htag, decodeDelta_fill, decodeFill_of_short (by omega)]
  · rw [htag, decodeDelta_fill, decodeFill_of_long (by omega), hfillD, hfillN, List.drop_drop, getD_drop, getD_drop]
    exact ⟨rfl, rfl⟩
  · rw [htag, decodeDelta_op80]
  · rw [decodeDelta_unknown (unknownTag_iff.mpr ⟨hcopy, hfill, hop80⟩)]

/-! ### Register writes and the spec's own words -/

/-- Settles O3: the bits the decoder tests, as digits of the value written. -/
theorem registerWritesEncodeCommands : Obligations.RegisterWritesEncodeCommands := by
  unfold Obligations.RegisterWritesEncodeCommands
  intro v
  have h0 : v.getLsbD 0 = (v.toNat % 2 == 1) := by simpa using getLsbD_eq_div v 0
  have h1 : v.getLsbD 1 = (v.toNat / 2 % 2 == 1) := getLsbD_eq_div v 1
  have h2 : v.getLsbD 2 = (v.toNat / 4 % 2 == 1) := getLsbD_eq_div v 2
  constructor
  · rw [decode_ctrlWrite, decodeCtrl, h0, h1, h2]
    simp only [beq_iff_eq]
    split
    · rfl
    · split <;> rfl
  · have hd := decode_statusWrite_append v []
    rwa [List.append_nil, decodeStatus, h1, h2] at hd

/-- Settles O6: each word is closed, and the decoder computes its instruction. -/
theorem specWordsDecode : Obligations.SpecWordsDecode := by
  unfold Obligations.SpecWordsDecode
  and_intros
  all_goals decide

end Sys2Proof
end

section
/-! SUPPORT. The LZSS stage computes the token grammar (30_encoding.md R70..R73, 41_lzss.md R96..R104). A state of the stage is
read as the arguments of `expand`: the input bytes not yet consumed, the flag bits not yet used, and the output so far. Each
engine step keeps what `expand` makes of them. -/

namespace Sys2Proof.Machine

/-! ### The output so far -/

/-- The dictionary, W, PRODUCED, DS and DS_OVF are what an output `hist` (newest byte first) leaves in them (41_lzss.md R96,
R97). -/
structure OutputIs (hist : List Byte) (s : State) : Prop where
  dictWf   : s.dict.wf = true
  dictIs   : ∀ a, a < 4096 → s.dict.read a = dictAfter hist a
  cursor   : s.w.toNat = (0xFEE + hist.length) % 4096
  produced : s.produced = hist.length
  kept     : s.ds = s.kept hist.reverse
  overflow : s.status.dsOvf = true ↔ ∃ cap, s.cfg.dsCap = some cap ∧ cap < hist.length

theorem State.kept_of_unbounded {s : State} (hcap : s.cfg.dsCap = none) (out : List Byte) : s.kept out = out := by
  rw [State.kept, hcap]

theorem State.kept_of_bounded {s : State} {cap : Nat} (hcap : s.cfg.dsCap = some cap) (out : List Byte) :
    s.kept out = out.take cap := by
  rw [State.kept, hcap]

theorem State.kept_congr {s t : State} (hcfg : t.cfg = s.cfg) (out : List Byte) : t.kept out = s.kept out := by
  unfold State.kept
  rw [hcfg]

/-- DS has room exactly while the whole output is in it. -/
theorem OutputIs.dsRoom_iff {hist : List Byte} {s : State} (h : OutputIs hist s) :
    s.dsRoom = true ↔ ∀ cap, s.cfg.dsCap = some cap → hist.length < cap := by
  have hds := h.kept
  unfold State.dsRoom
  cases hcap : s.cfg.dsCap with
  | none => simp
  | some cap =>
    have hlen : s.ds.length = min cap hist.length := by
      rw [hds, State.kept_of_bounded hcap, List.length_take, List.length_reverse]
    simp only [Option.some.injEq, forall_eq', decide_eq_true_eq]
    omega

/-- `emit` is one more byte of output (41_lzss.md R97). -/
theorem outputIs_emit {hist : List Byte} {s : State} (h : OutputIs hist s) (c : Byte) :
    OutputIs (c :: hist) (emit c s) where
  dictWf := Memory.wf_write h.dictWf _ _
  dictIs a ha := by
    rw [emit_dict, Memory.read_write h.dictWf, h.cursor, dictAfter, h.dictIs a ha]
    simp only [eq_comm]
  cursor := by
    have := h.cursor
    rw [emit_w, BitVec.toNat_add, List.length_cons]
    show (s.w.toNat + 1) % 4096 = _
    omega
  produced := by rw [emit_produced, h.produced, List.length_cons]
  kept := by
    rw [emit_ds, h.kept, List.reverse_cons]
    cases hcap : s.cfg.dsCap with
    | none =>
      rw [if_pos (h.dsRoom_iff.mpr (by simp [hcap])), State.kept_of_unbounded hcap,
        State.kept_of_unbounded (s := emit c s) hcap]
    | some cap =>
      rw [State.kept_of_bounded hcap, State.kept_of_bounded (s := emit c s) hcap]
      by_cases hroom : hist.length < cap
      · rw [if_pos (h.dsRoom_iff.mpr (by simpa [hcap] using hroom)), List.take_of_length_le (by simp; omega),
          List.take_of_length_le (by simp; omega)]
      · rw [if_neg (mt h.dsRoom_iff.mp (by simpa [hcap] using hroom)), List.take_append_of_le_length (by simp; omega)]
  overflow := by
    rw [emit_status, emit_cfg, List.length_cons]
    by_cases hroom : s.dsRoom = true
    · have hfits := h.dsRoom_iff.mp hroom
      rw [if_pos hroom, h.overflow]
      exact exists_congr fun cap => and_congr_right fun hcap => by have := hfits cap hcap; omega
    · obtain ⟨cap, hcap, hfull⟩ : ∃ cap, s.cfg.dsCap = some cap ∧ ¬ hist.length < cap := by
        simpa using mt h.dsRoom_iff.mpr hroom
      rw [if_neg hroom]
      exact iff_of_true rfl ⟨cap, hcap, by omega⟩

/-- A back-reference copy is a run of the grammar (41_lzss.md R101). -/
theorem outputIs_copyRun {n : Nat} {hist : List Byte} {s : State} (h : OutputIs hist s) :
    OutputIs (expandRun n hist s.r.toNat) (copyRun n s) := by
  induction n generalizing hist s with
  | zero => exact h
  | succ n ih =>
    have hr : (copyOne s).r.toNat = (s.r.toNat + 1) % 4096 := copyRun_r 1 s
    have hone : OutputIs (dictAfter hist s.r.toNat :: hist) (copyOne s) := by
      rw [← h.dictIs _ s.r.isLt]
      exact { outputIs_emit h (s.dict.read s.r.toNat) with }
    rw [expandRun, ← hr]
    exact ih hone

/-! ### The input that is left -/

/-- The descrambled bytes of `count` input positions from `pos` on, of a payload at address `base` (40_descrambler.md R90). -/
def descrambled (m : Memory) (base pos count : Nat) : List Byte :=
  (List.range' pos count).map fun n => descramble (m.read (base + n)) n

theorem descrambled_succ (m : Memory) (base pos count : Nat) :
    descrambled m base pos (count + 1) =
      descramble (m.read (base + pos)) pos :: descrambled m base (pos + 1) count := rfl

theorem descrambled_length (m : Memory) (base pos count : Nat) : (descrambled m base pos count).length = count := by
  rw [descrambled, List.length_map, List.length_range']

/-- What is written back at an input position leaves the later ones alone. -/
theorem descrambled_write {pos done : Nat} (h : done < pos) (m : Memory) (base count : Nat) (y : Byte) :
    descrambled (m.write (base + done) y) base pos count = descrambled m base pos count := by
  refine List.map_congr_left fun n hn => ?_
  have hlo := (List.mem_range'_1.mp hn).1
  rw [Memory.read_write_other _ _ (by omega)]

theorem payload_eq_descrambled (s : State) : s.payload = descrambled s.mem s.lSrc.toNat 0 s.inputLen := by
  rw [State.payload, List.range_eq_range']; rfl

/-- The descrambled input bytes that no token has consumed yet: those that wait, and those still scrambled in host memory
(log 6). -/
def State.unread (s : State) : List Byte :=
  s.din ++ descrambled s.mem s.lSrc.toNat s.payloadPos (s.inputLen - s.payloadPos)

/-- The flag bits that no token has used yet (41_lzss.md R98). -/
def State.flagBits (s : State) : List Bool := ((List.range 8).drop s.fbit).map s.flags.getLsbD

theorem unread_length {s : State} (h : s.p + s.din.length ≤ s.inputLen) : s.unread.length = s.inputLen - s.p := by
  rw [State.unread, List.length_append, descrambled_length, State.payloadPos]
  omega

theorem unread_eq_nil {s : State} (h : s.p + s.din.length ≤ s.inputLen) (hend : s.inputLen ≤ s.p) : s.unread = [] :=
  List.eq_nil_of_length_eq_zero (by rw [unread_length h]; omega)

theorem unread_consume {k : Nat} {s : State} (h : k ≤ s.din.length) : (consume k s).unread = s.unread.drop k := by
  have hpos : (consume k s).payloadPos = s.payloadPos := by
    simp only [State.payloadPos, consume_p, consume_din, List.length_drop]; omega
  simp only [State.unread, hpos]
  exact (List.drop_append_of_le_length h).symm

/-- DESCR moves a byte from the scrambled ones to the waiting ones. -/
theorem unread_descr {s t : State} (hin : s.payloadPos < s.inputLen)
    (he : execDescr (s.hostRead (s.lSrc.toNat + s.payloadPos)) s = .next t) : t.unread = s.unread := by
  obtain ⟨_, ht⟩ := execDescr_next.mp he
  have hpos : t.payloadPos = s.payloadPos + 1 := by
    rw [ht, State.payloadPos, List.length_append]; rfl
  have hleft : s.inputLen - s.payloadPos = s.inputLen - (s.payloadPos + 1) + 1 := by omega
  rw [State.unread, State.unread, hpos, hleft, descrambled_succ, List.append_cons, ht]
  exact congrArg _ (descrambled_write (Nat.lt_succ_self _) _ _ _ _)

theorem unread_cons {s : State} {c : Byte} {more : List Byte} (hdin : s.din = c :: more) :
    s.unread = c :: (consume 1 s).unread := by
  rw [unread_consume (by rw [hdin]; simp), State.unread, hdin]; rfl

theorem unread_cons_cons {s : State} {b0 b1 : Byte} {more : List Byte} (hdin : s.din = b0 :: b1 :: more) :
    s.unread = b0 :: b1 :: (consume 2 s).unread := by
  rw [unread_consume (by rw [hdin]; simp), State.unread, hdin]; rfl

theorem flagBits_full {s : State} (h : s.fbit = 8) : s.flagBits = [] := by
  rw [State.flagBits, h]; rfl

theorem flagBits_cons {s : State} (h : s.fbit < 8) :
    s.flagBits = s.flags.getLsbD s.fbit :: (nextToken s).flagBits := by
  simp only [State.flagBits, nextToken_flags, nextToken_fbit]
  rw [List.drop_eq_getElem_cons (by simpa using h), List.map_cons, List.getElem_range]

theorem refOffset_toNat (b0 b1 : Byte) : (refOffset b0 b1).toNat = b0.toNat + 256 * (b1.toNat / 16) := by
  have h0 := b0.isLt
  have h1 := b1.isLt
  refine (toNat_append_add (b1.extractLsb' 4 4) b0).trans ?_
  rw [BitVec.extractLsb'_toNat, Nat.shiftRight_eq_div_pow]
  omega

theorem refLen_refLenCode (b1 : Byte) : refLen (refLenCode b1) = b1.toNat % 16 + 3 := by
  simp [refLen, refLenCode, BitVec.extractLsb'_toNat]

/-! ### The step -/

/-- One engine step of the LZSS stage: the end, or what the grammar still gives stays the same. -/
theorem engineStep_lzss_expand {hist : List Byte} {s t : State} (h : Inv s) (hp : s.phase = .lzss)
    (hout : OutputIs hist s) (he : engineStep s = .next t) :
    (s.inputLen ≤ s.p ∧ t = endLzss s) ∨
    (t.phase = .lzss ∧ ∃ hist', OutputIs hist' t ∧
      expand t.unread t.flagBits hist' = expand s.unread s.flagBits hist) := by
  have hfbit := h.countersOk.fbitLe
  rcases engineStep_lzss hp with ⟨hend, hs⟩ | ⟨hin, hneed, hs⟩ | ⟨_, _, hbit, f, more, hdin, hs⟩ |
    ⟨_, _, hbit, hlit, c, more, hdin, hs⟩ | ⟨hlast, _, hbit, href, b, more, hdin, hs⟩ |
    ⟨_, _, hbit, href, b0, b1, more, hdin, hs⟩ <;> rw [hs] at he
  · cases he; exact .inl ⟨hend, rfl⟩
  all_goals right
  · have hunread := unread_descr (payloadPos_lt hin hneed) he
    obtain ⟨_, rfl⟩ := execDescr_next.mp he
    exact ⟨hp, hist, { hout with }, congrArg (expand · s.flagBits hist) hunread⟩
  · cases he
    refine ⟨hp, hist, { hout with }, ?_⟩
    rw [unread_cons hdin, flagBits_full hbit, expand]; rfl
  · cases he
    refine ⟨hp, c :: hist, { outputIs_emit (s := consume 1 s) { hout with } c with }, ?_⟩
    rw [unread_cons hdin, flagBits_cons (s := s) (by omega), hlit, expand]; rfl
  · cases he
    have hend : (consume 1 s).unread = [] := by
      rw [unread_consume (by rw [hdin]; simp)]
      exact List.drop_eq_nil_of_le (by rw [unread_length (h.countersOk.inputLe hp)]; omega)
    refine ⟨hp, hist, { hout with }, ?_⟩
    rw [unread_cons hdin, flagBits_cons (s := s) (by omega), href, hend, expand, expand]
  · cases he
    have hrun : OutputIs _ (copyRun (refLen (refLenCode b1)) { consume 2 s with r := refOffset b0 b1 }) :=
      outputIs_copyRun { hout with }
    refine ⟨?_, _, { hrun with }, ?_⟩
    · rw [copyRun_frame]; exact hp
    · rw [unread_cons_cons hdin, flagBits_cons (s := s) (by omega), href, expand, copyRun_frame, refLen_refLenCode,
        ← refOffset_toNat]
      rfl

/-! ### The run -/

/-- The engine alone ends the LZSS stage, with what the grammar gives for the input that is left (41_lzss.md R103). -/
theorem run_lzss_expand {k : Nat} {hist : List Byte} {s : State} (h : Inv s) (hagenda : s.agenda = [])
    (hp : s.phase = .lzss) (hout : OutputIs hist s) (hk : s.stepsLeft ≤ k) :
    ∃ n t, Host.Core.run Sys2Proof.core n s = .next t ∧ t.phase = .lengthCheck ∧ t.p = s.inputLen ∧ t.cfg = s.cfg ∧
      OutputIs (expand s.unread s.flagBits hist) t := by
  induction k generalizing hist s with
  | zero =>
    have := stepsLeft_pos (s := s) (by rw [hp]; nofun)
    omega
  | succ k ih =>
    obtain ⟨u, he⟩ := engineStep_goes_on h
    rcases engineStep_lzss_expand h hp hout he with ⟨hend, rfl⟩ | ⟨hpu, hist', houtu, hexpand⟩
    · have hfits := h.countersOk.inputLe hp
      refine ⟨1, endLzss s, ?_, rfl, ?_, rfl, ?_⟩
      · rw [run_engine hagenda, he]; rfl
      · show s.p = s.inputLen; omega
      · rw [unread_eq_nil hfits hend, expand]; exact { hout with }
    · have hless := engineStep_stepsLeft h (by rw [hp]; nofun) he
      obtain ⟨n, t, hrun, hpt, hpos, hcfg, hlast⟩ :=
        ih (engineStep_keeps_inv h he) ((engineStep_agenda he).trans hagenda) hpu houtu (by omega)
      refine ⟨n + 1, t, ?_, hpt, hpos.trans ?_, hcfg.trans (engineStep_cfg he), hexpand ▸ hlast⟩
      · rw [run_engine hagenda, he]; exact hrun
      · have hside := engineStep_keeps_host_side he
        unfold sameHostSide at hside
        rw [hside]; rfl

/-! ### The stage -/

/-- A fresh LZSS stage has no output yet (41_lzss.md R96). -/
theorem outputIs_lzssInit (s : State) : OutputIs [] (lzssInit s) where
  dictWf := rfl
  dictIs _ _ := rfl
  cursor := rfl
  produced := rfl
  kept := by
    unfold State.kept
    split
    · rfl
    · exact List.take_nil.symm
  overflow := by simp

/-- Settles O18: the stage begins with no output and the whole payload unread, and its run expands that payload. -/
theorem lzssStageDecodes : Obligations.LzssStageDecodes := by
  unfold Obligations.LzssStageDecodes
  intro s h hagenda hp hchunk
  have hdup : s.isDuplicate = false := by
    simpa only [State.isDuplicate, Bool.and_eq_false_iff, decide_eq_false_iff_not] using hchunk
  have he : engineStep s = .next (dupTest s) := engineStep_dupTest hp
  have hstart : dupTest s =
      { lzssInit { s with status := { s.status with dup := false, clipped := false } } with phase := .lzss } := by
    rw [dupTest, hdup]; rfl
  have hout : OutputIs [] (dupTest s) := by rw [hstart]; exact { outputIs_lzssInit _ with }
  have hunread : (dupTest s).unread = s.payload := by rw [payload_eq_descrambled, hstart]; rfl
  have hbits : (dupTest s).flagBits = [] := flagBits_full (by rw [hstart]; rfl)
  have hinv := engineStep_keeps_inv h he
  obtain ⟨n, t, hrun, hpt, hpos, hcfg, hlast⟩ :=
    run_lzss_expand hinv ((engineStep_agenda he).trans hagenda) (by rw [hstart]) hout (Nat.le_refl _)
  rw [hunread, hbits] at hlast
  have hcfg' : t.cfg = s.cfg := hcfg.trans (engineStep_cfg he)
  refine ⟨n + 1, t, ?_, hpt, ?_, ?_, ?_, ?_⟩
  · rw [run_engine hagenda, he]; exact hrun
  · rw [hpos, hstart]; rfl
  · rw [hlast.produced, lzssOutput, List.length_reverse]
  · rw [hlast.kept, State.kept_congr hcfg', lzssOutput]
  · rw [hlast.overflow, hcfg', lzssOutput, List.length_reverse]

end Sys2Proof.Machine
end

section
/-! SUPPORT. The descrambler (40_descrambler.md): DESCR as 8-bit arithmetic, its inverse, and the payload range over a whole
command. At each moment of a command the first payload bytes are written back and the others are still scrambled; what a byte
ends as, read off the state, is the same before and after every step of the engine. -/

namespace Sys2Proof.Machine

/-! ### The transform -/

/-- Descrambling as arithmetic on byte values (40_descrambler.md R90). -/
theorem descramble_eq (x : Byte) (n : Nat) :
    descramble x n = BitVec.ofNat 8 ((x.toNat + 256 - n % 256) % 256) := by
  apply BitVec.eq_of_toNat_eq
  rw [descramble, BitVec.toNat_sub, BitVec.toNat_ofNat, BitVec.toNat_ofNat]
  omega

theorem scramble_eq (y : Byte) (n : Nat) : scramble y n = BitVec.ofNat 8 (y.toNat + n % 256) := by
  rw [scramble, BitVec.ofNat_add, BitVec.ofNat_toNat, BitVec.setWidth_eq]

/-- Settles O11: adding n mod 256 and subtracting it cancel. -/
theorem descrambleInverse : Obligations.DescrambleInverse := by
  unfold Obligations.DescrambleInverse
  exact fun b n => ⟨scramble_eq b n, BitVec.add_sub_cancel b _, BitVec.sub_add_cancel b _⟩

/-- Settles O10: where its address exists DESCR goes through, and it is one write and one byte more that waits. -/
theorem descrResult : Obligations.DescrResult := by
  unfold Obligations.DescrResult
  intro s x n y hwf hexists
  have hy : y = descramble x n := (descramble_eq x n).symm
  rw [hy]
  refine ⟨_, execDescr_next.mpr ⟨hexists, rfl⟩, ?_, fun a ha => Memory.read_write_other s.mem _ ha, rfl⟩
  exact (Memory.read_write hwf _ _ _).trans (if_pos rfl)

/-! ### How much of the payload is written back -/

/-- How many payload bytes the running command has descrambled and written back (40_descrambler.md R91, R92): those consumed and
those that wait during the LZSS stage, none before it and all after it. -/
def State.writtenBack (s : State) : Nat :=
  match s.phase with
  | .refSelect => 0
  | .dupTest => 0
  | .lzss => s.payloadPos
  | _ => s.inputLen

/-- What payload byte n ends as: what stands there once it is written back, and before that what DESCR will make of it. -/
def State.finalByte (s : State) (n : Nat) : Byte :=
  let x := s.hostRead (s.lSrc.toNat + n)
  if n < s.writtenBack then x else descramble x n

theorem finalByte_of_lt {s : State} {n : Nat} (h : n < s.writtenBack) :
    s.finalByte n = s.hostRead (s.lSrc.toNat + n) := if_pos h

theorem finalByte_of_ge {s : State} {n : Nat} (h : s.writtenBack ≤ n) :
    s.finalByte n = descramble (s.hostRead (s.lSrc.toNat + n)) n := if_neg (Nat.not_lt.mpr h)

/-- A step that leaves byte n alone, and does not pass it, leaves what it ends as. -/
theorem finalByte_congr {s t : State} {n : Nat} (hsrc : t.lSrc = s.lSrc)
    (hread : t.hostRead (s.lSrc.toNat + n) = s.hostRead (s.lSrc.toNat + n))
    (hpassed : n < t.writtenBack ↔ n < s.writtenBack) : t.finalByte n = s.finalByte n := by
  simp only [State.finalByte, hsrc, hread, hpassed]

theorem writtenBack_refSelect {s : State} (hp : s.phase = .refSelect) : s.writtenBack = 0 := by
  simp only [State.writtenBack, hp]

theorem writtenBack_dupTest {s : State} (hp : s.phase = .dupTest) : s.writtenBack = 0 := by
  simp only [State.writtenBack, hp]

theorem writtenBack_lzss {s : State} (hp : s.phase = .lzss) : s.writtenBack = s.payloadPos := by
  simp only [State.writtenBack, hp]

theorem writtenBack_idle {s : State} (hp : s.phase = .idle) : s.writtenBack = s.inputLen := by
  simp only [State.writtenBack, hp]

theorem writtenBack_afterInput {s : State} (hp : s.phase.afterInput = true) : s.writtenBack = s.inputLen := by
  cases hphase : s.phase
  case idle | refSelect | dupTest | lzss => rw [hphase] at hp; cases hp
  all_goals simp only [State.writtenBack, hphase]

/-- Past the LZSS stage a step that writes no host memory leaves what every byte ends as. -/
theorem finalByte_afterInput {s t : State} {n : Nat} (hp : s.phase.afterInput = true) (hsrc : t.lSrc = s.lSrc)
    (hmem : t.mem = s.mem) (ht : t.writtenBack = s.inputLen) : t.finalByte n = s.finalByte n :=
  finalByte_congr hsrc (by simp only [State.hostRead, hmem]) (by rw [ht, writtenBack_afterInput hp])

/-! ### The steps that write no payload byte -/

theorem finalByte_refSelect {s : State} (hp : s.phase = .refSelect) (n : Nat) :
    (refSelect s).finalByte n = s.finalByte n := by
  unfold refSelect
  split <;> exact finalByte_congr rfl rfl (by rw [writtenBack_refSelect hp]; rfl)

/-- A duplicate has no payload, and of every other chunk nothing is written back yet (44_command.md R143). -/
theorem finalByte_dupTest {s : State} (hp : s.phase = .dupTest) {n : Nat} (hn : n < s.inputLen) :
    (dupTest s).finalByte n = s.finalByte n := by
  unfold dupTest
  split
  · rename_i hdup
    have hempty : s.lStorage = 0 := by
      simp only [State.isDuplicate, Bool.and_eq_true, decide_eq_true_eq] at hdup
      exact hdup.left
    rw [State.inputLen, hempty] at hn
    exact absurd hn (Nat.not_lt_zero n)
  · exact finalByte_congr rfl rfl (by rw [writtenBack_dupTest hp]; rfl)

/-- The LZSS stage ends with every payload byte written back (41_lzss.md R103). -/
theorem finalByte_endLzss {s : State} (hp : s.phase = .lzss) (hend : s.inputLen ≤ s.p) {n : Nat}
    (hn : n < s.inputLen) : (endLzss s).finalByte n = s.finalByte n := by
  have hnow : n < s.writtenBack := by rw [writtenBack_lzss hp, State.payloadPos]; omega
  exact finalByte_congr rfl rfl (iff_of_true hn hnow)

/-- A token consumes bytes that were written back when they were descrambled. -/
theorem finalByte_token {s t : State} (hp : s.phase = .lzss) (hwait : s.tokenLength ≤ s.din.length)
    (ht : TokenRun s.tokenLength s t) (n : Nat) : t.finalByte n = s.finalByte n := by
  have hpt : t.phase = .lzss := by rw [ht.frame]; exact hp
  have hpos : t.payloadPos = s.payloadPos := by
    rw [ht.frame]
    simp only [State.payloadPos, List.length_drop]
    omega
  refine finalByte_congr (by rw [ht.frame]) (by rw [ht.frame]; rfl) ?_
  rw [writtenBack_lzss hpt, writtenBack_lzss hp, hpos]

/-- The RGBA range does not meet the payload range (60_exceptions.md R164). -/
theorem finalByte_pixel {s t : State} (h : Inv s) (hp : s.phase = .convert) (hin : s.pix < s.npix) {r g b a : Byte}
    (he : writePixel r g b a s = .next t) {n : Nat} (hn : n < s.inputLen) : t.finalByte n = s.finalByte n := by
  obtain ⟨_, _, hapart, _⟩ := checkRanges_none.mp (h.commandOk.rangesOk (by rw [hp]; nofun))
  obtain ⟨_, ht⟩ := writePixel_next.mp he
  refine finalByte_congr (by rw [ht]) ?_ ?_
  · rw [ht]
    refine Memory.read_writeList_other s.mem _ ?_
    unfold State.inputLen at hn
    simp only [List.length_cons, List.length_nil]
    omega
  · have hafter : s.phase.afterInput = true := by rw [hp]; rfl
    rw [writtenBack_afterInput hafter, writtenBack_afterInput (s := t) (by rw [ht]; exact hafter), ht]; rfl

/-! ### DESCR -/

/-- DESCR makes the byte at its position what it ends as, and touches no other (40_descrambler.md R92). -/
theorem finalByte_descr {s t : State} (h : Inv s) (hp : s.phase = .lzss)
    (he : execDescr (s.hostRead (s.lSrc.toNat + s.payloadPos)) s = .next t) (n : Nat) :
    t.finalByte n = s.finalByte n := by
  obtain ⟨_, ht⟩ := execDescr_next.mp he
  have hpt : t.phase = .lzss := by rw [ht]; exact hp
  have hnext : t.writtenBack = s.payloadPos + 1 := by
    rw [writtenBack_lzss hpt, ht, State.payloadPos, List.length_append]; rfl
  have hnow := writtenBack_lzss hp
  by_cases hpos : n = s.payloadPos
  · rw [finalByte_of_lt (by omega), finalByte_of_ge (by omega), ht, hpos]
    exact (Memory.read_write h.memoriesOk.memWf _ _ _).trans (if_pos rfl)
  · refine finalByte_congr (by rw [ht]) ?_ (by omega)
    rw [ht]
    exact Memory.read_write_other s.mem _ (by omega)

/-! ### The run -/

/-- No step of the engine changes what a payload byte ends as. -/
theorem engineStep_keeps_finalByte {s t : State} (h : Inv s) (he : engineStep s = .next t) {n : Nat}
    (hn : n < s.inputLen) : t.finalByte n = s.finalByte n := by
  cases hp : s.phase with
  | idle => rw [engineStep_idle hp] at he; cases he; rfl
  | refSelect => rw [engineStep_refSelect hp] at he; cases he; exact finalByte_refSelect hp n
  | dupTest => rw [engineStep_dupTest hp] at he; cases he; exact finalByte_dupTest hp hn
  | lzss =>
    rcases engineStep_lzss_next hp he with ⟨hend, rfl⟩ | ⟨_, _, hdescr⟩ | ⟨_, hwait, htoken⟩
    · exact finalByte_endLzss hp hend hn
    · exact finalByte_descr h hp hdescr n
    · exact finalByte_token hp hwait htoken n
  | lengthCheck =>
    rw [engineStep_lengthCheck hp] at he; cases he
    exact finalByte_afterInput (by rw [hp]; rfl) rfl rfl rfl
  | frame =>
    rw [engineStep_frame hp] at he
    split at he <;> cases he <;> exact finalByte_afterInput (by rw [hp]; rfl) rfl rfl rfl
  | interpretInit =>
    rw [engineStep_interpretInit hp] at he; cases he
    exact finalByte_afterInput (by rw [hp]; rfl) rfl rfl rfl
  | interpret =>
    rcases engineStep_interpret_next hp he with rfl | ⟨_, _, hop⟩
    · exact finalByte_afterInput (by rw [hp]; rfl) rfl rfl rfl
    · rw [hop.frame]
      exact finalByte_congr rfl rfl Iff.rfl
  | convert =>
    rcases engineStep_convert_next hp he with ⟨_, rfl⟩ | ⟨hin, r, g, b, a, hpix⟩
    · exact finalByte_afterInput (by rw [hp]; rfl) rfl rfl rfl
    · exact finalByte_pixel h hp hin hpix hn
  | complete =>
    rw [engineStep_complete hp] at he; cases he
    exact finalByte_afterInput (by rw [hp]; rfl) rfl rfl rfl

theorem engineStep_payloadRange {s t : State} (he : engineStep s = .next t) :
    t.lSrc = s.lSrc ∧ t.inputLen = s.inputLen := by
  have hside := engineStep_keeps_host_side he
  unfold sameHostSide at hside
  rw [hside]
  exact ⟨rfl, rfl⟩

theorem run_keeps_finalByte {k : Nat} {s t : State} (h : Inv s) (hagenda : s.agenda = [])
    (hrun : Host.Core.run Sys2Proof.core k s = .next t) {n : Nat} (hn : n < s.inputLen) :
    t.finalByte n = s.finalByte n ∧ t.lSrc = s.lSrc ∧ t.inputLen = s.inputLen := by
  induction k generalizing s with
  | zero => cases hrun; exact ⟨rfl, rfl, rfl⟩
  | succ k ih =>
    rw [run_engine hagenda] at hrun
    cases he : engineStep s with
    | next u =>
      rw [he] at hrun
      obtain ⟨hsrc, hlen⟩ := engineStep_payloadRange he
      obtain ⟨hbyte, hsrc', hlen'⟩ :=
        ih (engineStep_keeps_inv h he) ((engineStep_agenda he).trans hagenda) hrun (hlen ▸ hn)
      exact ⟨hbyte.trans (engineStep_keeps_finalByte h he hn), hsrc'.trans hsrc, hlen'.trans hlen⟩
    | fault f => rw [he] at hrun; cases hrun
    | refused r => rw [he] at hrun; cases hrun

/-- Settles O56: at the START no payload byte is written back, at the end every one is, and in between what each ends as does
not change. -/
theorem payloadHoldsDescrambledBytes : Obligations.PayloadHoldsDescrambledBytes := by
  unfold Obligations.PayloadHoldsDescrambledBytes
  rintro s t h ⟨hphase, hagenda, k, hrun, hidle⟩ n hn
  obtain ⟨hbyte, hsrc, hlen⟩ := run_keeps_finalByte h hagenda hrun hn
  have hstart : s.writtenBack = 0 := writtenBack_refSelect hphase
  have hend : t.writtenBack = s.inputLen := (writtenBack_idle hidle).trans hlen
  rw [finalByte_of_lt (by omega), finalByte_of_ge (by omega), hsrc] at hbyte
  exact hbyte

end Sys2Proof.Machine
end

section
/-! SUPPORT. The bound on the LZSS output (41_lzss.md R105) and the meaning of DS_OVF (R97), kept by every move. Output begins empty
and only a token adds to it, at most nine bytes for each byte it takes; every other move leaves alone the output and the input
that it is measured by. -/

namespace Sys2Proof.Machine

/-! ### What leaves the output alone -/

/-- The move gives no output: DS, PRODUCED and DS_CAP stand and DS_OVF at most fell; a stage that measures the output by its input
has the same input as before. -/
structure OutputKept (s t : State) : Prop where
  cfg      : t.cfg = s.cfg
  ds       : t.ds = s.ds
  produced : t.produced = s.produced
  overflow : t.status.dsOvf = true → s.status.dsOvf = true
  running  : t.phase = .lzss → s.phase = .lzss ∧ t.p = s.p ∧ t.inputLen = s.inputLen
  after    : t.phase.afterInput = true → s.phase.afterInput = true ∧ t.inputLen = s.inputLen

theorem OutputKept.outputBounded {s t : State} (hk : OutputKept s t) (h : OutputBounded s) : OutputBounded t where
  dsLe := by rw [hk.ds, hk.produced]; exact h.dsLe
  inputLe hp := by
    obtain ⟨hs, hpos, hlen⟩ := hk.running hp
    rw [hpos, hlen]; exact h.inputLe hs
  soFar hp := by
    obtain ⟨hs, hpos, _⟩ := hk.running hp
    rw [hk.produced, hpos]; exact h.soFar hs
  atEnd hp := by
    obtain ⟨hs, hlen⟩ := hk.after hp
    rw [hk.produced, hlen]; exact h.atEnd hs
  overflow ho := by rw [hk.cfg, hk.produced]; exact h.overflow (hk.overflow ho)

/-- The stages behind the LZSS stage only read its output. -/
theorem OutputBounded.of_afterInput {s t : State} (h : OutputBounded s) (hs : s.phase.afterInput = true)
    (ht : t.phase ≠ .lzss) (hovf : t.status.dsOvf = s.status.dsOvf)
    (hrest : t = { t with cfg := s.cfg, ds := s.ds, produced := s.produced, lStorage := s.lStorage }) :
    OutputBounded t := by
  have hkept : OutputKept s t :=
    { cfg := by rw [hrest]
      ds := by rw [hrest]
      produced := by rw [hrest]
      overflow := hovf ▸ id
      running := fun hp => absurd hp ht
      after := fun _ => ⟨hs, by rw [hrest]; rfl⟩ }
  exact hkept.outputBounded h

theorem PortOnly.outputKept {s t : State} (hpo : PortOnly s t)
    (hovf : t.status.dsOvf = true → s.status.dsOvf = true) : OutputKept s t := by
  have hphase : t.phase = s.phase := by rw [hpo.rest]
  have hlen : t.inputLen = s.inputLen := by rw [hpo.rest]; rfl
  exact
    { cfg := by rw [hpo.rest]
      ds := by rw [hpo.rest]
      produced := by rw [hpo.rest]
      overflow := hovf
      running := fun hp => ⟨hphase ▸ hp, by rw [hpo.rest], hlen⟩
      after := fun hp => ⟨hphase ▸ hp, hlen⟩ }

theorem outputBounded_of_empty {s : State} (hds : s.ds = []) (hproduced : s.produced = 0)
    (hpos : s.phase = .lzss → s.p = 0) (hovf : s.status.dsOvf = false) : OutputBounded s where
  dsLe := by rw [hds]; exact Nat.zero_le _
  inputLe hp := by rw [hpos hp]; exact Nat.zero_le _
  soFar _ := by rw [hproduced]; exact Nat.zero_le _
  atEnd _ := by rw [hproduced]; exact Nat.zero_le _
  overflow ho := absurd (hovf.symm.trans ho) nofun

/-! ### The engine -/

theorem copyRun_produced (n : Nat) (s : State) : (copyRun n s).produced = s.produced + n := by rw [copyRun_frame]

/-- DS_OVF says that the output passed DS_CAP (41_lzss.md R97). -/
def State.overflowMeant (s : State) : Prop :=
  s.status.dsOvf = true → ∃ cap, s.cfg.dsCap = some cap ∧ cap < s.produced

theorem engineStep_lzss_overflow {s t : State} (hp : s.phase = .lzss) (hle : s.ds.length ≤ s.produced)
    (h : s.overflowMeant) (he : engineStep s = .next t) : t.overflowMeant := by
  rcases engineStep_lzss hp with ⟨_, hs⟩ | ⟨_, _, hs⟩ | ⟨_, _, _, f, _, _, hs⟩ | ⟨_, _, _, _, c, _, _, hs⟩ |
    ⟨_, _, _, _, b, _, _, hs⟩ | ⟨_, _, _, _, b0, b1, _, _, hs⟩ <;> rw [hs] at he
  case inr.inl => obtain ⟨_, rfl⟩ := execDescr_next.mp he; exact h
  all_goals cases he
  · exact h
  · exact h
  · exact emit_overflow (c := c) (s := consume 1 s) hle h
  · exact h
  · have hrun := copyRun_overflow (n := refLen (refLenCode b1)) (s := { consume 2 s with r := refOffset b0 b1 }) hle h
    simpa only [State.overflowMeant, nextToken_status, nextToken_cfg, nextToken_produced, copyRun_cfg,
      copyRun_produced] using hrun

theorem outputBounded_endLzss {s : State} (h : OutputBounded s) (hp : s.phase = .lzss) (hend : s.inputLen ≤ s.p) :
    OutputBounded (endLzss s) where
  dsLe := h.dsLe
  inputLe := nofun
  soFar := nofun
  atEnd _ := by
    have hin := h.inputLe hp
    have hsoFar := h.soFar hp
    show s.produced ≤ 9 * s.inputLen
    omega
  overflow := h.overflow

/-- A token takes its `k` bytes from the input and gives at most nine for each (41_lzss.md R105). -/
theorem outputBounded_token {s t : State} (h : OutputBounded s) (hp : s.phase = .lzss) (hin : ¬ s.inputLen ≤ s.p)
    (hovf : t.overflowMeant) (ht : TokenRun s.tokenLength s t) : OutputBounded t := by
  obtain ⟨n, hn, hproduced, hds⟩ := ht.emits
  have hle := h.dsLe
  have hsoFar := h.soFar hp
  have hfits := tokenLength_fits hin
  have hpos : t.p = s.p + s.tokenLength := by rw [ht.frame]
  have hlen : t.inputLen = s.inputLen := by rw [ht.frame]; rfl
  have hphase : t.phase = .lzss := by rw [ht.frame]; exact hp
  exact
    { dsLe := by omega
      inputLe := fun _ => by omega
      soFar := fun _ => by omega
      atEnd := by rw [hphase]; nofun
      overflow := hovf }

theorem outputKept_refSelect (s : State) : OutputKept s (refSelect s) := by
  unfold refSelect
  split <;> exact ⟨rfl, rfl, rfl, id, nofun, nofun⟩

theorem outputKept_descr {s t : State} {x : Byte} (he : execDescr x s = .next t) : OutputKept s t := by
  obtain ⟨_, rfl⟩ := execDescr_next.mp he
  exact ⟨rfl, rfl, rfl, id, fun hp => ⟨hp, rfl, rfl⟩, fun hp => ⟨hp, rfl⟩⟩

/-- The LZSS stage and DUPLICATE both begin with no output (41_lzss.md R96, 44_command.md R146). -/
theorem outputBounded_dupTest (s : State) : OutputBounded (dupTest s) := by
  unfold dupTest
  split
  · exact outputBounded_of_empty rfl rfl nofun rfl
  · exact outputBounded_of_empty rfl rfl (fun _ => rfl) rfl

theorem engineStep_keeps_outputBounded {s t : State} (h : OutputBounded s) (he : engineStep s = .next t) :
    OutputBounded t := by
  have hafter {p : Phase} (hp : s.phase = p) (hpast : p.afterInput = true) : s.phase.afterInput = true := hp ▸ hpast
  cases hp : s.phase with
  | idle => rw [engineStep_idle hp] at he; cases he; exact h
  | refSelect => rw [engineStep_refSelect hp] at he; cases he; exact (outputKept_refSelect s).outputBounded h
  | dupTest => rw [engineStep_dupTest hp] at he; cases he; exact outputBounded_dupTest s
  | lzss =>
    have hovf : t.overflowMeant := engineStep_lzss_overflow hp h.dsLe h.overflow he
    rcases engineStep_lzss_next hp he with ⟨hend, rfl⟩ | ⟨_, _, hdescr⟩ | ⟨hin, _, htoken⟩
    · exact outputBounded_endLzss h hp hend
    · exact (outputKept_descr hdescr).outputBounded h
    · exact outputBounded_token h hp hin hovf htoken
  | lengthCheck =>
    rw [engineStep_lengthCheck hp] at he; cases he
    exact h.of_afterInput (hafter hp rfl) nofun rfl rfl
  | frame =>
    rw [engineStep_frame hp] at he
    split at he <;> cases he <;> exact h.of_afterInput (hafter hp rfl) nofun rfl rfl
  | interpretInit =>
    rw [engineStep_interpretInit hp] at he; cases he
    exact h.of_afterInput (hafter hp rfl) nofun rfl rfl
  | interpret =>
    rcases engineStep_interpret_next hp he with rfl | ⟨_, _, hop⟩
    · exact h.of_afterInput (hafter hp rfl) nofun rfl rfl
    · rw [hop.frame]
      exact h.of_afterInput (hafter hp rfl) (by rw [hp]; nofun) rfl rfl
  | convert =>
    rcases engineStep_convert_next hp he with ⟨_, rfl⟩ | ⟨_, r, g, b, a, hpix⟩
    · exact h.of_afterInput (hafter hp rfl) nofun rfl rfl
    · obtain ⟨_, rfl⟩ := writePixel_next.mp hpix
      exact h.of_afterInput (hafter hp rfl) (by rw [hp]; nofun) rfl rfl
  | complete =>
    rw [engineStep_complete hp] at he; cases he
    exact h.of_afterInput (hafter hp rfl) nofun rfl rfl

/-! ### The host and the platform -/

/-- An accepted START begins in front of the LZSS stage, where nothing is measured yet; a rejected one clears DS_OVF
(44_command.md R141, 60_exceptions.md R164). -/
theorem outputKept_issueStart {s t : State} (he : issueStart s = .next t) : OutputKept s t := by
  by_cases hcheck : (latch s).checkRanges = .none
  · simp only [issueStart, hcheck] at he
    split at he <;> cases he
    exact ⟨rfl, rfl, rfl, id, nofun, nofun⟩
  · rw [issueStart_rejected rfl hcheck] at he
    cases he
    exact PortOnly.outputKept (s := s) ⟨rfl, id, rfl⟩ nofun

theorem outputKept_start {s t : State} {newSeq irqEn : Bool} (he : execStart newSeq irqEn s = .next t) :
    OutputKept s t := by
  cases hbusy : s.status.busy with
  | true =>
    rw [execStart_of_busy hbusy] at he
    cases he
    exact PortOnly.outputKept (s := s) ⟨rfl, id, rfl⟩ id
  | false => exact { outputKept_issueStart ((exec_start_idle hbusy newSeq irqEn).symm.trans he) with }

theorem outputKept_newSeq {s t : State} {irqEn : Bool} (he : execNewSeq irqEn s = .next t) : OutputKept s t := by
  refine (portOnly_newSeq he).outputKept ?_
  unfold execNewSeq at he
  split at he <;> cases he <;> exact id

theorem outputKept_writeCtrl {s t : State} {v : Word} (he : writeCtrl v s = .next t) : OutputKept s t := by
  rw [writeCtrl_eq] at he
  split at he
  · exact outputKept_start he
  · split at he
    · exact outputKept_newSeq he
    · cases he
      exact PortOnly.outputKept (s := s) ⟨rfl, id, rfl⟩ id

theorem outputKept_writeReg {s t : State} {offset : Nat} {v : Word} (he : writeReg offset v s = .next t) :
    OutputKept s t := by
  unfold writeReg at he
  split at he
  · exact outputKept_writeCtrl he
  · split at he
    · cases he
      exact PortOnly.outputKept (s := s) ⟨rfl, id, rfl⟩ id
    · cases he
      exact (portOnly_storeReg offset v s).outputKept (storeReg_status offset v s ▸ id)

theorem outputKept_hostStep {s t : State} {access : HostAccess} (he : hostStep access s = .next t) :
    OutputKept s t := by
  cases access with
  | regRead width offset =>
    obtain ⟨_, hread⟩ := getD_accessError_next he
    cases hread
    exact (portOnly_readReg offset s).outputKept (readReg_status offset s ▸ id)
  | regWrite width offset v => exact outputKept_writeReg (getD_accessError_next he).2
  | memRead a =>
    have hread := getD_memError_next he
    refine (portOnly_readMem hread).outputKept ?_
    unfold readMem at hread
    split at hread <;> cases hread <;> exact id
  | memWrite a v =>
    have hwrite := getD_memError_next he
    unfold writeMem at hwrite
    split at hwrite <;> cases hwrite
    exact ⟨rfl, rfl, rfl, id, fun hp => ⟨hp, rfl, rfl⟩, fun hp => ⟨hp, rfl⟩⟩

theorem resetStep_outputBounded {s t : State} (he : resetStep s = .next t) : OutputBounded t := by
  unfold resetStep at he
  split at he <;> cases he <;> exact outputBounded_of_empty rfl rfl nofun rfl

/-! ### Every move -/

theorem outputBounded_with_agenda {s : State} (h : OutputBounded s) (moves : List Turn) :
    OutputBounded { s with agenda := moves } := { h with }

/-- Settles O54: a token adds at most nine bytes for each byte it takes, the host gives no output, and a reset leaves none. -/
theorem stepKeepsOutputBound : Obligations.StepKeepsOutputBound := by
  unfold Obligations.StepKeepsOutputBound
  intro s t _ h he
  match hmove : s.agenda with
  | [] => exact engineStep_keeps_outputBounded h (step_of_agenda_nil hmove ▸ he)
  | .engine :: moves =>
    exact engineStep_keeps_outputBounded (outputBounded_with_agenda h moves) (step_of_engine hmove ▸ he)
  | .host access :: moves =>
    exact (outputKept_hostStep (step_of_host hmove ▸ he)).outputBounded (outputBounded_with_agenda h moves)
  | .reset :: moves => exact resetStep_outputBounded (step_of_reset hmove ▸ he)

end Sys2Proof.Machine
end

section
/-! SUPPORT. What the engine fetches is an instruction (41_lzss.md R104, 30_encoding.md R80), and which one the loop of the LZSS
stage fetches next (41_lzss.md R98). -/

namespace Sys2Proof.Machine

/-! ### Every fetch -/

/-- The engine's sources but the pixels' are fetched with a byte at least. -/
theorem fetch_bytes {s : State} {source : Source} {bytes : List Byte} (h : fetch s = some (source, bytes)) :
    bytes ≠ [] ∨ source = .pixel := by
  cases hp : s.phase <;> simp only [fetch, hp] at h
  case lzss =>
    unfold fetchLzss at h
    split at h
    · cases h
    · split at h <;> cases h
      · exact .inl nofun
      · have hpos := tokenLength_pos s
        refine .inl (List.ne_nil_of_length_pos ?_)
        rw [List.length_take]; omega
  case frame => cases h; exact .inl nofun
  case interpret =>
    unfold fetchDelta at h
    split at h <;> cases h
    rename_i hin
    have hlen : s.ip < s.ds.length := hin.1
    refine .inl (List.ne_nil_of_length_pos ?_)
    rw [List.length_drop]; omega
  case convert => unfold fetchPixel at h; split at h <;> cases h; exact .inr rfl
  all_goals cases h

/-- Any bytes of a source the engine reads begin with an instruction; a pixel may have none (43_color.md R134). -/
theorem decode_goes_on {source : Source} {bytes : List Byte} {p : Phase} (hstage : stageOf source = some p)
    (hbytes : bytes ≠ [] ∨ source = .pixel) : ∃ d, decode source bytes = .ok d := by
  match source, bytes, hstage, hbytes with
  | .pixel, [], _, _ | .pixel, [_], _, _ | .pixel, _ :: _ :: _, _, _ => exact ⟨_, rfl⟩
  | .token false, [_], _, _ | .token false, _ :: _ :: _, _, _ => exact ⟨_, rfl⟩
  | .payload, _ :: _, _, _ | .flagByte, _ :: _, _, _ | .token true, _ :: _, _, _ | .delta, _ :: _, _, _
  | .chunkType, _ :: _, _, _ => exact ⟨_, rfl⟩
  | .payload, [], _, .inl h | .flagByte, [], _, .inl h | .token true, [], _, .inl h | .token false, [], _, .inl h
  | .delta, [], _, .inl h | .chunkType, [], _, .inl h => exact absurd rfl h

/-- Settles O4: the engine fetches a byte at least, or a pixel. -/
theorem everyFetchDecodes : Obligations.EveryFetchDecodes := by
  unfold Obligations.EveryFetchDecodes
  intro s source bytes hf
  obtain ⟨⟨i, rest⟩, hd⟩ := decode_goes_on (stageOf_of_fetch hf) (fetch_bytes hf)
  exact ⟨i, rest, hd, wf_of_decode hd⟩

/-! ### The loop of the LZSS stage -/

theorem tokenLength_flagByte {s : State} (h : s.fbit = 8) : s.tokenLength = 1 := if_pos h

theorem tokenLength_literal {s : State} (hfbit : s.fbit ≠ 8) (hbit : s.flags.getLsbD s.fbit = true) :
    s.tokenLength = 1 :=
  (if_neg hfbit).trans (if_pos hbit)

theorem tokenLength_backReference {s : State} (hfbit : s.fbit ≠ 8) (hbit : s.flags.getLsbD s.fbit = false) :
    s.tokenLength = if s.p + 1 = s.inputLen then 1 else 2 :=
  (if_neg hfbit).trans (if_neg (by rw [hbit]; nofun))

theorem tokenSource_flagByte {s : State} (h : s.fbit = 8) : s.tokenSource = .flagByte := if_pos h

theorem tokenSource_token {s : State} (h : s.fbit ≠ 8) : s.tokenSource = .token (s.flags.getLsbD s.fbit) := if_neg h

/-- Where the token's bytes all wait, the step runs the token (41_lzss.md R98). -/
theorem step_token {s : State} (hagenda : s.agenda = []) (hp : s.phase = .lzss) (hin : s.p < s.inputLen)
    {source : Source} {bytes more : List Byte} (hsource : s.tokenSource = source) (hlen : s.tokenLength = bytes.length)
    (hdin : s.din = bytes ++ more) {i : Instr} {rest : List Byte} (hd : decode source bytes = .ok (i, rest)) :
    step s = exec i s := by
  have hwait : ¬ s.din.length < s.tokenLength := by rw [hdin, hlen, List.length_append]; omega
  have hfetch : fetch s = some (source, bytes) := by
    simp only [fetch, hp, fetchLzss, if_neg (Nat.not_le.mpr hin), if_neg hwait, hsource]
    rw [hdin, hlen, List.take_left]
  rw [step_of_agenda_nil hagenda]
  exact engineStep_of_fetch hfetch hd

/-- Where the token lacks a byte, the step descrambles it (log 6). -/
theorem step_descr {s : State} (hagenda : s.agenda = []) (hp : s.phase = .lzss) (hin : s.p < s.inputLen)
    (hneed : s.din.length < s.tokenLength) :
    step s = exec (.descr (s.hostRead (s.lSrc.toNat + s.payloadPos))) s := by
  have hfetch : fetch s = some (.payload, [s.hostRead (s.lSrc.toNat + s.payloadPos)]) := by
    simp only [fetch, hp, fetchLzss, if_neg (Nat.not_le.mpr hin), if_pos hneed]
  rw [step_of_agenda_nil hagenda]
  exact engineStep_of_fetch hfetch rfl

theorem step_endLzss {s : State} (hagenda : s.agenda = []) (hp : s.phase = .lzss) (hend : s.inputLen ≤ s.p) :
    step s = .next (endLzss s) := by
  rw [step_of_agenda_nil hagenda, engineStep]
  simp only [fetch, hp, fetchLzss, if_pos hend]
  simp only [nextStage, hp]

/-- Settles O8: the flag bits and the input left say which token is next; a token that lacks a byte waits for DESCR. -/
theorem lzssLoopRunsNextToken : Obligations.LzssLoopRunsNextToken := by
  unfold Obligations.LzssLoopRunsNextToken
  intro s hagenda hp bit
  refine ⟨step_endLzss hagenda hp, fun hin hfbit f more hdin => ?_, fun hin hfbit hbit c more hdin => ?_,
    fun hlast hfbit hbit b0 more hdin => ?_, fun hin hfbit hbit b0 b1 more hdin => ?_, fun hin hlack => ?_⟩
  · exact step_token hagenda hp hin (bytes := [f]) (tokenSource_flagByte hfbit) (tokenLength_flagByte hfbit) hdin rfl
  · have hsource : s.tokenSource = .token true := hbit ▸ tokenSource_token hfbit
    exact step_token hagenda hp hin (bytes := [c]) hsource (tokenLength_literal hfbit hbit) hdin rfl
  · have hsource : s.tokenSource = .token false := hbit ▸ tokenSource_token hfbit
    have hlen : s.tokenLength = 1 := (tokenLength_backReference hfbit hbit).trans (if_pos hlast)
    exact step_token hagenda hp (by omega) (bytes := [b0]) hsource hlen hdin rfl
  · have hsource : s.tokenSource = .token false := hbit ▸ tokenSource_token hfbit
    have hlen : s.tokenLength = 2 := (tokenLength_backReference hfbit hbit).trans (if_neg (by omega))
    have hcode : (refLenCode b1).toNat = b1.toNat % 16 := Nat.add_right_cancel (refLen_refLenCode b1)
    exact ⟨refOffset b0 b1, refLenCode b1, refOffset_toNat b0 b1, hcode,
      step_token hagenda hp (by omega) (bytes := [b0, b1]) hsource hlen hdin rfl⟩
  · refine step_descr hagenda hp hin ?_
    rcases hlack with hdin | ⟨hfbit, hbit, hmore, b0, hdin⟩
    · rw [hdin]; exact tokenLength_pos s
    · rw [hdin, tokenLength_backReference hfbit hbit, if_neg (by omega)]; exact Nat.lt_succ_self 1

end Sys2Proof.Machine
end

section
/-! SUPPORT. The rows of the LZSS stage one by one (41_lzss.md R96, R99..R102): what each changes, and what it leaves alone. -/

namespace Sys2Proof.Machine

/-! ### The rows that emit nothing -/

/-- Settles O13: the row is the record update that the rule states. -/
theorem lzFlagsResult : Obligations.LzFlagsResult := by
  unfold Obligations.LzFlagsResult
  exact fun s f => rfl

/-- Settles O16: the row is `consume` alone. -/
theorem lzRefPartialResult : Obligations.LzRefPartialResult := by
  unfold Obligations.LzRefPartialResult
  exact fun s b0 => rfl

/-! ### The literal -/

theorem dsRoom_iff {s : State} : s.dsRoom = true ↔ ∀ cap, s.cfg.dsCap = some cap → s.ds.length < cap := by
  unfold State.dsRoom
  cases hcap : s.cfg.dsCap with
  | none => simp
  | some cap => simp

theorem emit_of_room {s : State} (h : s.dsRoom = true) (c : Byte) :
    (emit c s).ds = s.ds ++ [c] ∧ (emit c s).status = s.status := by
  rw [emit_ds, emit_status, h]
  exact ⟨rfl, rfl⟩

theorem emit_of_full {s : State} (h : ¬ s.dsRoom = true) (c : Byte) :
    (emit c s).ds = s.ds ∧ (emit c s).status = { s.status with dsOvf := true } := by
  rw [emit_ds, emit_status, if_neg h, if_neg h]
  exact ⟨rfl, rfl⟩

/-- Settles O14: `emit` writes the dictionary at W whatever DS holds, and DS by its room. -/
theorem lzLitResult : Obligations.LzLitResult := by
  unfold Obligations.LzLitResult
  intro s c hwf
  have hdict (a : Nat) : (s.dict.write s.w.toNat c).read a = if a = s.w.toNat then c else s.dict.read a :=
    Memory.read_write hwf _ _ _
  refine ⟨nextToken (emit c (consume 1 s)), rfl, (hdict _).trans (if_pos rfl), fun a ha => (hdict a).trans (if_neg ha),
    BitVec.toNat_add s.w 1, fun hroom => ?_, fun cap hcap hfull => ?_, rfl⟩
  · exact emit_of_room (s := consume 1 s) (dsRoom_iff.mpr hroom) c
  · have hno : ¬ (consume 1 s).dsRoom = true := fun hroom => by
      have : s.ds.length < cap := dsRoom_iff.mp hroom cap hcap
      omega
    exact emit_of_full hno c

/-! ### The back-reference -/

theorem copyRun_status_unbounded {s : State} (hcap : s.cfg.dsCap = none) (n : Nat) :
    (copyRun n s).status = s.status := by
  obtain ⟨_, hovf⟩ := copyRun_ds_unbounded hcap n
  rw [copyRun_frame, hovf]

/-- A run of at least one byte sets DS_OVF exactly when not all of it fits (41_lzss.md R97). -/
theorem copyRun_status_bounded {s : State} {cap : Nat} (hcap : s.cfg.dsCap = some cap) {n : Nat} (hn : 0 < n) :
    (copyRun n s).status =
      { s.status with dsOvf := s.status.dsOvf || decide (cap < s.ds.length + n) } := by
  obtain ⟨_, hovf⟩ := copyRun_ds_bounded hcap n
  rw [copyRun_frame, hovf, decide_eq_decide.mpr (and_iff_right hn)]

/-- Where the copies of LZ.REF begin: its two bytes are taken and R is at its offset (41_lzss.md R101). -/
def copyStart (off : DictIx) (s : State) : State := { consume 2 s with r := off }

theorem exec_lzRef (off : DictIx) (lenCode : BitVec 4) (s : State) :
    exec (.lzRef off lenCode) s = .next (nextToken (copyRun (refLen lenCode) (copyStart off s))) := rfl

/-- Settles O15: the token is a run of `lenCode + 3` copies from `off`, with P past its two bytes. -/
theorem lzRefResult : Obligations.LzRefResult := by
  unfold Obligations.LzRefResult
  intro s off lenCode hwf len behind
  have hle : len ≤ 4096 := le_trans (refLen_le lenCode) (by decide)
  have hpos : 0 < len := Nat.succ_pos _
  refine ⟨_, runBytesOf len (copyStart off s), exec_lzRef off lenCode s, runBytesOf_length _ _,
    fun j hj => runBytesOf_overlap (s := copyStart off s) hle hj hwf, fun hcap => ⟨?_, ?_⟩, fun cap hcap => ⟨?_, ?_⟩,
    fun k hk => copyRun_dict_read (s := copyStart off s) hle hwf hk, copyRun_w _ (copyStart off s),
    copyRun_r _ (copyStart off s), ?_⟩
  · exact (copyRun_ds_unbounded (s := copyStart off s) hcap len).1
  · exact copyRun_status_unbounded (s := copyStart off s) hcap len
  · exact (copyRun_ds_bounded (s := copyStart off s) hcap len).1
  · exact copyRun_status_bounded (s := copyStart off s) hcap hpos
  · rw [copyRun_frame]; rfl

/-! ### The start of the stage -/

theorem isDuplicate_eq_false {s : State} (h : s.lStorage ≠ 0 ∨ s.lOriginal ≠ 0) : s.isDuplicate = false := by
  simpa only [State.isDuplicate, Bool.and_eq_false_iff, decide_eq_false_iff_not] using h

theorem step_dupTest_of_chunk {s : State} (hagenda : s.agenda = []) (hp : s.phase = .dupTest)
    (hchunk : s.lStorage ≠ 0 ∨ s.lOriginal ≠ 0) :
    step s = .next
      { lzssInit { s with status := { s.status with dup := false, clipped := false } } with phase := .lzss } := by
  rw [step_of_agenda_nil hagenda, engineStep_dupTest hp, dupTest, isDuplicate_eq_false hchunk]; rfl

/-- Settles O17: the initialisation reads none of the LZSS state it sets. -/
theorem lzssStageStartsFresh : Obligations.LzssStageStartsFresh := by
  unfold Obligations.LzssStageStartsFresh
  intro s hagenda hp hchunk
  refine ⟨_, step_dupTest_of_chunk hagenda hp hchunk, fun _ => rfl, rfl, fun dict w r flags fbit => ?_, rfl⟩
  exact step_dupTest_of_chunk (s := { s with dict := dict, w := w, r := r, flags := flags, fbit := fbit }) hagenda hp
    hchunk

end Sys2Proof.Machine
end

section
/-! SUPPORT. The chunk-type dispatch and the frame-delta operations (42_frame_delta.md R110..R124): what each leaves in FB, when
it sets CLIPPED, how it stops, and which step runs it. -/

namespace Sys2Proof.Machine

/-! ### The frame a chunk starts from -/

theorem fbSize_eq_two_mul (s : State) : s.fbSize = 2 * (s.lWidth.toNat * s.lHeight.toNat) := Nat.mul_comm _ _

/-- The stream written over a frame and zero-filled to the frame's size: R112's two loops, byte by byte. -/
theorem Memory.read_rawFrame {m : Memory} (h : m.wf = true) (ds : List Byte) (size a : Nat) :
    ((m.writeList 0 (ds.take (min ds.length size))).zeroRange (min ds.length size) size).read a =
      if a < min ds.length size then ds.getD a 0 else if a < size then 0 else m.read a := by
  have hlen : (ds.take (min ds.length size)).length = min ds.length size := by
    rw [List.length_take]; omega
  rw [Memory.read_zeroRange (Memory.wf_writeList h _ _), Memory.read_writeList h, hlen, Nat.zero_add, Nat.sub_zero]
  by_cases hstream : a < min ds.length size
  · rw [if_neg (by omega), if_pos ⟨Nat.zero_le a, hstream⟩, if_pos hstream, getD_take hstream]
  · rw [if_neg hstream, if_neg (c := 0 ≤ a ∧ _) (by omega)]
    exact if_congr (and_iff_right (Nat.le_of_not_lt hstream)) rfl rfl

/-- Settles O19: the frame is the stream, then zeros up to FB_SIZE, then what it was. -/
theorem rawFrameResult : Obligations.RawFrameResult := by
  unfold Obligations.RawFrameResult
  intro s hwf size m
  have hsize : s.fbSize = size := fbSize_eq_two_mul s
  have hread := Memory.read_rawFrame hwf s.ds size
  have hexec : exec .rawFrame s = .next (enterConvert
      { s with
        fb := (s.fb.writeList 0 (s.ds.take m)).zeroRange m size
        fbLen := m, ip := 0, ops := 0, cause := .none, freeFrame := none }) := by
    rw [exec, execRawFrame, hsize]; rfl
  refine ⟨_, hexec, fun a ha => ?_, fun a hlo hhi => ?_, fun a ha => ?_, rfl⟩
  · exact (hread a).trans (if_pos ha)
  · exact (hread a).trans ((if_neg (by omega)).trans (if_pos hhi))
  · exact (hread a).trans ((if_neg (by omega)).trans (if_neg (by omega)))

/-- Settles O20: the blank canvas is the only write. -/
theorem deltaInitResult : Obligations.DeltaInitResult := by
  unfold Obligations.DeltaInitResult
  intro s ty hwf size
  have hsize : s.fbSize = size := fbSize_eq_two_mul s
  have hexec : exec (.deltaInit ty) s = .next
      { s with
        fb := if ty = 2 then s.fb else s.fb.zeroRange 0 size
        freeFrame := if ty = 2 then s.freeFrame else none
        fbLen := size, phase := .interpretInit } := by
    rw [exec, execDeltaInit, hsize]
  refine ⟨_, hexec, fun hkeep => if_pos hkeep, fun hblank => ?_, rfl⟩
  simp only [if_neg hblank, Memory.read_zeroRange hwf]
  exact ⟨fun a ha => if_pos ⟨Nat.zero_le a, ha⟩, fun a ha => if_neg (by omega)⟩

/-! ### COPY and FILL -/

theorem outOfFrame_iff {s : State} {d c : Nat} :
    s.outOfFrame d c = true ↔ s.cfg.oobPolicy = .stop ∧ s.fbSize < d + c := by
  rw [State.outOfFrame, Bool.and_eq_true, decide_eq_true_iff, decide_eq_true_iff]

theorem writeOp_of_outOfFrame {s : State} {d c : Nat} (h : s.outOfFrame d c = true) (len : Nat) (vs : List Byte) :
    writeOp d c len vs s = .next (stopAt .frameOob s) := if_pos h

theorem writeOp_of_inFrame {s : State} {d c : Nat} (h : ¬ s.outOfFrame d c = true) (len : Nat) (vs : List Byte) :
    writeOp d c len vs s = .next (finishOp len (fbWriteList d vs s)) := if_neg h

/-- A write that is not out of frame under STOP: the bytes inside the frame are written, CLIPPED says whether one was dropped,
and nothing else changes but IP and OPS (42_frame_delta.md R116, R117, R118). -/
theorem writeOp_result {s : State} {d c : Nat} {vs : List Byte} (hwf : s.fb.wf = true) (hlen : vs.length = c)
    (hfits : s.cfg.oobPolicy = .stop → d + c ≤ s.fbSize) (len : Nat) :
    ∃ t, writeOp d c len vs s = .next t ∧
      (∀ j, j < c → d + j < s.fbSize → t.fb.read (d + j) = vs.getD j 0) ∧
      (∀ a, (a < d ∨ d + c ≤ a ∨ s.fbSize ≤ a) → t.fb.read a = s.fb.read a) ∧
      t = { s with
        fb := t.fb, ip := s.ip + len, ops := s.ops + 1
        status := { s.status with clipped := s.status.clipped || decide (0 < c ∧ s.fbSize < d + c) } } := by
  subst hlen
  have hin : ¬ s.outOfFrame d vs.length = true := fun hout => by
    obtain ⟨hstop, hpast⟩ := outOfFrame_iff.mp hout
    exact absurd hpast (Nat.not_lt.mpr (hfits hstop))
  have hread := fbWriteList_read (a := d) (vs := vs) hwf
  refine ⟨_, writeOp_of_inFrame hin len vs, fun j hj hframe => ?_, fun a ha => ?_, ?_⟩
  · rw [finishOp_fb, hread, if_pos ⟨by omega, by omega, hframe⟩, Nat.add_sub_cancel_left]
  · rw [finishOp_fb, hread, if_neg (by omega)]
  · rw [← fbWriteList_clipped, fbWriteList_frame]; rfl

/-- Settles O21: COPY is the write of its data bytes. -/
theorem copyResult : Obligations.CopyResult := by
  unfold Obligations.CopyResult
  intro s dst count data d c hwf hlen hfits
  have hresult := writeOp_result hwf hlen hfits (9 + c)
  rw [← Nat.add_assoc] at hresult
  exact hresult

/-- FILL_ORDER says which pattern byte the even offsets get (42_frame_delta.md R118). -/
theorem fillPattern_at (order : FillOrder) (p0 p1 : Byte) (j : Nat) :
    (if j % 2 = 0 then (fillPattern order p0 p1).1 else (fillPattern order p0 p1).2) =
      if (j % 2 = 0 ↔ order = .stream) then p0 else p1 := by
  cases order with
  | stream => exact if_congr (iff_true_right rfl).symm rfl rfl
  | swapped => rw [← ite_not]; exact if_congr (iff_false_right nofun).symm rfl rfl

/-- Settles O22: FILL is the write of its alternating bytes. -/
theorem fillResult : Obligations.FillResult := by
  unfold Obligations.FillResult
  intro s p0 p1 dst count d c hwf hfits
  obtain ⟨t, hexec, hbytes, hothers, hframe⟩ := writeOp_result hwf (fillBytes_length _ _ count.toNat) hfits 11
  refine ⟨t, hexec, fun j hj hin => ?_, hothers, hframe⟩
  rw [hbytes j hj hin, fillBytes_getD _ _ _ _ hj, fillPattern_at]

/-- Settles O23: both rows share the test of R122, and the decoder has made that of R121. -/
theorem copyFillStops : Obligations.CopyFillStops := by
  unfold Obligations.CopyFillStops
  intro s tail data p0 p1 dst count
  refine ⟨rfl, rfl, fun hstop hpast => ?_⟩
  have hout : s.outOfFrame (scaled dst) (scaled count) = true := outOfFrame_iff.mpr ⟨hstop, hpast⟩
  exact ⟨writeOp_of_outOfFrame hout _ _, writeOp_of_outOfFrame hout _ _⟩

/-! ### The tags that stop -/

/-- Settles O24: OP80 is a stop or a refused interpretation, by OP80_POLICY. -/
theorem tagStops : Obligations.TagStops := by
  unfold Obligations.TagStops
  intro s tag
  refine ⟨rfl, execOp80_of_stop, fun hpol => ?_⟩
  obtain ⟨hle, hend, _⟩ := refuseCommand_ends s
  exact ⟨refuseCommand s, execOp80_of_refuse hpol, hle, hend, rfl⟩

/-! ### The operations do not read the frame -/

/-- Frame writes leave the same state but for FB whatever frame they start from: whether a byte is dropped depends on its
offset alone (42_frame_delta.md R116). -/
theorem fbWriteList_with_fb (a : Nat) (vs : List Byte) (s : State) (fb : Memory) :
    fbWriteList a vs { s with fb := fb } =
      { fbWriteList a vs s with fb := (fbWriteList a vs { s with fb := fb }).fb } := by
  have hclipped : (fbWriteList a vs { s with fb := fb }).status.clipped = (fbWriteList a vs s).status.clipped :=
    (fbWriteList_clipped a vs { s with fb := fb }).trans (fbWriteList_clipped a vs s).symm
  rw [fbWriteList_frame a vs { s with fb := fb }, hclipped, fbWriteList_frame a vs s]

/-- What R124 says of a row that takes `s` to `t`, for the frame `fb` in place of `s`'s. -/
def FrameNotRead (run : State → Result) (s t : State) (fb : Memory) : Prop :=
  ∃ fb', run { s with fb := fb } = .next { t with fb := fb' } ∧ t.ds = s.ds ∧
    ∀ a, t.fb.read a = fb'.read a ∨ (t.fb.read a = s.fb.read a ∧ fb'.read a = fb.read a)

/-- A row that leaves FB and DS alone, in the same way from either frame. -/
theorem frameNotRead_of_same_frame {run : State → Result} {s t : State} {fb : Memory}
    (hrun : run { s with fb := fb } = .next { t with fb := fb }) (hds : t.ds = s.ds) (hfb : t.fb = s.fb) :
    FrameNotRead run s t fb :=
  ⟨fb, hrun, hds, fun _ => .inr ⟨by rw [hfb], rfl⟩⟩

theorem frameNotRead_writeOp {s t : State} {fb : Memory} {d c len : Nat} {vs : List Byte} (hs : s.fb.wf = true)
    (hfb : fb.wf = true) (he : writeOp d c len vs s = .next t) : FrameNotRead (writeOp d c len vs) s t fb := by
  by_cases hout : s.outOfFrame d c = true
  · rw [writeOp_of_outOfFrame hout] at he
    cases he
    exact frameNotRead_of_same_frame (writeOp_of_outOfFrame (s := { s with fb := fb }) hout len vs) rfl rfl
  · rw [writeOp_of_inFrame hout] at he
    cases he
    refine ⟨(fbWriteList d vs { s with fb := fb }).fb, ?_, ?_, fun a => ?_⟩
    · rw [writeOp_of_inFrame (s := { s with fb := fb }) hout, fbWriteList_with_fb]; rfl
    · rw [finishOp_ds, fbWriteList_frame]
    · have hsize : ({ s with fb := fb } : State).fbSize = s.fbSize := rfl
      rw [finishOp_fb, fbWriteList_read hs, fbWriteList_read (s := { s with fb := fb }) hfb, hsize]
      by_cases hwritten : d ≤ a ∧ a < d + vs.length ∧ a < s.fbSize
      · exact .inl ((if_pos hwritten).trans (if_pos hwritten).symm)
      · exact .inr ⟨if_neg hwritten, if_neg hwritten⟩

/-- Settles O25: COPY and FILL write the same bytes to any frame, and every other end of an operation leaves FB alone. -/
theorem deltaOperationsDoNotReadFrame : Obligations.DeltaOperationsDoNotReadFrame := by
  unfold Obligations.DeltaOperationsDoNotReadFrame
  rintro s t fb i (⟨form, rfl⟩ | ⟨form, rfl⟩ | rfl | ⟨tag, rfl⟩) hs hfb he
  · cases form with
    | full d n data => exact frameNotRead_writeOp hs hfb he
    | truncated tail => cases he; exact frameNotRead_of_same_frame (run := exec _) rfl rfl rfl
  · cases form with
    | full p0 p1 d n => exact frameNotRead_writeOp hs hfb he
    | truncated tail => cases he; exact frameNotRead_of_same_frame (run := exec _) rfl rfl rfl
  · rcases execOp80_next he with ⟨hpol, rfl⟩ | ⟨hpol, rfl⟩
    · exact frameNotRead_of_same_frame (execOp80_of_stop (s := { s with fb := fb }) hpol) rfl rfl
    · exact frameNotRead_of_same_frame (execOp80_of_refuse (s := { s with fb := fb }) hpol) rfl rfl
  · cases he
    exact frameNotRead_of_same_frame (run := exec _) rfl rfl rfl

/-! ### Which step runs them -/

theorem saturate_toNat (n : Nat) : (saturate n).toNat = min n 0xFFFFFFFF := by
  rw [saturate, BitVec.toNat_ofNat]; omega

theorem fetch_operation {s : State} (hp : s.phase = .interpret) (hip : s.ip < s.dsLen) (hcause : s.cause = .none) :
    fetch s = some (.delta, s.ds.drop s.ip) := by
  simp only [fetch, hp, fetchDelta, if_pos (And.intro hip hcause)]

theorem engineStep_endInterpret {s : State} (hp : s.phase = .interpret) (hend : s.dsLen ≤ s.ip ∨ s.cause ≠ .none) :
    engineStep s = .next (endInterpret s) := by
  rcases engineStep_interpret hp with ⟨_, he⟩ | ⟨⟨hip, hcause⟩, _⟩
  · exact he
  · exact absurd hend (not_or.mpr ⟨Nat.not_le.mpr hip, not_not.mpr hcause⟩)

/-- Settles O9: one step per row of the dispatch and of INTERPRET, by the stage and its loop test. -/
theorem frameStageSequence : Obligations.FrameStageSequence := by
  unfold Obligations.FrameStageSequence
  intro s hagenda
  rw [step_of_agenda_nil hagenda]
  refine ⟨fun hp hty => ?_, fun hp hty => ?_, fun hp => ?_, fun hp hip hcause i rest hd => ?_, fun hp hend => ?_⟩
  · exact (engineStep_frame hp).trans (if_pos hty)
  · exact (engineStep_frame hp).trans (if_neg hty)
  · exact engineStep_interpretInit hp
  · exact engineStep_of_fetch (fetch_operation hp hip hcause) hd
  · exact ⟨endInterpret s, engineStep_endInterpret hp hend, saturate_toNat s.ip, saturate_toNat s.ops, rfl, rfl⟩

end Sys2Proof.Machine
end

section
/-! SUPPORT. The colour converter (43_color.md): what one pixel write leaves, which row a pixel of the frame runs and what that row
writes by numbers, and the RGBA range over a whole command. A command writes its pixels in order and only in CONVERT, whose frame
no later step changes; so at each moment the pixels written are the conversion of the frame. -/

namespace Sys2Proof.Machine

/-! ### One pixel write -/

/-- The step from `s` to `t` wrote these four bytes for its pixel, went on to the next pixel and changed nothing else (43_color.md
R131, R136). -/
structure PixelWritten (bytes : List Byte) (s t : State) : Prop where
  inside  : ∀ k, k < 4 → t.mem.read (s.lDst.toNat + 4 * s.pix + k) = bytes.getD k 0
  outside : ∀ a, a < s.lDst.toNat + 4 * s.pix ∨ s.lDst.toNat + 4 * s.pix + 4 ≤ a → t.mem.read a = s.mem.read a
  frame   : t = { s with mem := t.mem, pix := s.pix + 1 }

theorem pixelWritten_of_writePixel {r g b a : Byte} {s t : State} (hwf : s.mem.wf = true)
    (h : writePixel r g b a s = .next t) : PixelWritten [r, g, b, a] s t := by
  obtain ⟨_, rfl⟩ := writePixel_next.mp h
  refine ⟨fun k hk => ?_, fun x hx => Memory.read_writeList_other s.mem _ hx, rfl⟩
  refine (Memory.read_writeList hwf _ _ _).trans ?_
  rw [if_pos ⟨Nat.le_add_right _ k, Nat.add_lt_add_left hk _⟩, Nat.add_sub_cancel_left]

theorem writePixel_written {s : State} (hwf : s.mem.wf = true)
    (hexists : s.lDst.toNat + 4 * s.pix + 4 ≤ s.cfg.hostMemSize) (r g b a : Byte) :
    ∃ t, writePixel r g b a s = .next t ∧ PixelWritten [r, g, b, a] s t :=
  have hnext := writePixel_of_le (r := r) (g := g) (b := b) (a := a) hexists
  ⟨_, hnext, pixelWritten_of_writePixel hwf hnext⟩

/-! ### The three rows -/

theorem exec_cvtKey (s : State) : exec .cvtKey s = writePixel 0 0 0 0 s := rfl

theorem exec_cvtPad (s : State) : exec .cvtPad s = writePixel 0 0 0 0 s := rfl

theorem ofNat_of_toNat_eq {x : Byte} {n : Nat} (h : x.toNat = n) : x = BitVec.ofNat 8 n := by
  rw [← h, BitVec.ofNat_toNat, BitVec.setWidth_eq]

/-- CVT.PIX by numbers: each 5-bit channel times 8, and alpha 255 (43_color.md R133). -/
theorem exec_cvtPix (u : BitVec 1) (r g b : BitVec 5) (s : State) :
    exec (.cvtPix u r g b) s =
      writePixel (BitVec.ofNat 8 (8 * r.toNat)) (BitVec.ofNat 8 (8 * g.toNat)) (BitVec.ofNat 8 (8 * b.toNat)) 255 s := by
  show writePixel (redOf _) (greenOf _) (blueOf _) 0xFF s = _
  rw [ofNat_of_toNat_eq (redOf_pixelOf u r g b), ofNat_of_toNat_eq (greenOf_pixelOf u r g b),
    ofNat_of_toNat_eq (blueOf_pixelOf u r g b)]

/-- A channel times 8 fits a byte (43_color.md R137). -/
theorem channel_byte_toNat (x : BitVec 5) : (BitVec.ofNat 8 (8 * x.toNat)).toNat = 8 * x.toNat := by
  have := x.isLt
  rw [BitVec.toNat_ofNat]
  omega

theorem channel_range {n : Nat} {x : BitVec 5} (h : n = 8 * x.toNat) : n % 8 = 0 ∧ n ≤ 248 := by
  have := x.isLt
  omega

theorem zeros_getD (k : Nat) : ([0, 0, 0, 0] : List Byte).getD k 0 = 0 := by
  match k with
  | 0 | 1 | 2 | 3 | _ + 4 => rfl

/-- Settles O26: each row is one pixel write. -/
theorem converterResult : Obligations.ConverterResult := by
  unfold Obligations.ConverterResult
  intro s u r g b base hwf hexists
  obtain ⟨t, hnext, hblack⟩ := writePixel_written hwf hexists 0 0 0 0
  obtain ⟨v, hpix, hcolour⟩ := writePixel_written hwf hexists (BitVec.ofNat 8 (8 * r.toNat))
    (BitVec.ofNat 8 (8 * g.toNat)) (BitVec.ofNat 8 (8 * b.toNat)) 255
  have hzero (k : Nat) (hk : k < 4) : t.mem.read (base + k) = 0 := (hblack.inside k hk).trans (zeros_getD k)
  refine ⟨⟨t, hnext, hzero, hblack.outside, hblack.frame⟩, ⟨t, hnext, hzero, hblack.outside, hblack.frame⟩,
    v, (exec_cvtPix u r g b s).trans hpix, ?_, ?_, ?_, ?_, hcolour.outside, hcolour.frame⟩
  · exact (congrArg BitVec.toNat (hcolour.inside 0 (by decide))).trans (channel_byte_toNat r)
  · exact (congrArg BitVec.toNat (hcolour.inside 1 (by decide))).trans (channel_byte_toNat g)
  · exact (congrArg BitVec.toNat (hcolour.inside 2 (by decide))).trans (channel_byte_toNat b)
  · exact congrArg BitVec.toNat (hcolour.inside 3 (by decide))

/-- A converter row is one pixel write: of zeros, or of three channels times 8 with alpha 255. -/
theorem exec_converter {i : Instr} (hi : i = .cvtKey ∨ i = .cvtPad ∨ ∃ u r g b, i = .cvtPix u r g b) (s : State) :
    exec i s = writePixel 0 0 0 0 s ∨
    ∃ r g b : BitVec 5, exec i s =
      writePixel (BitVec.ofNat 8 (8 * r.toNat)) (BitVec.ofNat 8 (8 * g.toNat)) (BitVec.ofNat 8 (8 * b.toNat)) 255 s := by
  rcases hi with rfl | rfl | ⟨u, r, g, b, rfl⟩
  · exact .inl (exec_cvtKey s)
  · exact .inl (exec_cvtPad s)
  · exact .inr ⟨r, g, b, exec_cvtPix u r g b s⟩

/-- Settles O28: the four bytes are zeros, or three channels with alpha 255. -/
theorem channelRange : Obligations.ChannelRange := by
  unfold Obligations.ChannelRange
  intro s t i hi hwf he v
  rcases exec_converter hi s with hrow | ⟨r, g, b, hrow⟩
  · have hblack := pixelWritten_of_writePixel hwf (hrow.symm.trans he)
    have hzero (k : Nat) (hk : k < 4) : v k = 0 := congrArg BitVec.toNat ((hblack.inside k hk).trans (zeros_getD k))
    exact ⟨fun k hk => by rw [hzero k (by omega)]; decide, .inl (hzero 3 (by decide)),
      fun _ => ⟨hzero 0 (by decide), hzero 1 (by decide), hzero 2 (by decide)⟩⟩
  · have hcolour := pixelWritten_of_writePixel hwf (hrow.symm.trans he)
    have hv (k : Nat) (hk : k < 4) := congrArg BitVec.toNat (hcolour.inside k hk)
    have halpha : v 3 = 255 := hv 3 (by decide)
    refine ⟨fun k hk => ?_, .inr halpha, fun h0 => absurd (halpha.symm.trans h0) (by decide)⟩
    match k with
    | 0 => exact channel_range ((hv 0 (by decide)).trans (channel_byte_toNat r))
    | 1 => exact channel_range ((hv 1 (by decide)).trans (channel_byte_toNat g))
    | 2 => exact channel_range ((hv 2 (by decide)).trans (channel_byte_toNat b))

/-! ### Which row a pixel of the frame runs -/

/-- The 16 bits of the pixel that CONVERT is at (43_color.md R131). -/
def State.rawPixel (s : State) : Half := le16 (s.frameByte (2 * s.pix)) (s.frameByte (2 * s.pix + 1))

theorem rawPixel_toNat (s : State) :
    s.rawPixel.toNat = (s.frameByte (2 * s.pix)).toNat + 256 * (s.frameByte (2 * s.pix + 1)).toNat := le16_toNat _ _

theorem eq_keyPixel_iff {raw : Half} : raw = keyPixel ↔ raw.toNat = 992 := BitVec.toNat_inj.symm

theorem redField_toNat (raw : Half) : (redField raw).toNat = raw.toNat / 1024 % 32 := by
  rw [redField, BitVec.extractLsb'_toNat, Nat.shiftRight_eq_div_pow]

theorem greenField_toNat (raw : Half) : (greenField raw).toNat = raw.toNat / 32 % 32 := by
  rw [greenField, BitVec.extractLsb'_toNat, Nat.shiftRight_eq_div_pow]

theorem blueField_toNat (raw : Half) : (blueField raw).toNat = raw.toNat % 32 := by
  rw [blueField, BitVec.extractLsb'_toNat, Nat.shiftRight_zero]

theorem engineStep_endConvert {s : State} (hp : s.phase = .convert) (hend : s.npix ≤ s.pix) :
    engineStep s = .next (endConvert s) := by
  rcases engineStep_convert hp with ⟨_, he⟩ | ⟨hin, _⟩
  · exact he
  · exact absurd hin (Nat.not_lt.mpr hend)

theorem fetch_pixel {s : State} (hp : s.phase = .convert) (hin : s.pix < s.npix) :
    fetch s = some (.pixel, s.pixelBytes) := by
  simp only [fetch, hp, fetchPixel, if_pos hin]

theorem engineStep_pad {s : State} (hp : s.phase = .convert) (hin : s.pix < s.npix) (hpad : s.fbLen ≤ 2 * s.pix + 1) :
    engineStep s = exec .cvtPad s := by
  have hbytes : s.pixelBytes = [] := if_neg (Nat.not_lt.mpr hpad)
  exact engineStep_of_fetch (hbytes ▸ fetch_pixel hp hin) rfl

theorem engineStep_whole_pixel {s : State} (hp : s.phase = .convert) (hin : s.pix < s.npix)
    (hwhole : 2 * s.pix + 1 < s.fbLen) : engineStep s = exec (decodePixel s.rawPixel) s := by
  have hbytes : s.pixelBytes = [s.frameByte (2 * s.pix), s.frameByte (2 * s.pix + 1)] := if_pos hwhole
  exact engineStep_of_fetch (hbytes ▸ fetch_pixel hp hin) rfl

theorem engineStep_key {s : State} (hp : s.phase = .convert) (hin : s.pix < s.npix)
    (hwhole : 2 * s.pix + 1 < s.fbLen) (hkey : s.rawPixel.toNat = 992) : engineStep s = exec .cvtKey s := by
  rw [engineStep_whole_pixel hp hin hwhole, decodePixel, if_pos (eq_keyPixel_iff.mpr hkey)]

theorem engineStep_ordinary {s : State} (hp : s.phase = .convert) (hin : s.pix < s.npix)
    (hwhole : 2 * s.pix + 1 < s.fbLen) (hkey : s.rawPixel.toNat ≠ 992) :
    engineStep s =
      exec (.cvtPix (unusedField s.rawPixel) (redField s.rawPixel) (greenField s.rawPixel) (blueField s.rawPixel)) s := by
  rw [engineStep_whole_pixel hp hin hwhole, decodePixel, if_neg (mt eq_keyPixel_iff.mp hkey)]

/-- A step at a pixel writes the conversion, by numbers, of that pixel of the frame (43_color.md R131..R134). -/
theorem engineStep_writes_rgba {s : State} (hp : s.phase = .convert) (hin : s.pix < s.npix) :
    ∃ r g b a, rgbaOf s.frameByte s.fbLen s.pix = [r, g, b, a] ∧ engineStep s = writePixel r g b a s := by
  by_cases hpad : s.fbLen ≤ 2 * s.pix + 1
  · exact ⟨0, 0, 0, 0, if_pos hpad, engineStep_pad hp hin hpad⟩
  · have hwhole := Nat.not_le.mp hpad
    by_cases hkey : s.rawPixel.toNat = 992
    · refine ⟨0, 0, 0, 0, ?_, engineStep_key hp hin hwhole hkey⟩
      rw [rawPixel_toNat] at hkey
      exact (if_neg hpad).trans (if_pos hkey)
    · refine ⟨_, _, _, _, ?_, (engineStep_ordinary hp hin hwhole hkey).trans (exec_cvtPix _ _ _ _ s)⟩
      rw [redField_toNat, greenField_toNat, blueField_toNat]
      rw [rawPixel_toNat] at hkey ⊢
      exact (if_neg hpad).trans (if_neg hkey)

/-- Settles O27: the fetch is empty for a pixel that is not whole and else its two bytes, which the decoder compares with the
key. -/
theorem pixelLoopConvertsNextPixel : Obligations.PixelLoopConvertsNextPixel := by
  unfold Obligations.PixelLoopConvertsNextPixel
  intro s hagenda hp raw base
  have hraw : s.rawPixel.toNat = raw := rawPixel_toNat s
  rw [step_of_agenda_nil hagenda]
  refine ⟨frameByte_of_none, engineStep_endConvert hp, engineStep_pad hp, fun hin hwhole hkey => ?_,
    fun hin hwhole hkey => ?_, fun hin hwf hexists => ?_⟩
  · exact engineStep_key hp hin hwhole (hraw.trans hkey)
  · rw [← hraw]
    exact ⟨_, _, _, _, redField_toNat _, greenField_toNat _, blueField_toNat _,
      engineStep_ordinary hp hin hwhole (hraw ▸ hkey)⟩
  · obtain ⟨r, g, b, a, hrgba, he⟩ := engineStep_writes_rgba hp hin
    obtain ⟨t, hnext, hwritten⟩ := writePixel_written hwf hexists r g b a
    rw [hrgba]
    exact ⟨t, he.trans hnext, congrArg State.pix hwritten.frame, hwritten.inside⟩

/-! ### How much of the RGBA range is written -/

/-- How many pixels the running command has written (43_color.md R131): none before CONVERT and all after it. -/
def State.pixelsWritten (s : State) : Nat :=
  match s.phase with
  | .convert => s.pix
  | .complete => s.npix
  | .idle => s.npix
  | _ => 0

theorem pixelsWritten_refSelect {s : State} (hp : s.phase = .refSelect) : s.pixelsWritten = 0 := by
  simp only [State.pixelsWritten, hp]

theorem pixelsWritten_lzss {s : State} (hp : s.phase = .lzss) : s.pixelsWritten = 0 := by
  simp only [State.pixelsWritten, hp]

theorem pixelsWritten_interpret {s : State} (hp : s.phase = .interpret) : s.pixelsWritten = 0 := by
  simp only [State.pixelsWritten, hp]

theorem pixelsWritten_convert {s : State} (hp : s.phase = .convert) : s.pixelsWritten = s.pix := by
  simp only [State.pixelsWritten, hp]

theorem pixelsWritten_complete {s : State} (hp : s.phase = .complete) : s.pixelsWritten = s.npix := by
  simp only [State.pixelsWritten, hp]

theorem pixelsWritten_idle {s : State} (hp : s.phase = .idle) : s.pixelsWritten = s.npix := by
  simp only [State.pixelsWritten, hp]

/-- Every pixel below n of the RGBA range is the conversion, by numbers, of that pixel of the frame. -/
def State.holdsRgba (s : State) (n : Nat) : Prop :=
  ∀ i k, i < n → k < 4 → s.mem.read (s.lDst.toNat + 4 * i + k) = (rgbaOf s.frameByte s.fbLen i).getD k 0

theorem holdsRgba_zero (s : State) : s.holdsRgba 0 := fun _ _ hi => absurd hi (Nat.not_lt_zero _)

/-- The pixel written is the conversion of its frame pixel, and the pixels before it stand. -/
theorem holdsRgba_pixel {s t : State} (ht : PixelWritten (rgbaOf s.frameByte s.fbLen s.pix) s t)
    (h : s.holdsRgba s.pix) : t.holdsRgba t.pix := by
  have hbytes (i k : Nat) (hi : i < s.pix + 1) (hk : k < 4) :
      t.mem.read (s.lDst.toNat + 4 * i + k) = (rgbaOf s.frameByte s.fbLen i).getD k 0 := by
    rcases Nat.lt_succ_iff_lt_or_eq.mp hi with hbefore | rfl
    · exact (ht.outside _ (.inl (by omega))).trans (h i k hbefore hk)
    · exact ht.inside k hk
  rw [ht.frame]
  exact hbytes

/-- Before CONVERT no step writes a pixel, and CONVERT begins at pixel 0. -/
theorem pixelsWritten_before_convert {s t : State} (hconvert : s.phase ≠ .convert) (hcomplete : s.phase ≠ .complete)
    (hidle : s.phase ≠ .idle) (he : engineStep s = .next t) : t.pixelsWritten = 0 := by
  cases hp : s.phase with
  | idle => exact absurd hp hidle
  | convert => exact absurd hp hconvert
  | complete => exact absurd hp hcomplete
  | refSelect => rw [engineStep_refSelect hp] at he; cases he; unfold refSelect; split <;> rfl
  | dupTest => rw [engineStep_dupTest hp] at he; cases he; unfold dupTest; split <;> rfl
  | lzss =>
    rcases engineStep_lzss_next hp he with ⟨_, rfl⟩ | ⟨_, _, hdescr⟩ | ⟨_, _, htoken⟩
    · rfl
    · obtain ⟨_, rfl⟩ := execDescr_next.mp hdescr; exact pixelsWritten_lzss hp
    · rw [htoken.frame]; exact pixelsWritten_lzss hp
  | lengthCheck => rw [engineStep_lengthCheck hp] at he; cases he; rfl
  | frame =>
    rw [engineStep_frame hp] at he
    split at he <;> cases he <;> rfl
  | interpretInit => rw [engineStep_interpretInit hp] at he; cases he; rfl
  | interpret =>
    rcases engineStep_interpret_next hp he with rfl | ⟨_, _, hop⟩
    · rfl
    · rw [hop.frame]; exact pixelsWritten_interpret hp

/-! ### The run -/

/-- Every step of the engine leaves the pixels written so far as the conversion of the frame. -/
theorem engineStep_keeps_rgba {s t : State} (hwf : s.mem.wf = true) (h : s.holdsRgba s.pixelsWritten)
    (he : engineStep s = .next t) : t.holdsRgba t.pixelsWritten := by
  by_cases hconvert : s.phase = .convert
  · rw [pixelsWritten_convert hconvert] at h
    by_cases hin : s.pix < s.npix
    · obtain ⟨r, g, b, a, hrgba, hrow⟩ := engineStep_writes_rgba hconvert hin
      have ht := pixelWritten_of_writePixel hwf (hrow.symm.trans he)
      have hphase : t.phase = .convert := (congrArg State.phase ht.frame).trans hconvert
      rw [pixelsWritten_convert hphase]
      exact holdsRgba_pixel (hrgba ▸ ht) h
    · rw [engineStep_endConvert hconvert (Nat.not_lt.mp hin)] at he
      cases he
      exact fun i k hi hk => h i k (Nat.lt_of_lt_of_le hi (Nat.not_lt.mp hin)) hk
  by_cases hcomplete : s.phase = .complete
  · rw [pixelsWritten_complete hcomplete] at h
    rw [engineStep_complete hcomplete] at he
    cases he
    exact h
  by_cases hidle : s.phase = .idle
  · rw [engineStep_idle hidle] at he
    cases he
    exact h
  · rw [pixelsWritten_before_convert hconvert hcomplete hidle he]
    exact holdsRgba_zero t

/-- What every step of the engine keeps, a run keeps. -/
theorem run_keeps {P : State → Prop} (hstep : ∀ s t, P s → engineStep s = .next t → P t) {k : Nat} {s t : State}
    (hagenda : s.agenda = []) (hrun : Host.Core.run Sys2Proof.core k s = .next t) (hs : P s) : P t := by
  induction k generalizing s with
  | zero => cases hrun; exact hs
  | succ k ih =>
    rw [run_engine hagenda] at hrun
    cases he : engineStep s with
    | next u => rw [he] at hrun; exact ih ((engineStep_agenda he).trans hagenda) hrun (hstep s u hs he)
    | fault f => rw [he] at hrun; cases hrun
    | refused r => rw [he] at hrun; cases hrun

theorem sameHostSide_rgbaRange {s t : State} (h : sameHostSide s t) :
    t.cfg = s.cfg ∧ t.lDst = s.lDst ∧ t.npix = s.npix := by
  unfold sameHostSide at h
  rw [h]
  exact ⟨rfl, rfl, rfl⟩

/-- Settles O57: at the START no pixel is written, at the end all are, and in between those written are the conversion of the
frame. -/
theorem rgbaHoldsConvertedFrame : Obligations.RgbaHoldsConvertedFrame := by
  unfold Obligations.RgbaHoldsConvertedFrame
  rintro s t h ⟨hphase, hagenda, k, hrun, hidle⟩
  have hstart : s.holdsRgba s.pixelsWritten := by
    rw [pixelsWritten_refSelect hphase]
    exact holdsRgba_zero s
  obtain ⟨hinv, hrgba⟩ : Inv t ∧ t.holdsRgba t.pixelsWritten :=
    run_keeps (P := fun u => Inv u ∧ u.holdsRgba u.pixelsWritten)
      (fun u v ⟨hu, hpix⟩ he => ⟨engineStep_keeps_inv hu he, engineStep_keeps_rgba hu.memoriesOk.memWf hpix he⟩)
      hagenda hrun ⟨h, hstart⟩
  obtain ⟨hcfg, hdst, hnpix⟩ := sameHostSide_rgbaRange
    (run_keeps (P := sameHostSide s) (fun u v hu he => sameHostSide_trans hu (engineStep_keeps_host_side he))
      hagenda hrun (sameHostSide_refl s))
  rw [pixelsWritten_idle hidle, hnpix] at hrgba
  refine ⟨fun hpol => hinv.frameOk.meaning (hcfg ▸ hpol), frameByte_of_none, ?_⟩
  rw [← hdst]
  exact hrgba

end Sys2Proof.Machine
end

section
/-! SUPPORT. The host commands that are not rejected (44_command.md R141, R142, R149, R150): an accepted START, a command while
BUSY = 1, NEW_SEQ on an idle block, and a STATUS write. -/

namespace Sys2Proof.Machine

/-! ### START on an idle block -/

theorem issueStart_accepted {s : State} (hcheck : (latch s).checkRanges = .none)
    (hclear : (latch s).coversRegisters = false) : issueStart s = .next (acceptStart (latch s)) := by
  simp only [issueStart, hcheck, hclear]
  rfl

/-- An empty range, one that ends at the register block and one that begins after it do not meet it (20_memory.md R51). -/
theorem meetsRegisterBlock_eq_false {s : State} {lo hi : Nat}
    (h : ∀ base, s.cfg.regBase = some base → hi = lo ∨ hi ≤ base ∨ base + 0x100 ≤ lo) :
    s.meetsRegisterBlock lo hi = false := by
  cases hbase : s.cfg.regBase with
  | none => rw [State.meetsRegisterBlock, hbase]
  | some base =>
    have hapart := h base hbase
    rw [← Bool.not_eq_true, meetsRegisterBlock_iff hbase]
    omega

/-- Settles O29: CHECK_RANGES passes on the values to be latched, and neither range meets the register block. -/
theorem startAccepted : Obligations.StartAccepted := by
  unfold Obligations.StartAccepted
  intro s newSeq irqEn src srcEnd dst npix dstEnd hbusy hsrc hdst hapart hframe hclear
  rw [exec_start_idle hbusy]
  refine issueStart_accepted ?_ ?_
  · refine checkRanges_none.mpr ⟨hsrc, hdst, ?_, ?_⟩
    · show ¬ (0 < s.storageSize.toNat ∧ 0 < npix ∧ src < dstEnd ∧ dst < srcEnd)
      omega
    · show npix * 2 ≤ s.cfg.fbCap
      omega
  · have hpayload := meetsRegisterBlock_eq_false (s := latch _) fun base hbase => (hclear base hbase).1
    have hrgba := meetsRegisterBlock_eq_false (s := latch _) fun base hbase => (hclear base hbase).2
    exact Bool.or_eq_false_iff.mpr ⟨hpayload, hrgba⟩

/-! ### Commands while BUSY = 1, and NEW_SEQ -/

theorem execNewSeq_of_busy {s : State} (hbusy : s.status.busy = true) (irqEn : Bool) :
    execNewSeq irqEn s = .next (ignoreCommand { s with irqEn := irqEn }) :=
  if_pos hbusy

theorem execNewSeq_of_idle {s : State} (hbusy : s.status.busy = false) (irqEn : Bool) :
    execNewSeq irqEn s = .next { s with irqEn := irqEn, prevValid := false } :=
  if_neg (by rw [hbusy]; nofun)

/-- Settles O31: both commands are ignored alike. -/
theorem busyCommandsIgnored : Obligations.BusyCommandsIgnored := by
  unfold Obligations.BusyCommandsIgnored
  exact fun s newSeq irqEn hbusy => ⟨execStart_of_busy hbusy newSeq irqEn, execNewSeq_of_busy hbusy irqEn⟩

/-- Settles O32: the idle case of NEW_SEQ. -/
theorem newSeqResult : Obligations.NewSeqResult := by
  unfold Obligations.NewSeqResult
  exact fun s irqEn hbusy => execNewSeq_of_idle hbusy irqEn

/-! ### STATUS writes -/

/-- A bit that is written 1 clears its flag, by numbers. -/
theorem not_mod_two_beq_one (n : Nat) : (!(n % 2 == 1)) = (n % 2 == 0) := by
  rcases Nat.mod_two_eq_zero_or_one n with h | h <;> rw [h] <;> rfl

theorem writeReg_status (v : Word) (s : State) :
    writeReg 0x04 v s = exec (.clearStatus (v.getLsbD 1) (v.getLsbD 2)) s := by
  have hdecode : decode .statusWrite (leBytes v) = .ok (decodeStatus v, []) := by
    simp only [leBytes, decode, le32_byteOf]
  rw [writeReg, if_neg (by decide), if_pos rfl, runBytes, hdecode, decodeStatus]

/-- Settles O33: the port decodes bits 1 and 2 of the value, and each clears its own flag. -/
theorem clearStatusResult : Obligations.ClearStatusResult := by
  unfold Obligations.ClearStatusResult
  intro s v moves t
  have hexec (u : State) : exec (.clearStatus (v.toNat / 2 % 2 == 1) (v.toNat / 4 % 2 == 1)) u = .next { u with
      status := { u.status with
        done := u.status.done && v.toNat / 2 % 2 == 0, ignored := u.status.ignored && v.toNat / 4 % 2 == 0 } } := by
    rw [exec, execClearStatus, clearFlags, not_mod_two_beq_one, not_mod_two_beq_one]
  have hdone : v.getLsbD 1 = (v.toNat / 2 % 2 == 1) := getLsbD_eq_div v 1
  have hignored : v.getLsbD 2 = (v.toNat / 4 % 2 == 1) := getLsbD_eq_div v 2
  refine ⟨hexec s, fun hmove => ?_, fun hclear => ?_⟩
  · rw [step_regWrite hmove (by decide) (by decide), writeReg_status, hdone, hignored, hexec]
  · have hfalls : t.status.done = false := by simp [t, hclear]
    rw [State.irq, hfalls, Bool.false_and]

end Sys2Proof.Machine
end

section
/-! SUPPORT. The stages that are no row of the opcode table, one step each (44_command.md R145..R148), and the whole run of a
duplicate chunk. -/

namespace Sys2Proof.Machine

/-! ### REF_SELECT -/

theorem needsBlank_iff {s : State} : s.needsBlank = true ↔ s.prevValid = false ∨ s.prevFbSize ≠ s.fbSize := by
  rw [State.needsBlank, Bool.or_eq_true, Bool.not_eq_true', decide_eq_true_iff]

theorem refSelect_of_blank {s : State} (h : s.prevValid = false ∨ s.prevFbSize ≠ s.fbSize) :
    refSelect s =
      { s with
        fb := s.fb.zeroRange 0 s.fbSize, fbLen := s.fbSize, freeFrame := none
        status := { s.status with blankRef := true }, phase := .dupTest } :=
  if_pos (needsBlank_iff.mpr h)

theorem refSelect_of_prev {s : State} (hvalid : s.prevValid = true) (hsize : s.prevFbSize = s.fbSize) :
    refSelect s = { keepReference s with status := { s.status with blankRef := false }, phase := .dupTest } :=
  if_neg fun hblank => by
    rcases needsBlank_iff.mp hblank with hprev | hprev
    · exact absurd (hvalid.symm.trans hprev) nofun
    · exact hprev hsize

/-- Settles O35: the blank canvas, and the two forms of `keepReference`. -/
theorem refSelectResult : Obligations.RefSelectResult := by
  unfold Obligations.RefSelectResult
  intro s hagenda hp hwf
  rw [step_of_agenda_nil hagenda, engineStep_refSelect hp]
  refine ⟨fun hblank => ?_, fun hvalid hsize hfree => ?_, fun hvalid hsize hfree => ?_⟩
  · rw [refSelect_of_blank hblank]
    have hread (a : Nat) : (s.fb.zeroRange 0 s.fbSize).read a = if 0 ≤ a ∧ a < s.fbSize then 0 else s.fb.read a :=
      Memory.read_zeroRange hwf 0 s.fbSize a
    exact ⟨_, rfl, fun a ha => (hread a).trans (if_pos ⟨Nat.zero_le a, ha⟩),
      fun a ha => (hread a).trans (if_neg (by omega)), rfl⟩
  · rw [refSelect_of_prev hvalid hsize, keepReference_of_none hfree]
  · rw [refSelect_of_prev hvalid hsize, keepReference_of_some hfree]

/-! ### The duplicate test, LENGTH_CHECK and COMPLETE -/

theorem isDuplicate_iff {s : State} : s.isDuplicate = true ↔ s.lStorage = 0 ∧ s.lOriginal = 0 := by
  rw [State.isDuplicate, Bool.and_eq_true, decide_eq_true_iff, decide_eq_true_iff]

theorem dupTest_of_duplicate {s : State} (h : s.isDuplicate = true) : dupTest s = duplicate s := if_pos h

/-- Settles O36: the test holds, and `duplicate` is the record update that the rule states. -/
theorem duplicateResult : Obligations.DuplicateResult := by
  unfold Obligations.DuplicateResult
  intro s hagenda hp hstorage horiginal
  rw [step_of_agenda_nil hagenda, engineStep_dupTest hp, dupTest_of_duplicate (isDuplicate_iff.mpr ⟨hstorage, horiginal⟩)]
  rfl

/-- Settles O37: the flag is the decision of the comparison. -/
theorem lengthCheckResult : Obligations.LengthCheckResult := by
  unfold Obligations.LengthCheckResult
  intro s hagenda hp
  rw [step_of_agenda_nil hagenda, engineStep_lengthCheck hp]
  exact ⟨lengthCheck s, rfl, decide_eq_true_iff, rfl⟩

/-- The two registers of FB_LEN hold its 34 bits (10_state.md R30). -/
theorem lowWord_add_highBits {n : Nat} (h : n < 0x400000000) :
    (lowWord n).toNat + 0x100000000 * (highBits n).toNat = n := by
  rw [lowWord, highBits, BitVec.toNat_ofNat, BitVec.toNat_ofNat]
  omega

/-- Settles O38: each count is saturated, and FB_LEN is split at bit 32. -/
theorem completeResult : Obligations.CompleteResult := by
  unfold Obligations.CompleteResult
  intro s hagenda hp hlen
  rw [step_of_agenda_nil hagenda, engineStep_complete hp]
  exact ⟨complete s, rfl, saturate_toNat s.produced, saturate_toNat s.dsLen, saturate_toNat s.ip, rfl,
    saturate_toNat s.ops, lowWord_add_highBits hlen, rfl⟩

/-! ### The run of a duplicate chunk -/

/-- A duplicate command is past REF_SELECT, in one of the four stages it passes, and the frame is the reference that `s` gives it
(44_command.md R143, R146). -/
structure RepeatsFrame (s u : State) : Prop where
  stage     : u.phase = .dupTest ∨ u.phase = .convert ∨ u.phase = .complete ∨ u.phase = .idle
  duplicate : u.isDuplicate = true
  fb        : u.fb = s.fb
  fbLen     : u.fbLen = s.fbLen
  freeFrame : u.freeFrame = (keepReference s).freeFrame

theorem repeatsFrame_refSelect {s : State} (hdup : s.isDuplicate = true) (hvalid : s.prevValid = true)
    (hsize : s.prevFbSize = s.fbSize) : RepeatsFrame s (refSelect s) := by
  rw [refSelect_of_prev hvalid hsize]
  exact ⟨.inl rfl, hdup, rfl, rfl, rfl⟩

/-- Past REF_SELECT a duplicate neither reads the payload nor changes the frame. -/
theorem engineStep_keeps_repeatsFrame {s u v : State} (h : RepeatsFrame s u) (he : engineStep u = .next v) :
    RepeatsFrame s v := by
  obtain ⟨hstage, hdup, hfb, hlen, hfree⟩ := h
  rcases hstage with hp | hp | hp | hp
  · rw [engineStep_dupTest hp, dupTest_of_duplicate hdup] at he
    cases he
    exact ⟨.inr (.inl rfl), hdup, hfb, hlen, hfree⟩
  · rcases engineStep_convert_next hp he with ⟨_, rfl⟩ | ⟨_, r, g, b, a, hpixel⟩
    · exact ⟨.inr (.inr (.inl rfl)), hdup, hfb, hlen, hfree⟩
    · obtain ⟨_, rfl⟩ := writePixel_next.mp hpixel
      exact ⟨.inr (.inl hp), hdup, hfb, hlen, hfree⟩
  · rw [engineStep_complete hp] at he
    cases he
    exact ⟨.inr (.inr (.inr rfl)), hdup, hfb, hlen, hfree⟩
  · rw [engineStep_idle hp] at he
    cases he
    exact ⟨.inr (.inr (.inr hp)), hdup, hfb, hlen, hfree⟩

/-- A duplicate with a valid previous frame of its size ends with that frame, or with what its lack of meaning becomes. -/
theorem commandRun_repeatsFrame {s t : State} (hrun : CommandRun s t) (hdup : s.isDuplicate = true)
    (hvalid : s.prevValid = true) (hsize : s.prevFbSize = s.fbSize) : RepeatsFrame s t := by
  obtain ⟨hphase, hagenda, k, hrun, hidle⟩ := hrun
  have hkept : t = s ∨ RepeatsFrame s t := by
    refine run_keeps (P := fun u => u = s ∨ RepeatsFrame s u) (fun u v hu he => .inr ?_) hagenda hrun (.inl rfl)
    rcases hu with rfl | hu
    · rw [engineStep_refSelect hphase] at he
      cases he
      exact repeatsFrame_refSelect hdup hvalid hsize
    · exact engineStep_keeps_repeatsFrame hu he
  rcases hkept with rfl | hkept
  · exact absurd (hphase.symm.trans hidle) nofun
  · exact hkept

/-- Settles O59: the run ends with the previous frame, and the RGBA range is the conversion of the frame it ends with (O57). -/
theorem duplicateRepeatsPreviousFrame : Obligations.DuplicateRepeatsPreviousFrame := by
  unfold Obligations.DuplicateRepeatsPreviousFrame
  intro s t hinv hrun hstorage horiginal hvalid hsize
  have hframe := commandRun_repeatsFrame hrun (isDuplicate_iff.mpr ⟨hstorage, horiginal⟩) hvalid hsize
  refine ⟨hframe.fb, hframe.fbLen, fun hmarked => ?_, fun hunmarked => ?_⟩
  · rw [hframe.freeFrame, keepReference_of_some hmarked]
  · have hmeaning : t.freeFrame = none := by rw [hframe.freeFrame, keepReference_of_none hunmarked, hunmarked]
    obtain ⟨_, _, hrgba⟩ := rgbaHoldsConvertedFrame s t hinv hrun
    have hbytes : t.frameByte = s.fb.read := funext fun a => (frameByte_of_none hmeaning a).trans (by rw [hframe.fb])
    rw [hbytes, hframe.fbLen] at hrgba
    exact ⟨hmeaning, hrgba⟩

end Sys2Proof.Machine
end

section
/-! SUPPORT. What the host does while a command runs (44_command.md R151, R152): its register reads keep the defined bits, and its
register writes do not reach the engine. -/

namespace Sys2Proof.Machine

/-! ### Register reads while BUSY = 1 -/

/-- A register read changes the read data, and at most draws a free value (20_memory.md R57, log 9). -/
theorem readReg_frame (offset : Nat) (s : State) :
    readReg offset s =
      { s with rdata := (readReg offset s).rdata, freeCount := (readReg offset s).freeCount } := by
  unfold readReg
  split <;> rfl

theorem readReg_rdata_of_busyMask {offset : Nat} (hmask : busyMask offset = 0) (s : State) :
    (readReg offset s).rdata = s.regWord offset :=
  congrArg State.rdata (readReg_of_busyMask hmask s)

/-- The bits of `w` outside the mask, and those of a free value inside it. -/
def freeBits (mask w free : Word) : Word := (w &&& ~~~mask) ||| (free &&& mask)

theorem freeBits_getLsbD {mask : Word} {k : Nat} (hk : k < 32) (hmask : mask.getLsbD k = false) (w free : Word) :
    (freeBits mask w free).getLsbD k = w.getLsbD k := by
  simp only [freeBits, BitVec.getLsbD_or, BitVec.getLsbD_and, BitVec.getLsbD_not, hmask, hk]
  simp

theorem freeBits_lt {mask w : Word} {n : Nat} (hmask : mask.toNat < 2 ^ n) (hw : w.toNat < 2 ^ n) (free : Word) :
    (freeBits mask w free).toNat < 2 ^ n := by
  rw [freeBits, BitVec.toNat_or, BitVec.toNat_and, BitVec.toNat_and]
  exact Nat.or_lt_two_pow (lt_of_le_of_lt Nat.and_le_left hw) (lt_of_le_of_lt Nat.and_le_right hmask)

/-- While BUSY = 1 STATUS reads with bits 16:3 free (10_state.md R22). -/
theorem readReg_status_of_busy {s : State} (hbusy : s.status.busy = true) :
    (readReg 0x04 s).rdata =
      freeBits statusResultMask (statusWord s.status) (Config.busyRegValue s.freeCount) :=
  congrArg State.rdata (if_pos (by rw [hbusy]; rfl))

/-- Settles O43: only STATUS has both free bits and defined ones, and its free bits are 16:3. -/
theorem busyReadsKeepDefinedBits : Obligations.BusyReadsKeepDefinedBits := by
  unfold Obligations.BusyReadsKeepDefinedBits
  intro s offset moves hmove halign hend hbusy
  have hwhole {k : Nat} (hmask : busyMask k = 0) : (readReg k { s with agenda := moves }).rdata = s.regWord k :=
    readReg_rdata_of_busyMask hmask _
  have hwide {k : Nat} (x : BitVec k) (hk : k ≤ 32) : (x.setWidth 32).toNat = x.toNat := BitVec.toNat_setWidth_of_le hk
  refine ⟨_, step_regRead hmove halign hend, readReg_frame offset { s with agenda := moves }, ?ctrl, ?status, ?width,
    ?height, ?_, ?_, ?_, ?chunkType, ?_, ?reserved⟩
  case ctrl =>
    rintro rfl
    rw [hwhole rfl]
    exact (congrArg BitVec.toNat (ctrlWord_eq s.irqEn)).trans (by cases s.irqEn <;> rfl)
  case status =>
    rintro rfl
    obtain ⟨hbit0, hbit1, hbit2, _, _, _, _, _, _, _, _, hreserved⟩ := statusWord_fields s.status
    rw [readReg_status_of_busy (s := { s with agenda := moves }) hbusy]
    exact ⟨(freeBits_getLsbD (by decide) (by decide) _ _).trans (hbit0.trans hbusy),
      (freeBits_getLsbD (by decide) (by decide) _ _).trans hbit1,
      (freeBits_getLsbD (by decide) (by decide) _ _).trans hbit2,
      freeBits_lt (n := 17) (by decide) hreserved _⟩
  case width => rintro rfl; rw [hwhole rfl]; exact hwide s.width (by decide)
  case height => rintro rfl; rw [hwhole rfl]; exact hwide s.height (by decide)
  case chunkType => rintro rfl; rw [hwhole rfl]; exact hwide s.chunkType (by decide)
  case reserved => exact fun hge => (hwhole (busyMask_of_ge hge)).trans (regWord_of_ge hge s)
  all_goals rintro rfl; exact hwhole rfl

/-! ### The state with other host registers -/

/-- The registers the host writes that issue no command: CTRL.IRQ_EN and the configuration registers (10_state.md R21,
R23..R26). -/
structure HostRegs where
  irqEn        : Bool
  width        : Half
  height       : Half
  srcAddr      : Word
  storageSize  : Word
  originalSize : Word
  chunkType    : Byte
  dstAddr      : Word

def State.hostRegs (s : State) : HostRegs :=
  ⟨s.irqEn, s.width, s.height, s.srcAddr, s.storageSize, s.originalSize, s.chunkType, s.dstAddr⟩

/-- The state with other contents of the host's registers. -/
def State.withHostRegs (r : HostRegs) (s : State) : State :=
  { s with
    irqEn := r.irqEn, width := r.width, height := r.height, srcAddr := r.srcAddr, storageSize := r.storageSize
    originalSize := r.originalSize, chunkType := r.chunkType, dstAddr := r.dstAddr }

@[simp] theorem withHostRegs_phase (r : HostRegs) (s : State) : (s.withHostRegs r).phase = s.phase := rfl

/-- A register store is the same change of the host's registers wherever these are the same. -/
theorem storeReg_eq_withHostRegs {s t : State} (h : t.hostRegs = s.hostRegs) (offset : Nat) (v : Word) :
    storeReg offset v t = t.withHostRegs (storeReg offset v s).hostRegs := by
  have hsame : t = t.withHostRegs s.hostRegs := h ▸ rfl
  rw [hsame]
  unfold storeReg
  split <;> rfl

theorem irqEn_eq_withHostRegs {s t : State} (h : t.hostRegs = s.hostRegs) (irqEn : Bool) :
    { t with irqEn := irqEn } = t.withHostRegs { s.hostRegs with irqEn := irqEn } := by
  rw [← h]; rfl

theorem sameHostSide_hostRegs {s t : State} (h : sameHostSide s t) : t.hostRegs = s.hostRegs := by
  unfold sameHostSide at h
  rw [h]; rfl

/-! ### The engine does not look at them -/

theorem fetch_withHostRegs (r : HostRegs) (s : State) : fetch (s.withHostRegs r) = fetch s := rfl

theorem copyRun_withHostRegs (r : HostRegs) (n : Nat) (s : State) :
    copyRun n (s.withHostRegs r) = (copyRun n s).withHostRegs r := by
  induction n generalizing s with
  | zero => rfl
  | succ n ih => exact ih (copyOne s)

theorem fbWrite_withHostRegs (r : HostRegs) (a : Nat) (v : Byte) (s : State) :
    fbWrite a v (s.withHostRegs r) = (fbWrite a v s).withHostRegs r := by
  rw [fbWrite, fbWrite, apply_ite (State.withHostRegs r)]; rfl

theorem fbWriteList_withHostRegs (r : HostRegs) (a : Nat) (vs : List Byte) (s : State) :
    fbWriteList a vs (s.withHostRegs r) = (fbWriteList a vs s).withHostRegs r := by
  induction vs generalizing a s with
  | nil => rfl
  | cons v vs ih => rw [fbWriteList, fbWriteList, fbWrite_withHostRegs, ih]

theorem writeOp_withHostRegs (r : HostRegs) {s t : State} {d c len : Nat} {vs : List Byte}
    (he : writeOp d c len vs s = .next t) : writeOp d c len vs (s.withHostRegs r) = .next (t.withHostRegs r) := by
  by_cases hout : s.outOfFrame d c = true
  · rw [writeOp_of_outOfFrame hout] at he
    cases he
    exact writeOp_of_outOfFrame (s := s.withHostRegs r) hout len vs
  · rw [writeOp_of_inFrame hout] at he
    cases he
    rw [writeOp_of_inFrame (s := s.withHostRegs r) hout, fbWriteList_withHostRegs]
    rfl

/-- No row that the engine runs looks at the host's registers. -/
theorem exec_withHostRegs (r : HostRegs) {i : Instr} {p : Phase} {s t : State} (hi : stageOf (sourceOf i) = some p)
    (he : exec i s = .next t) : exec i (s.withHostRegs r) = .next (t.withHostRegs r) := by
  cases i with
  | descr x =>
    obtain ⟨hle, rfl⟩ := execDescr_next.mp he
    exact execDescr_next.mpr ⟨hle, rfl⟩
  | lzFlags | lzLit | lzRefPartial | unknown | rawFrame | deltaInit => cases he; rfl
  | lzRef off lenCode =>
    cases he
    have hrun := copyRun_withHostRegs r (refLen lenCode) (copyStart off s)
    exact congrArg (fun u => Host.Outcome.next (nextToken u)) hrun
  | copy form =>
    cases form with
    | full d n data => exact writeOp_withHostRegs r he
    | truncated tail => cases he; rfl
  | fill form =>
    cases form with
    | full p0 p1 d n => exact writeOp_withHostRegs r he
    | truncated tail => cases he; rfl
  | op80 =>
    rcases execOp80_next he with ⟨hpol, rfl⟩ | ⟨hpol, rfl⟩
    · exact execOp80_of_stop (s := s.withHostRegs r) hpol
    · exact execOp80_of_refuse (s := s.withHostRegs r) hpol
  | cvtKey | cvtPix | cvtPad =>
    obtain ⟨hle, rfl⟩ := writePixel_next.mp he
    exact writePixel_next.mpr ⟨hle, rfl⟩
  | start | newSeq | clearStatus => cases hi

theorem refSelect_withHostRegs (r : HostRegs) (s : State) :
    refSelect (s.withHostRegs r) = (refSelect s).withHostRegs r := by
  rw [refSelect, refSelect, apply_ite (State.withHostRegs r)]; rfl

theorem dupTest_withHostRegs (r : HostRegs) (s : State) :
    dupTest (s.withHostRegs r) = (dupTest s).withHostRegs r := by
  rw [dupTest, dupTest, apply_ite (State.withHostRegs r)]; rfl

theorem nextStage_withHostRegs (r : HostRegs) (s : State) :
    nextStage (s.withHostRegs r) = (nextStage s).withHostRegs r := by
  cases hp : s.phase <;> simp only [nextStage, withHostRegs_phase, hp]
  case refSelect => exact refSelect_withHostRegs r s
  case dupTest => exact dupTest_withHostRegs r s
  all_goals rfl

theorem engineStep_withHostRegs (r : HostRegs) {s t : State} (he : engineStep s = .next t) :
    engineStep (s.withHostRegs r) = .next (t.withHostRegs r) := by
  rcases engineStep_next he with ⟨hf, rfl⟩ | ⟨source, bytes, i, rest, hf, hd, hi, hexec⟩
  · rw [engineStep, fetch_withHostRegs, hf]
    exact congrArg Host.Outcome.next (nextStage_withHostRegs r s)
  · rw [engineStep_of_fetch ((fetch_withHostRegs r s).trans hf) hd]
    exact exec_withHostRegs r hi hexec

/-- Settles O51: the engine keeps the host's registers and does not look at them, so either write may come before its step or
after. -/
theorem configWritesDoNotDisturbCommand : Obligations.ConfigWritesDoNotDisturbCommand := by
  unfold Obligations.ConfigWritesDoNotDisturbCommand
  intro s t offset v irqEn he
  have hregs : t.hostRegs = s.hostRegs := sameHostSide_hostRegs (engineStep_keeps_host_side he)
  rw [storeReg_eq_withHostRegs (s := s) rfl, storeReg_eq_withHostRegs hregs, irqEn_eq_withHostRegs (s := s) rfl,
    irqEn_eq_withHostRegs hregs]
  exact ⟨engineStep_withHostRegs _ he, engineStep_withHostRegs _ he⟩

end Sys2Proof.Machine
end

section
/-! SUPPORT. The interrupt level (60_exceptions.md R171): which moves touch DONE and IRQ_EN, and what `irq` is after each. -/

namespace Sys2Proof.Machine

theorem irq_eq_true_iff {s : State} : s.irq = true ↔ s.status.done = true ∧ s.irqEn = true :=
  Bool.and_eq_true_iff

theorem irq_congr {s t : State} (hdone : t.status.done = s.status.done) (hen : t.irqEn = s.irqEn) : t.irq = s.irq := by
  rw [State.irq, State.irq, hdone, hen]

/-! ### The engine -/

/-- Of the engine's moves only COMPLETE touches DONE (44_command.md R148). -/
theorem engineStep_done {s t : State} (h : engineStep s = .next t) :
    t.status.done = s.status.done ∨ (s.phase = .complete ∧ t = complete s) := by
  cases hp : s.phase with
  | idle => rw [engineStep_idle hp] at h; cases h; exact .inl rfl
  | refSelect => rw [engineStep_refSelect hp, refSelect] at h; cases h; left; split <;> rfl
  | dupTest => rw [engineStep_dupTest hp, dupTest] at h; cases h; left; split <;> rfl
  | lzss =>
    rcases engineStep_lzss_next hp h with ⟨_, rfl⟩ | ⟨_, _, hdescr⟩ | ⟨_, _, htoken⟩
    · exact .inl rfl
    · obtain ⟨_, rfl⟩ := execDescr_next.mp hdescr; exact .inl rfl
    · rw [htoken.frame]; exact .inl rfl
  | lengthCheck => rw [engineStep_lengthCheck hp] at h; cases h; exact .inl rfl
  | frame => rw [engineStep_frame hp] at h; split at h <;> cases h <;> exact .inl rfl
  | interpretInit => rw [engineStep_interpretInit hp] at h; cases h; exact .inl rfl
  | interpret =>
    rcases engineStep_interpret_next hp h with rfl | ⟨_, _, hop⟩
    · exact .inl rfl
    · rw [hop.frame]; exact .inl rfl
  | convert =>
    rcases engineStep_convert_next hp h with ⟨_, rfl⟩ | ⟨_, r, g, b, a, hpix⟩
    · exact .inl rfl
    · obtain ⟨_, rfl⟩ := writePixel_next.mp hpix; exact .inl rfl
  | complete => rw [engineStep_complete hp] at h; cases h; exact .inr ⟨rfl, rfl⟩

theorem engineStep_irqEn {s t : State} (h : engineStep s = .next t) : t.irqEn = s.irqEn :=
  congrArg HostRegs.irqEn (sameHostSide_hostRegs (engineStep_keeps_host_side h))

/-- The engine leaves `irq` as it is, or completes a command, and then `irq` is IRQ_EN. -/
theorem engineStep_irq {s t : State} (h : engineStep s = .next t) :
    t.irq = s.irq ∨ (s.phase = .complete ∧ t.phase = .idle ∧ t.irq = s.irqEn) := by
  rcases engineStep_done h with hdone | ⟨hp, rfl⟩
  · exact .inl (irq_congr hdone (engineStep_irqEn h))
  · exact .inr ⟨hp, rfl, Bool.true_and _⟩

/-! ### CTRL writes -/

theorem execNewSeq_done {irqEn : Bool} {s t : State} (h : execNewSeq irqEn s = .next t) :
    t.status.done = s.status.done := by
  unfold execNewSeq at h
  split at h <;> cases h <;> rfl

/-- A CTRL write leaves DONE as it is, or is a START on an idle block: a rejection sets DONE, and an acceptance clears it
(60_exceptions.md R164, 44_command.md R141). -/
theorem writeCtrl_done {v : Word} {s t : State} (h : writeCtrl v s = .next t) :
    t.status.done = s.status.done ∨
      (v.getLsbD 0 = true ∧ s.status.busy = false ∧
        ((t.status.rejected = true ∧ t.status.done = true) ∨ (t.status.busy = true ∧ t.status.done = false))) := by
  rw [writeCtrl_eq] at h
  by_cases hstart : v.getLsbD 0 = true
  · rw [if_pos hstart] at h
    cases hbusy : s.status.busy with
    | true => rw [execStart_of_busy hbusy] at h; cases h; exact .inl rfl
    | false =>
      refine .inr ⟨hstart, rfl, ?_⟩
      rcases issueStart_next ((exec_start_idle hbusy _ _).symm.trans h) with ⟨_, rfl⟩ | rfl
      · exact .inl ⟨rfl, rfl⟩
      · exact .inr ⟨rfl, rfl⟩
  · rw [if_neg hstart] at h
    split at h
    · exact .inl (execNewSeq_done h)
    · cases h; exact .inl rfl

theorem writeCtrl_irq_high {v : Word} {s t : State} (h : writeCtrl v s = .next t) (hirq : t.irq = true) :
    v.getLsbD 2 = true ∧
      (s.status.done = true ∨ (v.getLsbD 0 = true ∧ s.status.busy = false ∧ t.status.rejected = true)) := by
  obtain ⟨hdone, hen⟩ := irq_eq_true_iff.mp hirq
  refine ⟨(writeCtrl_irqEn h).symm.trans hen, ?_⟩
  rcases writeCtrl_done h with hsame | ⟨hstart, hbusy, ⟨hrejected, _⟩ | ⟨_, hcleared⟩⟩
  · exact .inl (hsame.symm.trans hdone)
  · exact .inr ⟨hstart, hbusy, hrejected⟩
  · exact absurd (hcleared.symm.trans hdone) nofun

theorem writeCtrl_irq_falls {v : Word} {s t : State} (h : writeCtrl v s = .next t) (hhigh : s.irq = true)
    (hlow : t.irq = false) :
    v.getLsbD 2 = false ∨ (v.getLsbD 0 = true ∧ s.status.busy = false ∧ t.status.busy = true) := by
  have hdisabled_of_done (hdone : t.status.done = true) : v.getLsbD 2 = false := by
    rw [State.irq, hdone, Bool.true_and, writeCtrl_irqEn h] at hlow
    exact hlow
  rcases writeCtrl_done h with hsame | ⟨hstart, hbusy, ⟨_, hdone⟩ | ⟨hrunning, _⟩⟩
  · exact .inl (hdisabled_of_done (hsame.trans (irq_eq_true_iff.mp hhigh).left))
  · exact .inl (hdisabled_of_done hdone)
  · exact .inr ⟨hstart, hbusy, hrunning⟩

/-! ### The host -/

theorem storeReg_irq (offset : Nat) (v : Word) (s : State) : (storeReg offset v s).irq = s.irq := by
  unfold storeReg; split <;> rfl

theorem readReg_irq (offset : Nat) (s : State) : (readReg offset s).irq = s.irq := by
  unfold readReg; split <;> rfl

/-- A STATUS write takes `irq` down where it writes DONE as 1 (44_command.md R150). -/
theorem writeStatus_irq {v : Word} {s t : State} (h : writeReg 0x04 v s = .next t) :
    t.irq = (s.irq && !v.getLsbD 1) := by
  rw [writeReg_status] at h
  cases h
  exact Bool.and_right_comm _ _ _

/-- A host access leaves `irq` as it is, or is a CTRL write or a STATUS write. -/
theorem hostStep_irq {access : HostAccess} {s t : State} (h : hostStep access s = .next t) :
    t.irq = s.irq ∨
    (∃ v, access = .regWrite 4 0x00 v ∧ writeCtrl v s = .next t) ∨
    (∃ v, access = .regWrite 4 0x04 v ∧ t.irq = (s.irq && !v.getLsbD 1)) := by
  cases access with
  | regRead width offset =>
    obtain ⟨_, hread⟩ := getD_accessError_next h
    cases hread
    exact .inl (readReg_irq offset s)
  | regWrite width offset v =>
    obtain ⟨hnone, hwrite⟩ := getD_accessError_next h
    obtain ⟨rfl, halign, _⟩ := accessError_none.mp hnone
    by_cases hctrl : offset = 0x00
    · subst hctrl; exact .inr (.inl ⟨v, rfl, hwrite⟩)
    by_cases hstatus : offset = 0x04
    · subst hstatus; exact .inr (.inr ⟨v, rfl, writeStatus_irq hwrite⟩)
    rw [writeReg_of_ge (by omega)] at hwrite
    cases hwrite
    exact .inl (storeReg_irq offset v s)
  | memRead a =>
    have hread := getD_memError_next h
    unfold readMem at hread
    split at hread <;> cases hread <;> exact .inl rfl
  | memWrite a v =>
    have hwrite := getD_memError_next h
    unfold writeMem at hwrite
    split at hwrite <;> cases hwrite
    exact .inl rfl

/-! ### Every move -/

theorem resetStep_irq {s t : State} (h : resetStep s = .next t) : t.irq = false := by
  unfold resetStep at h
  split at h <;> cases h <;> rfl

/-- What every move does to `irq`: nothing, but for COMPLETE, a CTRL write, a STATUS write and a reset. -/
theorem step_irq {s t : State} (h : step s = .next t) :
    t.irq = s.irq ∨
    (s.phase = .complete ∧ t.phase = .idle ∧ t.irq = s.irqEn) ∨
    (∃ moves v, s.agenda = .host (.regWrite 4 0x00 v) :: moves ∧ writeCtrl v { s with agenda := moves } = .next t) ∨
    (∃ moves v, s.agenda = .host (.regWrite 4 0x04 v) :: moves ∧ t.irq = (s.irq && !v.getLsbD 1)) ∨
    (t.irq = false ∧ ∃ moves, s.agenda = .reset :: moves) := by
  match hmove : s.agenda with
  | [] => exact (engineStep_irq (step_of_agenda_nil hmove ▸ h)).imp_right .inl
  | .engine :: moves =>
    exact (engineStep_irq (s := { s with agenda := moves }) (step_of_engine hmove ▸ h)).imp_right .inl
  | .host access :: moves =>
    rcases hostStep_irq (step_of_host hmove ▸ h) with hsame | ⟨v, rfl, hctrl⟩ | ⟨v, rfl, hstatus⟩
    · exact .inl hsame
    · exact .inr (.inr (.inl ⟨moves, v, rfl, hctrl⟩))
    · exact .inr (.inr (.inr (.inl ⟨moves, v, rfl, hstatus⟩)))
  | .reset :: moves => exact .inr (.inr (.inr (.inr ⟨resetStep_irq (step_of_reset hmove ▸ h), moves, rfl⟩)))

/-- Settles O45, by the cases of `step_irq`: COMPLETE only raises `irq`, a STATUS write and a reset only lower it, and a CTRL
write does either by the bits it writes. -/
theorem interruptLevel : Obligations.InterruptLevel := by
  unfold Obligations.InterruptLevel
  intro s t h
  refine ⟨rfl, fun hlow hrise => ?_, fun hhigh hfall => ?_⟩
  · rcases step_irq h with hsame | ⟨hp, ht, hen⟩ | ⟨moves, v, hmove, hctrl⟩ | ⟨_, _, _, hclear⟩ |
      ⟨hreset, _⟩
    · exact absurd (hlow.symm.trans (hsame.symm.trans hrise)) nofun
    · exact .inl ⟨hp, hen.symm.trans hrise, ht⟩
    · exact .inr ⟨moves, v, hmove, writeCtrl_irq_high (s := { s with agenda := moves }) hctrl hrise⟩
    · rw [hlow, Bool.false_and] at hclear
      exact absurd (hclear.symm.trans hrise) nofun
    · exact absurd (hreset.symm.trans hrise) nofun
  · rcases step_irq h with hsame | ⟨_, _, hen⟩ | ⟨moves, v, hmove, hctrl⟩ |
      ⟨moves, v, hmove, hclear⟩ | ⟨_, hreset⟩
    · exact absurd (hhigh.symm.trans (hsame.symm.trans hfall)) nofun
    · have hdisabled : s.irqEn = false := hen.symm.trans hfall
      exact absurd ((irq_eq_true_iff.mp hhigh).right.symm.trans hdisabled) nofun
    · exact .inr (.inr ⟨moves, v, hmove, writeCtrl_irq_falls (s := { s with agenda := moves }) hctrl hhigh hfall⟩)
    · rw [hfall, hhigh, Bool.true_and] at hclear
      exact .inr (.inl ⟨moves, v, hmove, by simpa using hclear.symm⟩)
    · exact .inl hreset

end Sys2Proof.Machine
end

section
/-! SUPPORT. How a command ends, whoever ends it (70_reset_and_hazards.md): by its own run (R197) or by a reset (R180, R184); and
what a host write of a byte does meanwhile (R188). -/

namespace Sys2Proof.Machine

/-! ### The command's own end -/

theorem CommandOk.not_busy_of_idle {s : State} (h : CommandOk s) (hp : s.phase = .idle) : s.status.busy = false :=
  Bool.eq_false_iff.mpr fun hbusy => h.busyIff.mp hbusy hp

/-- Settles O55: each engine step takes the command nearer to its end (`run_commandBound_ends`), and the idle state it ends in
keeps the invariant, so that BUSY is 0 there. -/
theorem commandCompletes : Obligations.CommandCompletes := by
  unfold Obligations.CommandCompletes
  intro s h hagenda
  obtain ⟨t, hrun, hidle⟩ := run_commandBound_ends h hagenda
  have ht : Inv t := run_keeps (P := Inv) (fun _ _ hu he => engineStep_keeps_inv hu he) hagenda hrun h
  exact ⟨t, hrun, ht.commandOk.not_busy_of_idle hidle⟩

/-! ### A host write of a byte -/

/-- The ranges a command reads or writes, by addresses (20_memory.md R50). -/
theorem inCommandRange_iff {s : State} {a : Nat} :
    s.inCommandRange a = true ↔ (s.lSrc.toNat ≤ a ∧ a < s.lSrc.toNat + s.lStorage.toNat) ∨
      (s.lDst.toNat ≤ a ∧ a < s.lDst.toNat + 4 * (s.lWidth.toNat * s.lHeight.toNat)) := by
  simp only [State.inCommandRange, State.inPayload, State.inRgba, Bool.or_eq_true, Bool.and_eq_true, decide_eq_true_eq]
  rfl

theorem writeMem_of_running {s : State} {a : Nat} (hbusy : s.status.busy = true) (hrange : s.inCommandRange a = true)
    (v : Byte) : writeMem a v s = .fault .hostWriteDuringBusy :=
  if_pos (by rw [hbusy, hrange]; rfl)

theorem writeMem_of_free {s : State} {a : Nat} (h : s.status.busy = false ∨ ¬ s.inCommandRange a = true) (v : Byte) :
    writeMem a v s = .next { s with mem := s.mem.write a v } := by
  have hfree : ¬ (s.status.busy && s.inCommandRange a) = true := by rcases h with h | h <;> simp [h]
  exact if_neg hfree

/-- Settles O46: what stops the access is looked at first, then whether a running command has the byte in its ranges. -/
theorem hostMemoryWrites : Obligations.HostMemoryWrites := by
  unfold Obligations.HostMemoryWrites
  intro s a v moves hmove hwf inRanges isRegister
  have hstep : step s = (State.memError { s with agenda := moves } a).getD (writeMem a v { s with agenda := moves }) :=
    step_of_host hmove
  have hpassed (ha : a < s.cfg.hostMemSize) (hreg : ¬ isRegister) : step s = writeMem a v { s with agenda := moves } := by
    rw [hstep, memError_none (s := { s with agenda := moves }) ha (mt inRegisterBlock_iff.mp hreg)]; rfl
  refine ⟨fun hout => ?_, fun ha hreg => ?_, fun ha hreg hbusy hrange => ?_, fun ha hreg hfree => ?_⟩
  · rw [hstep, memError_of_ge (s := { s with agenda := moves }) hout]; rfl
  · rw [hstep, memError_of_register (s := { s with agenda := moves }) ha (inRegisterBlock_iff.mpr hreg)]; rfl
  · rw [hpassed ha hreg]
    exact writeMem_of_running (s := { s with agenda := moves }) hbusy (inCommandRange_iff.mpr hrange) v
  · have hgoes : step s = .next { s with agenda := moves, mem := s.mem.write a v } :=
      (hpassed ha hreg).trans
        (writeMem_of_free (s := { s with agenda := moves }) (hfree.imp_right (mt inCommandRange_iff.mp)) v)
    exact ⟨_, hgoes, (Memory.read_write hwf a v a).trans (if_pos rfl),
      fun _ hb => Memory.read_write_other s.mem v hb, rfl⟩

/-! ### The reset event -/

theorem Memory.read_of_unlisted {m : Memory} {a : Nat} (h : ∀ c ∈ m, c.1 ≠ a) : Memory.read m a = 0 := by
  induction m with
  | nil => rfl
  | cons c m ih =>
    obtain ⟨hc, hm⟩ := List.forall_mem_cons.mp h
    exact (if_neg hc.symm).trans (ih hm)

/-- Writing at chosen ones of some addresses: each byte that is chosen and listed is the new one, each other byte stays. -/
theorem Memory.read_foldl_write (chosen : Nat → Bool) (byte : Nat → Byte) (cells : Memory) {m : Memory}
    (hwf : m.wf = true) (a : Nat) :
    Memory.read (cells.foldl (fun m c => if chosen c.1 then m.write c.1 (byte c.1) else m) m) a =
      if chosen a = true ∧ ∃ c ∈ cells, c.1 = a then byte a else m.read a := by
  induction cells generalizing m with
  | nil => simp
  | cons c cells ih =>
    rw [List.foldl_cons]
    by_cases hc : chosen c.1 = true
    · rw [if_pos hc, ih (Memory.wf_write hwf _ _), Memory.read_write hwf]
      by_cases hca : c.1 = a
      · simp [← hca, hc]
      · simp [hca, Ne.symm hca]
    · rw [if_neg hc, ih hwf]
      have hca (ha : chosen a = true) : c.1 ≠ a := fun heq => hc (heq ▸ ha)
      by_cases ha : chosen a = true
      · simp [hca ha]
      · simp [ha]

/-- What a reset in the middle of a command leaves of host memory, byte by byte (70_reset_and_hazards.md R184): an address that
none of the three memories lists holds 0 in each of them, so nothing is missed there. -/
theorem mixMemory_read {s : State} (hwf : s.mem.wf = true) (new : Memory) (a : Nat) :
    (mixMemory s new).read a =
      if s.inCommandRange a then chooseByte (Config.resetLeavesNew s.freeCount a) s.oldMem new a else s.mem.read a := by
  refine (Memory.read_foldl_write s.inCommandRange
    (fun b => chooseByte (Config.resetLeavesNew s.freeCount b) s.oldMem new b) (s.mem ++ s.oldMem ++ new) hwf a).trans ?_
  by_cases hlisted : ∃ c ∈ s.mem ++ s.oldMem ++ new, c.1 = a
  · simp only [hlisted, and_true]
  · have hunlisted : ∀ m : Memory, m ⊆ s.mem ++ s.oldMem ++ new → m.read a = 0 := fun m hm =>
      Memory.read_of_unlisted fun c hc heq => hlisted ⟨c, hm hc, heq⟩
    have hmem : s.mem.read a = 0 := hunlisted _ (by simp)
    have hold : s.oldMem.read a = 0 := hunlisted _ (by simp)
    have hnew : new.read a = 0 := hunlisted _ (by simp)
    rw [if_neg fun ⟨_, hl⟩ => hlisted hl, chooseByte, hmem, hold, hnew, ite_self, ite_self]

theorem resetStep_of_busy {s : State} (hbusy : s.status.busy = true) :
    resetStep s =
      .next { resetBlock (mixMemory s (finishCommand s).mem) s with freeCount := s.freeCount + 1 } :=
  if_pos hbusy

theorem resetStep_of_idle {s : State} (hbusy : s.status.busy = false) : resetStep s = .next (resetBlock s.mem s) :=
  if_neg (Bool.eq_false_iff.mp hbusy)

/-- Settles O49: an idle block keeps host memory; in the middle of a command the engine's run, which ends, gives the new bytes,
and `mixMemory_read` says which of them the reset leaves. -/
theorem resetEvent : Obligations.ResetEvent := by
  unfold Obligations.ResetEvent
  intro s moves hmove h
  obtain ⟨t, hrun, hidle⟩ := run_commandBound_ends (inv_with_agenda h []) rfl
  cases hbusy : s.status.busy with
  | false =>
    have hstep := (step_of_reset hmove).trans (resetStep_of_idle (s := { s with agenda := moves }) hbusy)
    exact ⟨t, _, hrun, hidle, hstep, fun _ => rfl, fun _ _ => rfl, nofun, rfl⟩
  | true =>
    have hstep := (step_of_reset hmove).trans (resetStep_of_busy (s := { s with agenda := moves }) hbusy)
    rw [finishCommand_mem_of_run moves hrun] at hstep
    have hread := mixMemory_read (s := { s with agenda := moves }) h.memoriesOk.memWf t.mem
    refine ⟨t, _, hrun, hidle, hstep, nofun, fun a hout => ?_, fun a _ hrange => ?_, rfl⟩
    · exact (hread a).trans (if_neg (Bool.eq_false_iff.mp hout))
    · have hbyte := (hread a).trans (if_pos hrange)
      exact (chooseByte_cases _ s.oldMem t.mem a).imp hbyte.trans hbyte.trans

end Sys2Proof.Machine
end
